-- ==== Sys2Proof/Word.lean ====
section
/-! DEFINITION. The words of the block: bytes, 32-bit bus words, IEEE binary64 and binary32 values as bit
patterns, complex pairs (spec 00_scope.md R6, R7, R8; 20_memory.md R80, R82, R88). -/

namespace Sys2Proof

/-- A byte of a text field (R10). -/
abbrev Byte := BitVec 8

/-- A bus data word or offset (R80). -/
abbrev Word32 := BitVec 32

/-- An IEEE 754 binary64 value, as its bit pattern; bit 63 is the sign (R8, R123). -/
structure F64 where
  bits : BitVec 64
deriving DecidableEq, Repr, Inhabited

/-- An IEEE 754 binary32 value as its bit pattern: a word of the output window (R88). -/
abbrev F32 := BitVec 32

/-- A complex binary64 sample `re + j·im` (R7). -/
structure Cplx where
  re : F64
  im : F64
deriving DecidableEq, Repr, Inhabited

/-- `+0.0`. -/
def F64.zero : F64 := ⟨0#64⟩

/-- `1.0`. -/
def F64.one : F64 := ⟨0x3FF0000000000000#64⟩

/-- `10.0`. -/
def F64.ten : F64 := ⟨0x4024000000000000#64⟩

/-- The binary64 nearest to π (R8, R260). -/
def F64.pi : F64 := ⟨0x400921FB54442D18#64⟩

/-- The binary64 nearest to 2π (R8, R260). -/
def F64.twoPi : F64 := ⟨0x401921FB54442D18#64⟩

/-- `0 + j·0`, both components `+0.0`. -/
def Cplx.zero : Cplx := ⟨F64.zero, F64.zero⟩

end Sys2Proof
end

