-- ==== Sys2Proof/Config.lean ====
section
/-! DEFINITION. What the specification fixes for every block (R3, R4, R5 DECIDED), the OPEN parameters of one block
(R5) as a record, and the free values: opaque functions nothing in Lean can evaluate (R8, R101). -/

namespace Sys2Proof

/-! ## Fixed by the source or decided by the spec (R3, R4, R5) -/

/-- `BASE_RATE`, Hz. -/
def baseRate : Nat := 228000
/-- `MAX_RATE = 10 × BASE_RATE`, Hz. -/
def maxRate : Nat := 2280000
/-- `DEFAULT_BLOCK`, the source's default of `BLOCK_CFG`: 1,000,000 samples at MAX_RATE (R3, R5). -/
def defaultBlock : Nat := 100000
/-- `PHASES`. -/
def phases : Nat := 10
/-- `TAPS_PER_PHASE`. -/
def tapsPerPhase : Nat := 3
/-- `SPB`, samples per RDS bit. -/
def spb : Nat := 192
/-- Bits of one RDS group. -/
def groupBits : Nat := 104
/-- `ID_VALUE`. -/
def idValue : Word32 := 0x52465331#32
/-- `AF_WORD`. -/
def afWord : BitVec 16 := 0xCDCD#16
/-- The decided flag fields of block B: `TP`, `PTY`, `TA`, `MS`, `DI[0..3]`, and the text A/B flag `AB` (R5, R204). -/
def flagTP : BitVec 1 := 1#1
def flagPTY : BitVec 5 := 0#5
def flagTA : BitVec 1 := 0#1
def flagMS : BitVec 1 := 0#1
def flagDI : BitVec 4 := 0#4
def flagAB : BitVec 1 := 0#1
/-- `OFFSET[0..3]`: the offset words of block positions A, B, C, D. -/
def offsetA : BitVec 10 := 0x0FC#10
def offsetB : BitVec 10 := 0x198#10
def offsetC : BitVec 10 := 0x168#10
def offsetD : BitVec 10 := 0x1B4#10

/-! ## Value types whose laws hold by their form (R398, R400, R164, R263) -/

/-- A binary64 value of magnitude at most 1, as a sign and a magnitude pattern up to that of 1.0: the law of an audio
sample (R398) and of a sine table entry (R263). -/
structure UnitF64 where
  neg : Bool
  mag : Fin 0x3FF0000000000001
deriving DecidableEq, Repr, Inhabited

/-- A finite binary64 value, as a sign and a magnitude pattern below that of infinity: the law of a noise draw (R164). -/
structure FinF64 where
  neg : Bool
  mag : Fin 0x7FF0000000000000
deriving DecidableEq, Repr, Inhabited

/-- What the clock answers, before the day is limited to its month (R400): the year from 1900, the month from 0, the day
from 0, hour, minute, and the local offset in half-hours as sign and magnitude. -/
structure ClockReading where
  yearsFrom1900 : Nat
  month0 : Fin 12
  day0 : Fin 31
  hour : Fin 24
  minute : Fin 60
  offsetNeg : Bool
  offsetMag : Fin 32
deriving DecidableEq, Repr, Inhabited

/-- One audio pair `(L, R)` (R398). -/
structure AudioPair where
  left : UnitF64
  right : UnitF64
deriving DecidableEq, Repr, Inhabited

/-! ## The OPEN parameters of one block (R5) -/

/-- The OPEN parameters of R5, but for `N_ST` (the number of station slots State holds). "A model takes each one marked
OPEN as an argument": State carries this record and no step changes it (log 4). A configuration FUNCTION is given here
as a table of the points that matter; at every other point it is the opaque function of `Config` (log 4). -/
structure Params where
  /-- `BASE_ADDR` (R80). -/
  baseAddr : Word32
  /-- `BLOCK_CFG`; the source's default is DEFAULT_BLOCK. -/
  blockCfg : Nat := defaultBlock
  /-- `MIN_RATE`, Hz. -/
  minRate : Nat
  cfMin : F64
  cfMax : F64
  cf0 : F64
  gainMin : F64
  gainMax : F64
  /-- `NOISE_LEN`. -/
  noiseLen : Nat
  /-- `MAX_DEV`, Hz. -/
  maxDev : F64
  /-- `PROTO[0..29]`. -/
  proto : Vector F64 30
  gMono : F64
  gStereo : F64
  gPilot : F64
  gRds : F64
  /-- `KERNEL[0..KLEN−1]`; `KLEN` is its length. -/
  kernel : List F64
  defaultCallsign : List Byte
  defaultPs : List Byte
  defaultRt : List Byte
  /-- Points of `COS`, `SIN`, `EXP10`. -/
  cosTab : List (F64 × F64)
  sinTab : List (F64 × F64)
  exp10Tab : List (F64 × F64)
  /-- Points of `SINCOS_LUT`. -/
  sincosTab : List (F64 × (UnitF64 × UnitF64))
  /-- Values of `RATE_COEFFS(N)`. -/
  rateTab : List (Nat × List F64)
  /-- Values of `CALLSIGN_TO_PI`. -/
  piTab : List (List Byte × BitVec 16)
deriving DecidableEq, Repr, Inhabited

/-! ## Free values: opaque, so no proof can see what they are -/

/-- Any parameters at all; `WellFormed.lean` keeps the admissible ones. -/
opaque Config.anyParams : Params
/-- `N_ST − 1`, so `1 ≤ N_ST ≤ 32` (R5). -/
opaque Config.anySlots : Fin 32
/-- `COS` (R8). -/
opaque Config.cos : F64 → F64
/-- `SIN` (R8). -/
opaque Config.sin : F64 → F64
/-- `EXP10` (R8). -/
opaque Config.exp10 : F64 → F64
/-- `SINCOS_LUT` (R263): a function of the phase with components of magnitude at most 1. -/
opaque Config.sincosLut : F64 → UnitF64 × UnitF64
/-- `RATE_COEFFS` (R5, R361). -/
opaque Config.rateCoeffs : Nat → List F64
/-- `CALLSIGN_TO_PI` where R203's reference says nothing. -/
opaque Config.callsignToPi : List Byte → BitVec 16
/-- Sign and payload of the NaN that binary64 operation `op` gives on two operands (log 6). -/
opaque Config.nan64 : (op : Nat) → F64 → F64 → BitVec 52
/-- Sign and payload of the NaN that the conversion to binary32 gives (log 6). -/
opaque Config.nan32 : F64 → BitVec 23
/-- What WRAP gives where its loops do not end (log 7). -/
opaque Config.wrapOpen : F64 → F64
/-- Whether the k-th `audio_open` of slot s succeeds (R399). -/
opaque Config.audioOpens : (slot k : Nat) → Bool
/-- Whether the k-th `audio_pull` of slot s fails (R398). -/
opaque Config.audioFails : (slot k : Nat) → Bool
/-- Sample i of the k-th block pulled for slot s (R398). -/
opaque Config.audioSample : (slot k i : Nat) → AudioPair
/-- The k-th clock reading made for slot s (R400). -/
opaque Config.clock : (slot k : Nat) → ClockReading
/-- The k-th noise component drawn (R164). -/
opaque Config.noise : Nat → FinF64
/-- The k-th free choice: which station runs next, or whether a tick reads an old or the new value (R96, R98). -/
opaque Config.pick : Nat → Nat
/-- `KAISER_LEN(A, Δf)` where the quotient of R360's formula is infinite or a NaN: the rule gives no length (log 17). -/
opaque Config.kaiserLenOpen : (a df : F64) → Nat

/-- The reference SINCOS_LUT of R263 where its formula has no table index: the spec gives no value (log 17). -/
opaque Config.sincosOpen : (lutN frac : Nat) → F64 → Cplx
/-- An entry of R263's reference table for a COS or SIN that is infinite or a NaN: the spec gives no value (log 17). -/
opaque Config.fixedPointOpen : (frac : Nat) → F64 → F64

/-- `N_ST` of the block that State.reset describes (R5, D12). -/
def Config.nSt : Nat := Config.anySlots.val + 1

end Sys2Proof
end

