-- ==== Sys2Proof/Machine/Float.lean ====
section
/-! DEFINITION. IEEE 754 binary64 arithmetic, round to nearest, ties to even (spec 00_scope.md R8, D2), by exact
integer arithmetic and one rounding; the complex operations of R7; the conversions of R88, R299. A finite magnitude is
counted in units of 2⁻¹⁰⁷⁴, the least positive binary64 value. -/

namespace Sys2Proof

/-- The magnitude pattern of infinity. -/
def F64.infMag : Nat := 0x7FF0000000000000

/-- Bit 63. -/
def F64.sign (x : F64) : Bool := x.bits.getLsbD 63

/-- Bits 62..0: the magnitude pattern. -/
def F64.mag (x : F64) : Nat := x.bits.toNat % 2 ^ 63

def F64.ofSignMag (s : Bool) (m : Nat) : F64 := ⟨BitVec.ofNat 64 (if s then 2 ^ 63 + m else m)⟩

def F64.isNaN (x : F64) : Bool := F64.infMag < x.mag
def F64.isInf (x : F64) : Bool := x.mag == F64.infMag
def F64.isFinite (x : F64) : Bool := x.mag < F64.infMag

/-- The magnitude of a finite value in units of 2⁻¹⁰⁷⁴. -/
def F64.units (x : F64) : Nat :=
  if x.mag / 2 ^ 52 = 0 then x.mag % 2 ^ 52
  else (2 ^ 52 + x.mag % 2 ^ 52) * 2 ^ (x.mag / 2 ^ 52 - 1)

/-- The units in 1.0. Irreducible, so that no elaboration unfolds the power. -/
@[irreducible] def F64.unitsOne : Nat := 2 ^ 1074

/-- `n / d` to the nearest integer, ties to even. -/
def rneDiv (n d : Nat) : Nat :=
  if 2 * (n % d) < d then n / d
  else if d < 2 * (n % d) then n / d + 1
  else n / d + n / d % 2

/-- The magnitude pattern nearest to `n / d` units in a binary format with `frac` fraction bits whose infinity has the
pattern `inf`: the result takes `k` more binary places than the format's least unit, and overflows to infinity. -/
def roundMag (frac inf n d : Nat) : Nat :=
  min inf ((n / d).log2 - frac |> fun k => k * 2 ^ frac + rneDiv n (d * 2 ^ k))

/-- The binary64 nearest to `±n / d` units (ties to even, R8). -/
def F64.round (s : Bool) (n d : Nat) : F64 := F64.ofSignMag s (roundMag 52 F64.infMag n d)

/-- A NaN result: quiet, its sign and payload free (log 6). -/
def F64.nan (op : Nat) (a b : F64) : F64 :=
  ⟨(Config.nan64 op a b).extractLsb' 51 1 ++ 0xFFF#12 ++ (Config.nan64 op a b).extractLsb' 0 51⟩

def F64.neg (x : F64) : F64 := ⟨x.bits ^^^ 0x8000000000000000#64⟩
def F64.abs (x : F64) : F64 := ⟨x.bits &&& 0x7FFFFFFFFFFFFFFF#64⟩

/-- Binary64 `a + b`. -/
def F64.add (a b : F64) : F64 :=
  if a.isNaN || b.isNaN then F64.nan 0 a b
  else if a.isInf then (if b.isInf && a.sign != b.sign then F64.nan 0 a b else a)
  else if b.isInf then b
  else if a.sign = b.sign then F64.round a.sign (a.units + b.units) 1
  else if b.units < a.units then F64.round a.sign (a.units - b.units) 1
  else if a.units < b.units then F64.round b.sign (b.units - a.units) 1
  else F64.zero

/-- Binary64 `a − b`. -/
def F64.sub (a b : F64) : F64 :=
  if b.isNaN then F64.nan 1 a b else F64.add a b.neg

/-- Binary64 `a · b`. -/
def F64.mul (a b : F64) : F64 :=
  if a.isNaN || b.isNaN then F64.nan 2 a b
  else if a.isInf then (if b.units = 0 && !b.isInf then F64.nan 2 a b else F64.ofSignMag (a.sign != b.sign) F64.infMag)
  else if b.isInf then (if a.units = 0 then F64.nan 2 a b else F64.ofSignMag (a.sign != b.sign) F64.infMag)
  else F64.round (a.sign != b.sign) (a.units * b.units) F64.unitsOne

/-- Binary64 `a / b`. -/
def F64.div (a b : F64) : F64 :=
  if a.isNaN || b.isNaN then F64.nan 3 a b
  else if a.isInf then (if b.isInf then F64.nan 3 a b else F64.ofSignMag (a.sign != b.sign) F64.infMag)
  else if b.isInf then F64.ofSignMag (a.sign != b.sign) 0
  else if b.units = 0 then
    (if a.units = 0 then F64.nan 3 a b else F64.ofSignMag (a.sign != b.sign) F64.infMag)
  else F64.round (a.sign != b.sign) (a.units * F64.unitsOne) b.units

/-- The order key of a value that is not a NaN; both zeros have key 0. -/
def F64.key (x : F64) : Int := if x.sign then -(x.mag : Int) else (x.mag : Int)

/-- The comparisons; each is false on a NaN (R160). -/
def F64.lt (a b : F64) : Bool := !a.isNaN && !b.isNaN && decide (a.key < b.key)
def F64.le (a b : F64) : Bool := !a.isNaN && !b.isNaN && decide (a.key ≤ b.key)
def F64.eq (a b : F64) : Bool := !a.isNaN && !b.isNaN && decide (a.key = b.key)

/-- A natural number as binary64; exact below 2⁵³ (R299). -/
def F64.ofNat (n : Nat) : F64 := F64.round false (n * F64.unitsOne) 1

/-- An integer as binary64; 0 is `+0.0`. -/
def F64.ofInt (i : Int) : F64 := F64.round (decide (i < 0)) (i.natAbs * F64.unitsOne) 1

/-- The integer nearest to a finite value, ties to even (R260, R263). -/
def F64.toIntRne (x : F64) : Int :=
  if x.sign then -(rneDiv x.units F64.unitsOne : Int) else (rneDiv x.units F64.unitsOne : Int)

/-- `ceil` of a finite value (R6). -/
def F64.ceilInt (x : F64) : Int :=
  if x.sign then -((x.units / F64.unitsOne : Nat) : Int)
  else (((x.units + (F64.unitsOne - 1)) / F64.unitsOne : Nat) : Int)

/-- Conversion to binary32, round to nearest, ties to even (R88, D37). The least binary32 unit is 2⁻¹⁴⁹. -/
def F64.toF32 (x : F64) : F32 :=
  if x.isNaN then (Config.nan32 x).extractLsb' 22 1 ++ 0x1FF#9 ++ (Config.nan32 x).extractLsb' 0 22
  else BitVec.ofNat 32 ((if x.sign then 2 ^ 31 else 0) +
    (if x.isInf then 0x7F800000 else roundMag 23 0x7F800000 x.units (2 ^ 925)))

def UnitF64.toF64 (u : UnitF64) : F64 := F64.ofSignMag u.neg u.mag.val
def FinF64.toF64 (u : FinF64) : F64 := F64.ofSignMag u.neg u.mag.val

/-- Componentwise complex addition (R7). -/
def Cplx.add (a b : Cplx) : Cplx := ⟨a.re.add b.re, a.im.add b.im⟩

/-- The complex product, in R7's order of operations. -/
def Cplx.mul (x y : Cplx) : Cplx :=
  ⟨(x.re.mul y.re).sub (x.im.mul y.im), (x.re.mul y.im).add (x.im.mul y.re)⟩

/-- A real coefficient times a complex value (R7). -/
def Cplx.scale (c : F64) (z : Cplx) : Cplx := ⟨c.mul z.re, c.mul z.im⟩

end Sys2Proof
end

