-- ==== Sys2Proof/Machine/Constants.lean ====
section
/-! DEFINITION. The constants of a block that its parameters give (spec 10_state.md R53, R56; 42_mpx_fm.md R261). -/

namespace Sys2Proof

/-- The FM sensitivity `SENS = (2π·MAX_DEV)/228000.0` (R53, R261), a constant of the block. -/
def Params.sens (p : Params) : F64 := (F64.twoPi.mul p.maxDev).div (F64.ofNat baseRate)

/-- `KLEN` (R5). -/
def Params.klen (p : Params) : Nat := p.kernel.length

/-- `RING_LEN = SPB + KLEN` (R56). -/
def Params.ringLen (p : Params) : Nat := spb + p.klen

end Sys2Proof
end

