-- ==== Sys2Proof/Syntax.lean ====
section
/-! DEFINITION. The command words (spec/opcode_table.json, 30_encoding.md R125), the host's bus operations (R83, R129)
and the pseudo-instructions (R130), as syntax. -/

namespace Sys2Proof

/-- The block's commands, one constructor per row of the opcode table (R125). Operands wider than the word come from
ARG0 (R120, R123), so only SET_NOISE_ENABLE carries one. -/
inductive Instr where
  /-- 0x00 (R151). -/
  | nop
  /-- 0x01 (R152). -/
  | init
  /-- 0x02 (R154). -/
  | start
  /-- 0x03 (R155). -/
  | stop
  /-- 0x04 (R156). -/
  | tick
  /-- 0x05 (R157). -/
  | reset
  /-- 0x10 (R160). -/
  | setCenterFreq
  /-- 0x11 (R161). -/
  | setGain
  /-- 0x12 (R162). -/
  | setSampleRate
  /-- 0x13, the one command of format CE: `en` is word bit 8 (R122, R163). -/
  | setNoiseEnable (en : Bool)
  /-- 0x14 (R164). -/
  | setNoiseSigma
deriving DecidableEq, Repr

/-- One host access: `MemRead` or `MemWrite` (R9) at a byte offset from BASE_ADDR (R80), with the width in bits that the
request asks for; a width other than 32 gets SLVERR (R83). -/
inductive BusOp where
  | read (offset : Word32) (width : Nat)
  | write (offset : Word32) (width : Nat) (data : Word32)
deriving DecidableEq, Repr

/-- The pseudo-instructions of R130. `cmd` is a format C command without an operand, `cmdF64` one with an ARG_F64. -/
inductive Pseudo where
  | cmd (i : Instr)
  | cmdF64 (i : Instr) (arg : F64)
  | noiseOn
  | noiseOff
  | stage (slot : Nat) (freq : F64) (cs ps rt : Option (List Byte))
  /-- A test-only comparison: on the bus, the read alone. -/
  | check (offset : Word32) (value : Word32)
deriving DecidableEq, Repr

end Sys2Proof
end

