-- ==== Sys2Proof/WellFormed.lean ====
section
/-! DEFINITION. What is checked before anything runs: the command operands, the host accesses that the bus accepts
(R83), and the configuration (R5, R263; 93_implementation_defined.md: an inadmissible configuration is refused up front). -/

namespace Sys2Proof

/-- Every command is well formed: the only operand, EN, is one bit (R122). -/
def Instr.wf : Instr → Bool
  | .nop | .init | .start | .stop | .tick | .reset => true
  | .setCenterFreq | .setGain | .setSampleRate | .setNoiseEnable _ | .setNoiseSigma => true

/-- An access the bus may accept: 32 bits wide, at a multiple of 4 (R83). -/
def BusOp.wf : BusOp → Bool
  | .read off w => w == 32 && off.toNat % 4 == 0
  | .write off w _ => w == 32 && off.toNat % 4 == 0

/-- A pseudo-instruction of R130: `cmd` takes a format C command without an operand, `cmdF64` one with an ARG_F64
operand; a staged slot is one of at most 32, and its texts fit their buffers. CHECK takes any offset: a misaligned read
gets its SLVERR answer (R83). -/
def Pseudo.wf : Pseudo → Bool
  | .cmd i => i == .nop || i == .init || i == .start || i == .stop || i == .tick || i == .reset
  | .cmdF64 i _ => i == .setCenterFreq || i == .setGain || i == .setSampleRate || i == .setNoiseSigma
  | .noiseOn | .noiseOff | .check _ _ => true
  | .stage slot _ cs ps rt =>
      decide (slot < 32) && decide ((cs.getD []).length ≤ 8) && decide ((ps.getD []).length ≤ 16) &&
        decide ((rt.getD []).length ≤ 64)

/-- `E_MAX = ceil(KLEN/SPB)·max_j |KERNEL[j]|`, in units of 2⁻¹⁰⁷⁴ (R263). -/
def Params.envMaxUnits (p : Params) : Nat :=
  (p.klen + spb - 1) / spb * p.kernel.foldl (fun m x => max m x.units) 0

/-- `10·X_MAX = 2·|G_MONO| + 2·|G_STEREO| + |G_PILOT| + |G_RDS|·E_MAX`, in units of 2⁻²¹⁴⁸ (R263). -/
def Params.tenXMaxUnits (p : Params) : Nat :=
  (2 * p.gMono.units + 2 * p.gStereo.units + p.gPilot.units) * F64.unitsOne + p.gRds.units * p.envMaxUnits

/-- R263's configuration bound `π + |SENS|·X_MAX ≤ 2⁵⁰`, in exact arithmetic (log 5). -/
def Params.deviationOk (p : Params) : Bool :=
  p.sens.isFinite && p.gMono.isFinite && p.gStereo.isFinite && p.gPilot.isFinite && p.gRds.isFinite &&
    p.kernel.all F64.isFinite &&
    decide (10 * F64.pi.units * F64.unitsOne * F64.unitsOne + p.sens.units * p.tenXMaxUnits
      ≤ 10 * 2 ^ 50 * F64.unitsOne * F64.unitsOne * F64.unitsOne)

/-- The ranges of R5, finite bounds (D43), and R263's bound. -/
def Params.wf (p : Params) : Bool :=
  decide (1 ≤ p.blockCfg) && decide (p.blockCfg ≤ 200000) &&
  decide (1 ≤ p.minRate) && decide (p.minRate ≤ maxRate) &&
  p.cfMin.isFinite && p.cfMax.isFinite && p.cfMin.le p.cfMax &&
  p.gainMin.isFinite && p.gainMax.isFinite && p.gainMin.le p.gainMax &&
  decide (1 ≤ p.noiseLen) && decide (1 ≤ p.klen) && p.deviationOk

/-- One admissible configuration, of the default block size (R3), used only where `Config.anyParams` is not admissible. -/
def Params.least : Params :=
  { (default : Params) with blockCfg := defaultBlock, minRate := 1, noiseLen := 1, kernel := [F64.zero] }

/-- The block's configuration: any admissible one (log 5). -/
def Config.params : Params := if Config.anyParams.wf then Config.anyParams else Params.least

end Sys2Proof
end

