-- ==== Sys2Proof/Machine/Functions.lean ====
section
/-! DEFINITION. The configuration functions as the rules use them (R5, R8, R203, R263) and the phase reduction WRAP
(R260). Each is the parameter's table where the table has the point, and the opaque function elsewhere (log 4). -/

namespace Sys2Proof.Machine

/-- `COS` (R8). -/
def cosOf (p : Params) (x : F64) : F64 := (p.cosTab.lookup x).getD (Config.cos x)

/-- `SIN` (R8). -/
def sinOf (p : Params) (x : F64) : F64 := (p.sinTab.lookup x).getD (Config.sin x)

/-- `EXP10` (R8). -/
def exp10Of (p : Params) (x : F64) : F64 := (p.exp10Tab.lookup x).getD (Config.exp10 x)

/-- `SINCOS_LUT` (R263): `c + j·d`. -/
def sincosOf (p : Params) (x : F64) : Cplx :=
  let cd := (p.sincosTab.lookup x).getD (Config.sincosLut x)
  ⟨cd.1.toF64, cd.2.toF64⟩

/-- `RATE_COEFFS(n)` (R5). -/
def rateCoeffs (p : Params) (n : Nat) : List F64 := (p.rateTab.lookup n).getD (Config.rateCoeffs n)

/-- An upper-case letter 'A' to 'Z' (R203). -/
def isUpper (b : Byte) : Bool := decide (0x41 ≤ b.toNat) && decide (b.toNat ≤ 0x5A)

/-- R203's reference: the North American call-sign rule, for four upper-case letters of which the first is K or W. -/
def referencePi : List Byte → Option (BitVec 16)
  | [c0, c1, c2, c3] =>
      let v := 676 * (c1.toNat - 0x41) + 26 * (c2.toNat - 0x41) + (c3.toNat - 0x41)
      if isUpper c1 && isUpper c2 && isUpper c3 then
        if c0 = 0x4B#8 then some (BitVec.ofNat 16 (4096 + v))
        else if c0 = 0x57#8 then some (BitVec.ofNat 16 (21672 + v))
        else none
      else none
  | _ => none

/-- `CALLSIGN_TO_PI` (R203, log 12): a configured value, else the reference, else open. -/
def callsignToPi (p : Params) (cs : List Byte) : BitVec 16 :=
  (p.piTab.lookup cs).getD ((referencePi cs).getD (Config.callsignToPi cs))

/-- `while ψ > π: ψ <- ψ − 2π`, for at most `n` turns (R260). -/
def wrapDown : Nat → F64 → Option F64
  | 0, x => if F64.pi.lt x then none else some x
  | n + 1, x => if F64.pi.lt x then wrapDown n (x.sub F64.twoPi) else some x

/-- `while ψ <= −π: ψ <- ψ + 2π`, for at most `n` turns (R260). -/
def wrapUp : Nat → F64 → Option F64
  | 0, x => if x.le F64.pi.neg then none else some x
  | n + 1, x => if x.le F64.pi.neg then wrapUp n (x.add F64.twoPi) else some x

/-- The turns of each loop the model follows; R260 needs two within R263's bound (log 7). -/
def wrapTurns : Nat := 64

/-- `WRAP(φ)` (R260). Where φ is not finite, or a loop does not end within `wrapTurns`, the value is free (log 7). -/
def wrap (x : F64) : F64 :=
  if x.isFinite then
    let k := F64.ofInt (x.div F64.twoPi).toIntRne
    (((wrapDown wrapTurns (x.sub (k.mul F64.twoPi))).bind (wrapUp wrapTurns)).getD (Config.wrapOpen x))
  else Config.wrapOpen x

end Sys2Proof.Machine
end

