-- ==== Sys2Proof/Machine/State.lean ====
section
/-! DEFINITION. Everything the specification gives the machine (10_state.md), as plain data, and the machine right after
reset (70_reset_and_hazards.md R410). The fields marked "the model's own" are not the spec's state (INVENTORY.md). -/

namespace Sys2Proof.Machine

/-- `LIFE` (R32). -/
inductive Life where
  | uninit | idle | running
deriving DecidableEq, Repr, Inhabited

/-- `s.STATE` (R48). -/
inductive SlotStatus where
  | empty | active | skipped
deriving DecidableEq, Repr, Inhabited

/-- The result codes (R370). -/
inductive ResultCode where
  | ok | configError | outOfRange | invalidValue | ioError | warnNoop | illegalCommand
deriving DecidableEq, Repr, Inhabited

/-- The tuning tuple `(s.TUNED, s.NORMFC, s.TUNER_INC)`, replaced and read as one (R50, R96 (f)). -/
structure Tuning where
  tuned : F64
  normFc : F64
  inc : Cplx
deriving DecidableEq, Repr, Inhabited

/-- The RdsSignalState of a station (R56). -/
structure Rds where
  /-- `BIT_BUF[0..103]`; `BIT_BUF[i]` is the i-th bit from the most significant. -/
  bitBuf : BitVec 104
  bitPos : Nat
  sampleCnt : Nat
  diffPrev : Bool
  ring : List F64
  wrIdx : Nat
  rdIdx : Nat
  phase4 : Nat
  lastMin : Option Nat
  grpCur : Nat
  psIdx : Nat
  rtIdx : Nat
deriving DecidableEq, Repr, Inhabited

/-- Everything one station slot holds (R47 to R58), but for what the external agents still have to answer. -/
structure Station where
  /-- Staging (R47). -/
  desc : Word32
  dfreq : F64
  csLen : Byte
  psLen : Byte
  rtLen : Byte
  csBuf : Vector Byte 8
  psBuf : Vector Byte 16
  rtBuf : Vector Byte 64
  /-- What INIT did with the slot (R48). -/
  status : SlotStatus
  code : ResultCode
  /-- Identity (R49). -/
  freq : F64
  csN : Vector Byte 4
  psN : Vector Byte 8
  rtN : Vector Byte 64
  pi : BitVec 16
  /-- Tuning (R50, R51). -/
  tuning : Tuning
  tunerPhase : F64
  /-- FM accumulator (R52). -/
  fmPhase : F64
  /-- `HIST[p] = (HIST[p][0], HIST[p][1])` (R54). -/
  hist : Vector (Cplx × Cplx) 10
  /-- MPX phase counter (R55). -/
  q12 : Nat
  rds : Rds
  oobLast : Bool
  /-- Per-tick buffers (R57): MPX, FM, upsampled, and `s.OUT`, the tuned one. -/
  mpxBuf : List F64
  fmBuf : List Cplx
  upBuf : List Cplx
  out : List Cplx
  /-- The model's own: the tuning tuples that a retune replaced during the tick in progress (R96 (f), log 10). -/
  tuneOld : List Tuning
deriving DecidableEq, Repr, Inhabited

/-- An answer of `audio_pull` (R398). A listed block is cut or continued with free samples to the length asked for. -/
inductive AudioAnswer where
  | fail
  | samples (xs : List AudioPair)
deriving DecidableEq, Repr, Inhabited

/-- The model's own: the answers the audio agent and the clock have ready for one slot, and the requests made (R101).
Where answers have run out, the opaque functions of Config answer (log 3). -/
structure Feed where
  openIn : List Bool
  opens : Nat
  audioIn : List AudioAnswer
  pulls : Nat
  clockIn : List ClockReading
  clocks : Nat
deriving DecidableEq, Repr, Inhabited

/-- A station slot with its agents. -/
structure Slot where
  st : Station
  feed : Feed
deriving DecidableEq, Repr, Inhabited

/-- How far the tick in progress is (R320, R91), with the block handed to the next stage. -/
inductive TickPhase where
  /-- No tick in progress. -/
  | idle
  /-- Step 3: the slots whose station unit has not run yet. -/
  | stations (todo : List Nat)
  /-- After step 4: MIX stands in the mix buffer. -/
  | mixed
  /-- After step 5. -/
  | noised
  /-- After step 6: Y. -/
  | filtered (y : List Cplx)
  /-- After step 7: D. -/
  | decimated (d : List Cplx)
  /-- After step 8: O. -/
  | gained (o : List Cplx)
deriving DecidableEq, Repr, Inhabited

/-- The model's own: the values commands replaced in each engine resource of R96 (a) to (e) during the tick in progress
(log 10). -/
structure Replaced where
  rateCoef : List (List F64)
  decim : List Nat
  noiseTab : List (List Cplx)
  noiseEn : List Bool
  gainDb : List F64
deriving DecidableEq, Repr, Inhabited

/-- The abstract deadline (R39, R390): `offset` base-rate sample times (1/228000 s) after the instant of the
`armed`-th START. -/
structure Deadline where
  armed : Nat
  offset : Nat
deriving DecidableEq, Repr, Inhabited

/-- What happens next, from outside (R395): a host access, a firing of the tick timer with the outcome of the lag test
(R391, R392), or progress of the tick under way by one stage. -/
inductive Event where
  | bus (op : BusOp)
  | fire (lag : Bool)
  | advance
deriving DecidableEq, Repr, Inhabited

/-- The block's answer to a bus access (R84, R85). -/
structure BusResp where
  data : Word32
  slvErr : Bool
deriving DecidableEq, Repr, Inhabited

/-- The model's own: the world around the block (log 1, 2, 3, 15). -/
structure Env where
  inbox : List Event
  busResp : Option BusResp
  /-- The blocks handed to the output port, oldest first (R348). -/
  delivered : List (List Cplx)
  starts : Nat
  noiseIn : List FinF64
  noiseDraws : Nat
  picks : List Nat
  pickDraws : Nat
deriving DecidableEq, Repr, Inhabited

/-- The machine. -/
structure State where
  /-- The OPEN parameters of R5: an argument of the model; no step writes it (log 4). -/
  par : Params
  life : Life
  cmdStatus : Word32
  warn : Word32
  irqEn : Word32
  irqPend : Word32
  arg0 : BitVec 64
  tickCount : Word32
  outLen : Nat
  outBuf : List (F32 × F32)
  nextDeadline : Option Deadline
  centerFreq : F64
  gainDb : F64
  sampleRate : Nat
  decim : Nat
  rateCoef : List F64
  noiseEn : Bool
  noiseSigma : F64
  noiseTab : List Cplx
  block : Nat
  /-- The `N_ST` station slots. -/
  slots : List Slot
  mixBuf : List Cplx
  /-- The model's own (R96, log 10). -/
  tick : TickPhase
  old : Replaced
  env : Env
deriving DecidableEq, Repr, Inhabited

/-- Why the machine would stop with a fault: never. The block has no traps (R376), no error escapes a tick (R375), a bus
error is an answer (R84) and an illegal word a completed command (R126); so there is no constructor. -/
inductive Fault
deriving DecidableEq, Repr

/-- Why the machine would have no meaning for an instruction. -/
inductive Refusal where
  /-- The instruction has no meaning yet. Raised by an arm of exec only, and by none: every command has its meaning.
  Safe. -/
  | notModelled (mnemonic : String)
deriving DecidableEq, Repr

/-- The build values of the RdsSignalState (R56), which are also its reset values (R410). -/
def Rds.fresh (p : Params) : Rds :=
  { bitBuf := 0, bitPos := groupBits, sampleCnt := spb, diffPrev := false,
    ring := List.replicate p.ringLen F64.zero, wrIdx := 0, rdIdx := 0, phase4 := 0, lastMin := none,
    grpCur := 0, psIdx := 0, rtIdx := 0 }

/-- A slot after reset (R410). The per-tick buffers are empty (log 8). -/
def Station.fresh (p : Params) : Station :=
  { desc := 0, dfreq := F64.zero, csLen := 0, psLen := 0, rtLen := 0,
    csBuf := Vector.replicate 8 0, psBuf := Vector.replicate 16 0, rtBuf := Vector.replicate 64 0,
    status := .empty, code := .ok, freq := F64.zero,
    csN := Vector.replicate 4 0, psN := Vector.replicate 8 0, rtN := Vector.replicate 64 0, pi := 0,
    tuning := ⟨F64.zero, F64.zero, Cplx.zero⟩, tunerPhase := F64.zero, fmPhase := F64.zero,
    hist := Vector.replicate 10 (Cplx.zero, Cplx.zero), q12 := 0, rds := Rds.fresh p, oobLast := false,
    mpxBuf := [], fmBuf := [], upBuf := [], out := [], tuneOld := [] }

/-- Nothing answered, nothing asked. -/
def Feed.fresh : Feed := ⟨[], 0, [], 0, [], 0⟩

/-- Nothing replaced. -/
def Replaced.none : Replaced := ⟨[], [], [], [], []⟩

/-- Nothing happened yet. -/
def Env.fresh : Env := ⟨[], none, [], 0, [], 0, [], 0⟩

/-- The machine right after reset (R410), for given parameters, slots and surroundings. -/
def State.resetWith (p : Params) (slots : List Slot) (env : Env) : State :=
  { par := p, life := .uninit, cmdStatus := 0, warn := 0, irqEn := 0, irqPend := 0, arg0 := 0, tickCount := 0,
    outLen := 0, outBuf := [], nextDeadline := none, centerFreq := p.cf0, gainDb := F64.zero,
    sampleRate := maxRate, decim := 1, rateCoef := rateCoeffs p 1, noiseEn := false, noiseSigma := F64.zero,
    noiseTab := List.replicate p.noiseLen Cplx.zero, block := 0, slots := slots, mixBuf := [],
    tick := .idle, old := Replaced.none, env := env }

/-- Power-on reset (R410) of a block with the configuration's parameters and `N_ST` slots. -/
def State.reset : State :=
  State.resetWith Config.params (List.replicate Config.nSt ⟨Station.fresh Config.params, Feed.fresh⟩) Env.fresh

/-- The one memory of the block, OUT_BUF, in its canonical form: as many samples as OUT_LEN says (R38, log 13). -/
def Memory.wf (s : State) : Bool := s.outBuf.length == s.outLen

end Sys2Proof.Machine
end

