-- ==== Sys2Proof/Machine/Flags.lean ====
section
/-! DEFINITION. The flag bits: the sticky warnings (R34, R384), the interrupt enables and pending bits (R35, R380 to
R383) and the interrupt line. -/

namespace Sys2Proof.Machine

/-- WARN bits (R34). -/
def warnLag : Word32 := 0x1#32
def warnLenMismatch : Word32 := 0x2#32
def warnLifecycle : Word32 := 0x4#32
def warnStationSkipped : Word32 := 0x8#32
def warnStationFault : Word32 := 0x10#32
/-- The named bits of WARN (R34). -/
def warnMask : Word32 := 0x1F#32

/-- IRQ_PEND and IRQ_EN bits (R35). -/
def irqBlock : Word32 := 0x1#32
def irqCmdDone : Word32 := 0x2#32
def irqErr : Word32 := 0x4#32
def irqWarn : Word32 := 0x8#32
/-- The named bits of IRQ_EN and IRQ_PEND (R35). -/
def irqMask : Word32 := 0xF#32

/-- Set pending bits; a bit already 1 stays 1 (R381). -/
def setPend (bits : Word32) (s : State) : State := { s with irqPend := s.irqPend ||| bits }

/-- Set one warning bit; IRQ_PEND.WARN is set exactly when the bit goes from 0 to 1 (R382). -/
def setWarn (bit : Word32) (s : State) : State :=
  { s with
    warn := s.warn ||| bit
    irqPend := if s.warn &&& bit = 0#32 then s.irqPend ||| irqWarn else s.irqPend }

/-- Set a warning bit where its event happened. -/
def setWarnIf (c : Bool) (bit : Word32) (s : State) : State := if c then setWarn bit s else s

/-- The interrupt output (R380). -/
def irqLine (s : State) : Bool := s.irqPend &&& s.irqEn &&& irqMask != 0#32

end Sys2Proof.Machine
end

