-- ==== Sys2Proof/Decode.lean ====
section
/-! DEFINITION. Decoding of command words, and the encoder (spec 30_encoding.md R120 to R128). Decoding depends on the
word alone (R124). -/

namespace Sys2Proof

/-- Why a word is illegal (R126). -/
inductive DecodeError where
  /-- OPCODE names no command. -/
  | unassignedOpcode
  /-- A reserved bit of the command's format is 1. -/
  | reservedBit
deriving DecidableEq, Repr

/-- OPCODE, bits 7..0 (R121, R122). -/
def opcodeField (w : Word32) : BitVec 8 := w.extractLsb' 0 8

/-- Format C: bits 31..8 must be 0 (R121). -/
def decodeC (w : Word32) (i : Instr) : Except DecodeError Instr :=
  if w.extractLsb' 8 24 = 0#24 then .ok i else .error .reservedBit

/-- Format CE: bit 8 is EN, bits 31..9 must be 0 (R122, R123). -/
def decodeCE (w : Word32) (i : Bool → Instr) : Except DecodeError Instr :=
  if w.extractLsb' 9 23 = 0#23 then .ok (i (w.getLsbD 8)) else .error .reservedBit

/-- The decoder (R124) over the opcode map (R125). -/
def decode (w : Word32) : Except DecodeError Instr :=
  match (opcodeField w).toNat with
  | 0x00 => decodeC w .nop
  | 0x01 => decodeC w .init
  | 0x02 => decodeC w .start
  | 0x03 => decodeC w .stop
  | 0x04 => decodeC w .tick
  | 0x05 => decodeC w .reset
  | 0x10 => decodeC w .setCenterFreq
  | 0x11 => decodeC w .setGain
  | 0x12 => decodeC w .setSampleRate
  | 0x13 => decodeCE w .setNoiseEnable
  | 0x14 => decodeC w .setNoiseSigma
  | _ => .error .unassignedOpcode

/-- A command's opcode (R125). -/
def Instr.opcode : Instr → BitVec 8
  | .nop => 0x00#8
  | .init => 0x01#8
  | .start => 0x02#8
  | .stop => 0x03#8
  | .tick => 0x04#8
  | .reset => 0x05#8
  | .setCenterFreq => 0x10#8
  | .setGain => 0x11#8
  | .setSampleRate => 0x12#8
  | .setNoiseEnable _ => 0x13#8
  | .setNoiseSigma => 0x14#8

/-- Bits 31..8 of a command's word: EN at bit 8 in format CE, 0 elsewhere (R121, R122). -/
def Instr.high : Instr → BitVec 24
  | .nop | .init | .start | .stop | .tick | .reset => 0#24
  | .setCenterFreq | .setGain | .setSampleRate | .setNoiseSigma => 0#24
  | .setNoiseEnable en => 0#23 ++ BitVec.ofBool en

/-- The command word (R121, R122, R125). -/
def encode (i : Instr) : Word32 := i.high ++ i.opcode

/-- The word in a host write to CMD whose low `nbits` bits are those of `w` and whose other bits are 0. -/
def commandWord (nbits w : Nat) : Word32 := BitVec.ofNat 32 (w % 2 ^ nbits)

/-- The instruction the decoder reads from a table row's word. -/
def decodeTableWord (nbits w : Nat) : Option Instr :=
  match decode (commandWord nbits w) with
  | .ok i => some i
  | .error _ => none

end Sys2Proof
end

