-- ==== Sys2Proof/Machine/Operands.lean ====
section
/-! DEFINITION. The operands of commands (R123) and the checks made on them (R160 to R164). -/

namespace Sys2Proof.Machine

/-- `ARG_F64`: the binary64 value whose bit pattern is `{ARG0_HI, ARG0_LO}` (R123). -/
def argF64 (s : State) : F64 := ⟨s.arg0⟩

/-- `lo <= x and x <= hi`; false on a NaN (R160, R161). -/
def inBounds (lo x hi : F64) : Bool := lo.le x && x.le hi

/-- `MIN_RATE <= r and r <= MAX_RATE`, the bounds being integers (R162). -/
def rateInBounds (p : Params) (r : F64) : Bool := inBounds (F64.ofNat p.minRate) r (F64.ofNat maxRate)

/-- Not `σ is NaN or infinite or σ < 0` (R164). -/
def sigmaValid (x : F64) : Bool := x.isFinite && !(x.lt F64.zero)

/-- The powers `b⁰ … bⁿ⁻¹`. -/
def powers (b n : Nat) : List Nat := (List.range n).map (b ^ ·)

/-- The 140 divisors of MAX_RATE = 2⁶·3·5⁴·19 (R162, 95_test_vectors.md). -/
def rateDivisors : List Nat :=
  (powers 2 7).flatMap fun a => (powers 3 2).flatMap fun b => (powers 5 5).flatMap fun c =>
    (powers 19 2).map fun d => a * b * c * d

/-- `RATES`: the divisors of MAX_RATE that are at least MIN_RATE (R162). -/
def validRates (p : Params) : List Nat := rateDivisors.filter fun d => decide (p.minRate ≤ d)

/-- `|d − r|` exactly, in units of 2⁻¹⁰⁷⁴, for a finite `r ≥ 0` (R162). -/
def rateDistance (r : F64) (d : Nat) : Nat :=
  (d * F64.unitsOne - r.units) + (r.units - d * F64.unitsOne)

/-- Whether rate `a` is chosen before rate `b`: nearer, or equally near and larger (R162). -/
def rateBetter (r : F64) (a b : Nat) : Bool :=
  decide (rateDistance r a < rateDistance r b) || (rateDistance r a == rateDistance r b && decide (b < a))

/-- `d*`: the member of RATES nearest to `r`, the larger of two equally near (R162). MAX_RATE is a member. -/
def nearestRate (p : Params) (r : F64) : Nat :=
  (validRates p).foldl (fun best d => if rateBetter r d best then d else best) maxRate

end Sys2Proof.Machine
end

