-- ==== Sys2Proof/Machine/Ops.lean ====
section
/-! DEFINITION. The shared operations: completing a command and raising an error (R150, R373: the block's "exception"),
its return (R376), the draws of the external agents (R101), the slots, and the shared resources that commands replace
and a tick reads (R96). -/

namespace Sys2Proof.Machine

/-! ## Completing a command (R150) -/

/-- The 8-bit result code (R370). -/
def ResultCode.byte : ResultCode → BitVec 8
  | .ok => 0x00#8
  | .configError => 0x01#8
  | .outOfRange => 0x02#8
  | .invalidValue => 0x03#8
  | .ioError => 0x04#8
  | .warnNoop => 0x05#8
  | .illegalCommand => 0x06#8

/-- The error codes of a command (R371, R150). -/
def ResultCode.isError : ResultCode → Bool
  | .configError | .outOfRange | .invalidValue | .illegalCommand => true
  | .ok | .ioError | .warnNoop => false

/-- `CMD_STATUS <- {0, OPCODE, CODE}`; IRQ_PEND.CMD_DONE; IRQ_PEND.ERR on an error code (R150, R33). -/
def complete (opcode : BitVec 8) (code : ResultCode) (s : State) : State :=
  { s with
    cmdStatus := 0#16 ++ opcode ++ code.byte
    irqPend := s.irqPend ||| (if code.isError then irqCmdDone ||| irqErr else irqCmdDone) }

/-- `raise E` (R373): taking the block's exception. The command ends with code E; nothing else changes. -/
def raise (i : Instr) (code : ResultCode) (s : State) : State := complete i.opcode code s

/-- A lifecycle no-op: WARN.LIFECYCLE, then completion with WARN_NOOP (R154 to R156). -/
def lifecycleNoop (i : Instr) (s : State) : State := complete i.opcode .warnNoop (setWarn warnLifecycle s)

/-- Executing an illegal word ends with ILLEGAL_COMMAND and changes nothing else (R126, R150). -/
def illegalCommand (w : Word32) (s : State) : State := complete (opcodeField w) .illegalCommand s

/-- The host's return from an error or interrupt: writing 1s to IRQ_PEND clears those bits (R376, R381, R86). -/
def clearPend (v : Word32) (s : State) : State := { s with irqPend := s.irqPend &&& ~~~(v &&& irqMask) }

/-- Writing 1s to WARN clears those bits (R34, R86). -/
def clearWarn (v : Word32) (s : State) : State := { s with warn := s.warn &&& ~~~(v &&& warnMask) }

/-! ## Draws (R101, log 3) -/

/-- `audio_open(s)` (R399). -/
def audioOpen (slot : Nat) (f : Feed) : Bool × Feed :=
  match f.openIn with
  | [] => (Config.audioOpens slot f.opens, { f with opens := f.opens + 1 })
  | b :: bs => (b, { f with openIn := bs, opens := f.opens + 1 })

/-- `n` audio pairs: the listed ones, then free ones (log 3). -/
def audioBlock (slot k n : Nat) (xs : List AudioPair) : List AudioPair :=
  (List.range n).map fun i => xs.getD i (Config.audioSample slot k i)

/-- `audio_pull(s, n)` (R398): `none` stands for FAIL. -/
def audioPull (slot n : Nat) (f : Feed) : Option (List AudioPair) × Feed :=
  match f.audioIn with
  | [] =>
      (if Config.audioFails slot f.pulls then none else some (audioBlock slot f.pulls n []),
       { f with pulls := f.pulls + 1 })
  | .fail :: as => (none, { f with audioIn := as, pulls := f.pulls + 1 })
  | .samples xs :: as => (some (audioBlock slot f.pulls n xs), { f with audioIn := as, pulls := f.pulls + 1 })

/-- `clock_read()` made for slot s (R400). -/
def clockRead (slot : Nat) (f : Feed) : ClockReading × Feed :=
  match f.clockIn with
  | [] => (Config.clock slot f.clocks, { f with clocks := f.clocks + 1 })
  | t :: ts => (t, { f with clockIn := ts, clocks := f.clocks + 1 })

/-- `draw(binary64, finite)` (R164). -/
def drawNoise (e : Env) : F64 × Env :=
  match e.noiseIn with
  | [] => ((Config.noise e.noiseDraws).toF64, { e with noiseDraws := e.noiseDraws + 1 })
  | x :: xs => (x.toF64, { e with noiseIn := xs, noiseDraws := e.noiseDraws + 1 })

/-- A free choice (R96, R98). -/
def drawPick (e : Env) : Nat × Env :=
  match e.picks with
  | [] => (Config.pick e.pickDraws, { e with pickDraws := e.pickDraws + 1 })
  | k :: ks => (k, { e with picks := ks, pickDraws := e.pickDraws + 1 })

/-- A tick's read of a shared resource: its value, or, freely, one that a command replaced during the tick (R96). -/
def readShared {α : Type} (now : α) (olds : List α) (e : Env) : α × Env :=
  match olds with
  | [] => (now, e)
  | _ :: _ =>
      let d := drawPick e
      ((now :: olds).getD (d.1 % (olds.length + 1)) now, d.2)

/-! ## Slots -/

/-- `s.ACTIVE` (R48). -/
def Station.active (st : Station) : Bool := st.status == .active

/-- The slot numbers of active stations, ascending. -/
def activeSlots (s : State) : List Nat :=
  (List.range s.slots.length).filter fun i => (s.slots[i]?).elim false fun sl => sl.st.active

/-- `L_UP = 10·BLOCK` (R46). -/
def lUp (s : State) : Nat := phases * s.block

/-! ## Replacing a shared resource (R96) -/

/-- Whether a tick is in progress. -/
def tickBusy (s : State) : Bool := s.tick != .idle

/-- Remember what a command is about to replace, while a tick is in progress (R96, log 10). -/
def noteOld (f : Replaced → Replaced) (s : State) : State := if tickBusy s then { s with old := f s.old } else s

/-- Replace NOISE_EN (R96 (d)). -/
def replaceNoiseEn (en : Bool) (s : State) : State :=
  { noteOld (fun o => { o with noiseEn := s.noiseEn :: o.noiseEn }) s with noiseEn := en }

/-- Replace GAIN_DB (R96 (e)). -/
def replaceGain (g : F64) (s : State) : State :=
  { noteOld (fun o => { o with gainDb := s.gainDb :: o.gainDb }) s with gainDb := g }

/-- Replace SAMPLE_RATE, DECIM and RATE_COEF (R162, R96 (a), (b)). -/
def replaceRate (d : Nat) (s : State) : State :=
  { noteOld (fun o => { o with rateCoef := s.rateCoef :: o.rateCoef, decim := s.decim :: o.decim }) s with
    sampleRate := d
    decim := maxRate / d
    rateCoef := rateCoeffs s.par (maxRate / d) }

/-- Replace the noise table (R96 (c)). -/
def replaceNoiseTab (tab : List Cplx) (s : State) : State :=
  { noteOld (fun o => { o with noiseTab := s.noiseTab :: o.noiseTab }) s with noiseTab := tab }

end Sys2Proof.Machine
end

