-- ==== Sys2Proof/Machine/Bus.lean ====
section
/-! DEFINITION. The host bus: the address map, reads and writes of registers and of the output window (spec
20_memory.md R80 to R89; 10_state.md R60 to R62). -/

namespace Sys2Proof.Machine

/-! ## Address map (R80, R83, R84) -/

/-- What an access reaches. -/
inductive BusTarget where
  /-- Misaligned, not 32 bits wide, or unmapped (R83, R84). -/
  | slvErr
  /-- A global register at this offset (R60). -/
  | global (off : Nat)
  /-- Offset `off` of slot `slot`'s station window (R61). -/
  | station (slot off : Nat)
  /-- Offset `off` of the output buffer window (R88). -/
  | window (off : Nat)
deriving DecidableEq, Repr

/-- The address map for `nSt` slots (R80). -/
def busTarget (nSt : Nat) (off width : Nat) : BusTarget :=
  if width ≠ 32 ∨ off % 4 ≠ 0 then .slvErr
  else if off < 0x100 then .global off
  else if off < 0x100 + 0x100 * nSt then .station ((off - 0x100) / 0x100) ((off - 0x100) % 0x100)
  else if 0x01000000 ≤ off ∧ off < 0x02000000 then .window (off - 0x01000000)
  else .slvErr

/-- The offset that a host address reaches: relative to BASE_ADDR (R80). -/
def busOffset (p : Params) (address : Word32) : Word32 := address - p.baseAddr

/-! ## Values read (R85) -/

/-- The halves of a 64-bit register (R82). -/
def lo32 (x : BitVec 64) : Word32 := x.extractLsb' 0 32
def hi32 (x : BitVec 64) : Word32 := x.extractLsb' 32 32

/-- The codes of LIFE and of `s.STATE` (R32, R48). -/
def Life.code : Life → Word32
  | .uninit => 0#32
  | .idle => 1#32
  | .running => 2#32
def SlotStatus.code : SlotStatus → Word32
  | .empty => 0#32
  | .active => 1#32
  | .skipped => 2#32

/-- ACTIVE_MASK: bit s is `s.ACTIVE` (R48, R60). -/
def activeMask (s : State) : Word32 :=
  (activeSlots s).foldl (fun m i => m ||| BitVec.ofNat 32 (2 ^ i)) 0#32

/-- The global registers (R60). -/
def readGlobal (s : State) (off : Nat) : Word32 :=
  match off with
  | 0x000 => idValue
  | 0x004 => 0#8 ++ BitVec.ofNat 8 tapsPerPhase ++ BitVec.ofNat 8 phases ++ BitVec.ofNat 8 s.slots.length
  | 0x008 => 0#32
  | 0x00C => s.cmdStatus &&& 0xFFFF#32
  | 0x010 => lo32 s.arg0
  | 0x014 => hi32 s.arg0
  | 0x018 => s.life.code
  | 0x01C => s.warn &&& warnMask
  | 0x020 => s.irqEn &&& irqMask
  | 0x024 => s.irqPend &&& irqMask
  | 0x028 => s.tickCount
  | 0x02C => BitVec.ofNat 32 s.outLen
  | 0x030 => lo32 s.centerFreq.bits
  | 0x034 => hi32 s.centerFreq.bits
  | 0x038 => lo32 s.gainDb.bits
  | 0x03C => hi32 s.gainDb.bits
  | 0x040 => BitVec.ofNat 32 s.sampleRate
  | 0x044 => BitVec.ofNat 32 s.decim
  | 0x048 => BitVec.setWidth 32 (BitVec.ofBool s.noiseEn)
  | 0x050 => lo32 s.noiseSigma.bits
  | 0x054 => hi32 s.noiseSigma.bits
  | 0x058 => BitVec.ofNat 32 s.block
  | 0x05C => activeMask s
  | _ => 0#32

/-- The four bytes of a text field from byte `i` on, the first in bits 7..0 (R82). -/
def textWord {n : Nat} (t : Vector Byte n) (i : Nat) : Word32 :=
  t.getD (i + 3) 0 ++ t.getD (i + 2) 0 ++ t.getD (i + 1) 0 ++ t.getD i 0

/-- ST_RDS0, ST_RDS1, ST_RDS2, ST_MPX of an active station (R61). -/
def rds0Word (r : Rds) : Word32 :=
  BitVec.ofBool r.diffPrev ++ 0#5 ++ BitVec.ofNat 2 r.phase4 ++ 0#4 ++ BitVec.ofNat 4 r.rtIdx ++ 0#6 ++
    BitVec.ofNat 2 r.psIdx ++ 0#5 ++ BitVec.ofNat 3 r.grpCur
def rds1Word (r : Rds) : Word32 := 0#8 ++ BitVec.ofNat 16 r.sampleCnt ++ 0#1 ++ BitVec.ofNat 7 r.bitPos
def rds2Word (r : Rds) : Word32 := 0#24 ++ (r.lastMin.elim 0xFF#8 fun m => BitVec.ofNat 8 m)
def mpxWord (st : Station) : Word32 := 0#23 ++ BitVec.ofBool st.oobLast ++ 0#4 ++ BitVec.ofNat 4 st.q12

/-- The live registers of an active station (R61). -/
def readLive (st : Station) (off : Nat) : Word32 :=
  if 0xB0 ≤ off ∧ off < 0xB8 then textWord st.psN (off - 0xB0)
  else if 0xC0 ≤ off ∧ off < 0x100 then textWord st.rtN (off - 0xC0)
  else match off with
  | 0x70 => textWord st.csN 0
  | 0x74 => 0#16 ++ st.pi
  | 0x78 => lo32 st.tuning.tuned.bits
  | 0x7C => hi32 st.tuning.tuned.bits
  | 0x80 => lo32 st.tuning.normFc.bits
  | 0x84 => hi32 st.tuning.normFc.bits
  | 0x88 => lo32 st.fmPhase.bits
  | 0x8C => hi32 st.fmPhase.bits
  | 0x90 => lo32 st.tunerPhase.bits
  | 0x94 => hi32 st.tunerPhase.bits
  | 0x98 => rds0Word st.rds
  | 0x9C => rds1Word st.rds
  | 0xA0 => rds2Word st.rds
  | 0xA4 => mpxWord st
  | _ => 0#32

/-- The station window (R61): staging and ST_STATUS always, the live registers while ACTIVE and 0 otherwise. -/
def readStation (st : Station) (off : Nat) : Word32 :=
  if off = 0x00 then st.desc &&& 0x3F#32
  else if off = 0x04 then 0#16 ++ st.code.byte ++ 0#6 ++ st.status.code.extractLsb' 0 2
  else if off = 0x08 then lo32 st.dfreq.bits
  else if off = 0x0C then hi32 st.dfreq.bits
  else if off = 0x10 then 0#8 ++ st.rtLen ++ st.psLen ++ st.csLen
  else if 0x18 ≤ off ∧ off < 0x20 then textWord st.csBuf (off - 0x18)
  else if 0x20 ≤ off ∧ off < 0x30 then textWord st.psBuf (off - 0x20)
  else if 0x30 ≤ off ∧ off < 0x70 then textWord st.rtBuf (off - 0x30)
  else if st.active then readLive st off
  else 0#32

/-- The output window (R88, R89): sample m at 8·m, real part first; 0 from OUT_LEN on. -/
def readWindow (s : State) (off : Nat) : Word32 :=
  if off / 8 < s.outLen then
    (s.outBuf[off / 8]?).elim 0#32 fun z => if off % 8 = 0 then z.1 else z.2
  else 0#32

/-- `MemRead` (R85): `none` stands for SLVERR (R84). -/
def busRead (s : State) (off : Word32) (width : Nat) : Option Word32 :=
  match busTarget s.slots.length off.toNat width with
  | .slvErr => none
  | .global o => some (readGlobal s o)
  | .station i o => some ((s.slots[i]?).elim 0#32 fun sl => readStation sl.st o)
  | .window o => some (readWindow s o)

/-! ## Writes (R86) -/

/-- Store word `v` into bytes `i` to `i+3` of a text field, bits 7..0 first (R82). -/
def setTextWord {n : Nat} (t : Vector Byte n) (i : Nat) (v : Word32) : Vector Byte n :=
  (((t.setIfInBounds i (v.extractLsb' 0 8)).setIfInBounds (i + 1) (v.extractLsb' 8 8)).setIfInBounds (i + 2)
    (v.extractLsb' 16 8)).setIfInBounds (i + 3) (v.extractLsb' 24 8)

/-- A 64-bit register with one half replaced (R82). -/
def withLo (x : BitVec 64) (v : Word32) : BitVec 64 := hi32 x ++ v
def withHi (x : BitVec 64) (v : Word32) : BitVec 64 := v ++ lo32 x

/-- A write to a global register other than CMD (R60, R86): RO registers ignore it. -/
def writeGlobal (off : Nat) (v : Word32) (s : State) : State :=
  match off with
  | 0x010 => { s with arg0 := withLo s.arg0 v }
  | 0x014 => { s with arg0 := withHi s.arg0 v }
  | 0x01C => clearWarn v s
  | 0x020 => { s with irqEn := v &&& irqMask }
  | 0x024 => clearPend v s
  | _ => s

/-- A write to a staging register (R47, R61); other offsets of the window ignore it. -/
def writeStaging (off : Nat) (v : Word32) (st : Station) : Station :=
  if off = 0x00 then { st with desc := v &&& 0x3F#32 }
  else if off = 0x08 then { st with dfreq := ⟨withLo st.dfreq.bits v⟩ }
  else if off = 0x0C then { st with dfreq := ⟨withHi st.dfreq.bits v⟩ }
  else if off = 0x10 then
    { st with csLen := v.extractLsb' 0 8, psLen := v.extractLsb' 8 8, rtLen := v.extractLsb' 16 8 }
  else if 0x18 ≤ off ∧ off < 0x20 then { st with csBuf := setTextWord st.csBuf (off - 0x18) v }
  else if 0x20 ≤ off ∧ off < 0x30 then { st with psBuf := setTextWord st.psBuf (off - 0x20) v }
  else if 0x30 ≤ off ∧ off < 0x70 then { st with rtBuf := setTextWord st.rtBuf (off - 0x30) v }
  else st

/-- A write to a station window: staging registers store only while LIFE = UNINIT (R47, R86). -/
def writeStation (i off : Nat) (v : Word32) (s : State) : State :=
  if s.life = .uninit then
    match s.slots[i]? with
    | none => s
    | some sl => { s with slots := s.slots.set i { sl with st := writeStaging off v sl.st } }
  else s

/-- What a bus access does: an answer alone, a write that is stored, or a command word for CMD (R86). -/
inductive BusEffect where
  | answer (r : BusResp)
  | store (s : State)
  | command (w : Word32)
deriving DecidableEq, Repr

/-- An access, decoded (R83 to R86). -/
def busEffect (op : BusOp) (s : State) : BusEffect :=
  match op with
  | .read off width =>
      match busRead s off width with
      | none => .answer ⟨0#32, true⟩
      | some v => .answer ⟨v, false⟩
  | .write off width v =>
      match busTarget s.slots.length off.toNat width with
      | .slvErr => .answer ⟨0#32, true⟩
      | .global o => if o = 0x008 then .command v else .store (writeGlobal o v s)
      | .station i o => .store (writeStation i o v s)
      | .window _ => .answer ⟨0#32, false⟩

/-- The bus answers an access (R84, R85). -/
def respond (r : BusResp) (s : State) : State := { s with env := { s.env with busResp := some r } }

/-- The answer to a write that the bus accepted (R86). -/
def writeAccepted : BusResp := ⟨0#32, false⟩

/-- Take the next event off the schedule. -/
def takeEvent (rest : List Event) (s : State) : State := { s with env := { s.env with inbox := rest } }

end Sys2Proof.Machine
end

