-- ==== Sys2Proof/Machine/Rds.lean ====
section
/-! DEFINITION. The RDS encoder of one station (spec 41_rds.md). -/

namespace Sys2Proof.Machine

/-! ## The clock reading (R400) -/

/-- A Gregorian leap year. -/
def isLeap (y : Nat) : Bool := (y % 4 == 0 && y % 100 != 0) || y % 400 == 0

/-- The days of month `m` (1 to 12) of year `y`. -/
def daysInMonth (y m : Nat) : Nat :=
  if m = 2 then (if isLeap y then 29 else 28) else if m = 4 || m = 6 || m = 9 || m = 11 then 30 else 31

def clockYear (t : ClockReading) : Nat := 1900 + t.yearsFrom1900
def clockMonth (t : ClockReading) : Nat := t.month0.val + 1

/-- The day, limited to its month: every valid calendar date, and only those (R400, log 19). -/
def clockDay (t : ClockReading) : Nat := min (t.day0.val + 1) (daysInMonth (clockYear t) (clockMonth t))

/-- The local offset, signed half-hours. -/
def clockOffset (t : ClockReading) : Int := if t.offsetNeg then -(t.offsetMag.val : Int) else (t.offsetMag.val : Int)

/-- `MJD(Y, Mo, D)` (R206), its floors in exact arithmetic: 365.25 = 1461/4, 30.6001 = 306001/10000. -/
def mjd (y mo d : Nat) : Int :=
  let l : Int := if mo ≤ 2 then 1 else 0
  14956 + (d : Int) + Int.fdiv (((y : Int) - 1900 - l) * 1461) 4
    + Int.fdiv (((mo : Int) + 1 + 12 * l) * 306001) 10000

/-! ## Groups (R200 to R205) -/

/-- The four data words `blk[0..3]` of a group. -/
structure Group where
  a : BitVec 16
  b : BitVec 16
  c : BitVec 16
  d : BitVec 16
deriving DecidableEq, Repr, Inhabited

/-- Byte `i` of a text field. -/
def textByte {n : Nat} (t : Vector Byte n) (i : Nat) : Byte := t.getD i 0

/-- GROUP_0A(s, g) (R201, R202). -/
def group0A (st : Station) (g : Nat) : Group :=
  { a := st.pi
    b := 0b0000#4 ++ 0#1 ++ flagTP ++ flagPTY ++ flagTA ++ flagMS ++ flagDI.extractLsb' (3 - g) 1 ++ BitVec.ofNat 2 g
    c := afWord
    d := textByte st.psN (2 * g) ++ textByte st.psN (2 * g + 1) }

/-- GROUP_2A(s, g) (R201, R204). -/
def group2A (st : Station) (g : Nat) : Group :=
  { a := st.pi
    b := 0b0010#4 ++ 0#1 ++ flagTP ++ flagPTY ++ flagAB ++ BitVec.ofNat 4 g
    c := textByte st.rtN (4 * g) ++ textByte st.rtN (4 * g + 1)
    d := textByte st.rtN (4 * g + 2) ++ textByte st.rtN (4 * g + 3) }

/-- GROUP_4A(s, t) (R201, R205). -/
def group4A (st : Station) (t : ClockReading) : Group :=
  let day : BitVec 17 := BitVec.ofInt 17 (mjd (clockYear t) (clockMonth t) (clockDay t))
  let hour : BitVec 5 := BitVec.ofNat 5 t.hour.val
  { a := st.pi
    b := 0b0100#4 ++ 0#1 ++ flagTP ++ flagPTY ++ 0b000#3 ++ day.extractLsb' 15 2
    c := day.extractLsb' 0 15 ++ hour.extractLsb' 4 1
    d := hour.extractLsb' 0 4 ++ BitVec.ofNat 6 t.minute.val ++ BitVec.ofBool (decide (clockOffset t < 0)) ++
      BitVec.ofNat 5 (clockOffset t).natAbs }

/-- GENERATE_GROUP(s) (R200): the group, and the group-type state after it. -/
def generateGroup (slot : Nat) (st : Station) (f : Feed) : Group × Rds × Feed :=
  let r := st.rds
  let t := (clockRead slot f).1
  let f' := (clockRead slot f).2
  if r.lastMin ≠ some t.minute.val then
    (group4A st t, { r with lastMin := some t.minute.val }, f')
  else if r.grpCur < 4 then
    (group0A st r.psIdx, { r with psIdx := (r.psIdx + 1) % 4, grpCur := r.grpCur + 1 }, f')
  else
    (group2A st r.rtIdx, { r with rtIdx := (r.rtIdx + 1) % 16, grpCur := 0 }, f')

/-! ## Check words and serialisation (R207 to R210) -/

/-- One turn of R207's bit-serial form. -/
def crcStep (c : BitVec 10) (m : Bool) : BitVec 10 :=
  if m ^^ c.getLsbD 9 then (c <<< 1) ^^^ 0x1B9#10 else c <<< 1

/-- `crc(m)` (R207): bits 15 down to 0. -/
def crc (m : BitVec 16) : BitVec 10 :=
  (List.range 16).foldl (fun c k => crcStep c (m.getMsbD k)) 0#10

/-- The 104 bits of a group, first transmitted bit most significant (R208, R209). -/
def serialise (g : Group) : BitVec 104 :=
  (g.a ++ (crc g.a ^^^ offsetA)) ++ (g.b ++ (crc g.b ^^^ offsetB)) ++
    (g.c ++ (crc g.c ^^^ offsetC)) ++ (g.d ++ (crc g.d ^^^ offsetD))

/-- LOAD_GROUP(s) (R210). -/
def loadGroup (slot : Nat) (st : Station) (f : Feed) : Rds × Feed :=
  let g := generateGroup slot st f
  ({ g.2.1 with bitBuf := serialise g.1, bitPos := 0 }, g.2.2)

/-! ## Sample generation (R215 to R219) -/

/-- Add `+KERNEL` (d = 0) or `−KERNEL` (d = 1) into the ring from position `i` on (R217). -/
def addKernel (ringLen : Nat) (d : Bool) : List F64 → Nat → List F64 → List F64
  | [], _, ring => ring
  | k :: ks, i, ring =>
      addKernel ringLen d ks (i + 1)
        (ring.set (i % ringLen) ((ring.getD (i % ringLen) F64.zero).add (if d then k.neg else k)))

/-- The part of RDS_SAMPLE that encodes the next bit (R215, R216, R217). -/
def encodeBit (p : Params) (r : Rds) : Rds :=
  let d := r.diffPrev ^^ r.bitBuf.getMsbD r.bitPos
  { r with
    diffPrev := d
    ring := addKernel p.ringLen d p.kernel r.wrIdx r.ring
    wrIdx := (r.wrIdx + spb) % p.ringLen
    bitPos := r.bitPos + 1
    sampleCnt := 0 }

/-- The start of a sample: a new bit period, with a new group where the buffer is consumed (R215). -/
def startSample (p : Params) (slot : Nat) (st : Station) (f : Feed) : Rds × Feed :=
  if spb ≤ st.rds.sampleCnt then
    if groupBits ≤ st.rds.bitPos then
      (encodeBit p (loadGroup slot st f).1, (loadGroup slot st f).2)
    else (encodeBit p st.rds, f)
  else (st.rds, f)

/-- The 57 kHz carrier cycle {0, +env, 0, −env} (R219). -/
def carrier (phase : Nat) (env : F64) : F64 :=
  if phase = 1 then env else if phase = 3 then env.neg else F64.zero

/-- The envelope read and the carrier (R215, R218, R219): the sample, and the state after it. -/
def readEnvelope (p : Params) (r : Rds) : F64 × Rds :=
  (carrier r.phase4 (r.ring.getD r.rdIdx F64.zero),
   { r with
     ring := r.ring.set r.rdIdx F64.zero
     rdIdx := (r.rdIdx + 1) % p.ringLen
     phase4 := (r.phase4 + 1) % 4
     sampleCnt := r.sampleCnt + 1 })

/-- RDS_SAMPLE(s) (R215): the sample, the RdsSignalState and the agents after it. -/
def rdsSample (p : Params) (slot : Nat) (st : Station) (f : Feed) : F64 × Rds × Feed :=
  let rf := startSample p slot st f
  let o := readEnvelope p rf.1
  (o.1, o.2, rf.2)

end Sys2Proof.Machine
end

