-- ==== Sys2Proof/Machine/Mpx.lean ====
section
/-! DEFINITION. The MPX mixer and the FM modulator of one station (spec 42_mpx_fm.md). -/

namespace Sys2Proof.Machine

/-- The binary64 nearest √3/2 (R251). -/
def sqrt3half : F64 := ⟨0x3FEBB67AE8584CAA#64⟩

/-- `0.5`. -/
def f64half : F64 := ⟨0x3FE0000000000000#64⟩

/-- `SIN12[0..11]` (R251). -/
def sin12 : List F64 :=
  [F64.zero, f64half, sqrt3half, F64.one, sqrt3half, f64half,
   F64.zero, f64half.neg, sqrt3half.neg, F64.one.neg, sqrt3half.neg, f64half.neg]

/-- The value MPX_SAMPLE returns (R251), every operation binary64 in the order written. -/
def mpxValue (p : Params) (q : Nat) (aL aR rds : F64) : F64 :=
  let pilot := sin12.getD q F64.zero
  let sub38 := sin12.getD (2 * q % 12) F64.zero
  let sum := aL.add aR
  let diff := aL.sub aR
  (((p.gMono.mul sum).add (p.gStereo.mul (diff.mul sub38))).add (p.gPilot.mul pilot)).add (p.gRds.mul rds)

/-- The MPX buffer of a tick (R254): per sample RDS_SAMPLE, then MPX_SAMPLE, then the division by 10 (R252). -/
def mpxRun (p : Params) (slot : Nat) : List AudioPair → Slot → List F64 × Slot
  | [], sl => ([], sl)
  | a :: as, sl =>
      let r := rdsSample p slot sl.st sl.feed
      let x := (mpxValue p sl.st.q12 a.left.toF64 a.right.toF64 r.1).div F64.ten
      let rest := mpxRun p slot as
        { st := { sl.st with rds := r.2.1, q12 := (sl.st.q12 + 1) % 12 }, feed := r.2.2 }
      (x :: rest.1, rest.2)

/-- The phase after FM_SAMPLE (R262). -/
def fmPhaseStep (p : Params) (phase x : F64) : F64 := wrap (phase.add (p.sens.mul x))

/-- The FM buffer of a tick, in increasing n (R262, R264), and the phase after it. -/
def fmRun (p : Params) : F64 → List F64 → List Cplx × F64
  | phase, [] => ([], phase)
  | phase, x :: xs =>
      let phase' := fmPhaseStep p phase x
      let rest := fmRun p phase' xs
      (sincosOf p phase' :: rest.1, rest.2)

end Sys2Proof.Machine
end

