-- ==== Sys2Proof/Machine/Bank.lean ====
section
/-! DEFINITION. The 10-phase polyphase bank, the tuner, and the per-tick run of one station (spec
43_polyphase_tuner.md). -/

namespace Sys2Proof.Machine

/-! ## Polyphase bank (R280 to R282) -/

/-- `Σ_k c[k]·h_k`, a real times a complex value each, from `+0.0` upward in k (R8, R281, R335). -/
def firSum (c : List F64) (h : List Cplx) : Cplx :=
  (c.zip h).foldl (fun acc ch => acc.add (Cplx.scale ch.1 ch.2)) Cplx.zero

/-- `COEF[p][0..2]`, `COEF[p][k] = PROTO[10·k + p]` (R54, R280). -/
def branchCoef (par : Params) (b : Fin 10) : List F64 :=
  [par.proto[b.val], par.proto[10 + b.val], par.proto[20 + b.val]]

/-- The output of FIR_STEP(s, p, x) (R281). -/
def firStepOut (par : Params) (b : Fin 10) (h : Cplx × Cplx) (x : Cplx) : Cplx :=
  firSum (branchCoef par b) [x, h.1, h.2]

/-- The history after FIR_STEP(s, p, x) (R281). -/
def firStepHist (h : Cplx × Cplx) (x : Cplx) : Cplx × Cplx := (x, h.1)

/-- BANK(s, fm) (R282): the ten branch outputs of each sample, interleaved by phase, and the histories after it. -/
def bank (par : Params) : Vector (Cplx × Cplx) 10 → List Cplx → List Cplx × Vector (Cplx × Cplx) 10
  | hist, [] => ([], hist)
  | hist, x :: xs =>
      let rest := bank par (hist.map fun h => firStepHist h x) xs
      ((List.finRange 10).map (fun b => firStepOut par b hist[b] x) ++ rest.1, rest.2)

/-! ## Tuner (R296 to R299) -/

/-- The tuning tuple TUNE_SET(s, f) writes (R296). -/
def tuningFor (par : Params) (freq f : F64) : Tuning :=
  let nf := (f.sub freq).div (F64.ofNat maxRate)
  { tuned := f, normFc := nf,
    inc := ⟨cosOf par (F64.twoPi.mul nf), (sinOf par (F64.twoPi.mul nf)).neg⟩ }

/-- TUNE_SET(s, f) (R296). While a tick is in progress the tuple it replaces stays readable (R96 (f), log 10). -/
def tuneSet (par : Params) (busy : Bool) (f : F64) (st : Station) : Station :=
  { st with
    tuning := tuningFor par st.freq f
    tuneOld := if busy then st.tuning :: st.tuneOld else st.tuneOld }

/-- The samples of TUNER_RUN with an advancing phasor (R297). -/
def tunerMix (inc : Cplx) : Cplx → List Cplx → List Cplx
  | _, [] => []
  | ph, u :: us => u.mul ph :: tunerMix inc (ph.mul inc) us

/-- TUNER_RUN(s, up, nf, inc) (R297, R299): the tuned block, and TUNER_PHASE after it. -/
def tunerRun (par : Params) (theta : F64) (nf : F64) (inc : Cplx) (up : List Cplx) : List Cplx × F64 :=
  (tunerMix inc ⟨cosOf par theta, sinOf par theta⟩ up,
   wrap (theta.sub ((F64.twoPi.mul nf).mul (F64.ofNat up.length))))

/-! ## Station run (R303 to R306) -/

/-- `|s.FREQ − tuned| > 1140000.0` (R304). -/
def outOfBand (freq tuned : F64) : Bool := (F64.ofNat (maxRate / 2)).lt (freq.sub tuned).abs

/-- The all-zero station block (R303). -/
def silence (block : Nat) : List Cplx := List.replicate (phases * block) Cplx.zero

/-- The signal chain of an in-band station with its audio block (R303): MPX, FM, bank, tuner. -/
def stationSignal (par : Params) (slot : Nat) (tn : Tuning) (audio : List AudioPair) (sl : Slot) : Slot :=
  let m := mpxRun par slot audio sl
  let f := fmRun par m.2.st.fmPhase m.1
  let b := bank par m.2.st.hist f.1
  let t := tunerRun par m.2.st.tunerPhase tn.normFc tn.inc b.1
  { m.2 with
    st := { m.2.st with
      mpxBuf := m.1, fmBuf := f.1, fmPhase := f.2, upBuf := b.1, hist := b.2, out := t.1, tunerPhase := t.2 } }

/-- STATION_RUN(s) with its tuning snapshot (R303): the slot after it, and whether the station faulted (R305). -/
def stationRun (par : Params) (slot block : Nat) (tn : Tuning) (sl : Slot) : Slot × Bool :=
  if outOfBand sl.st.freq tn.tuned then
    ({ sl with st := { sl.st with out := silence block, oobLast := true } }, false)
  else
    let a := audioPull slot block sl.feed
    match a.1 with
    | none => ({ st := { sl.st with oobLast := false, out := silence block }, feed := a.2 }, true)
    | some xs => (stationSignal par slot tn xs { st := { sl.st with oobLast := false }, feed := a.2 }, false)

end Sys2Proof.Machine
end

