-- ==== Sys2Proof/Machine/Backend.lean ====
section
/-! DEFINITION. The shared datapath stages of a tick (spec 44_backend.md): mixer, noise, rate filter, decimator, gain,
delivery. -/

namespace Sys2Proof.Machine

/-- One slot of MIXER's loop (R325): the mix, and whether a block of the wrong length was skipped. -/
def mixInto (len : Nat) (acc : List Cplx × Bool) (sl : Slot) : List Cplx × Bool :=
  if sl.st.active then
    if sl.st.out.length ≠ len then (acc.1, true)
    else (List.zipWith Cplx.add acc.1 sl.st.out, acc.2)
  else acc

/-- MIXER() (R325): ascending slot order, from all `+0.0`. -/
def mixer (len : Nat) (slots : List Slot) : List Cplx × Bool :=
  slots.foldl (mixInto len) (List.replicate len Cplx.zero, false)

/-- NOISE_ADD(MIX, tab) (R330): the table used cyclically, from index 0 in every tick. -/
def noiseAdd (noiseLen : Nat) (tab mix : List Cplx) : List Cplx :=
  mix.zipIdx.map fun zi => zi.1.add (tab.getD (zi.2 % noiseLen) Cplx.zero)

/-- RATE_FILTER after the samples `past`, newest first (R335). -/
def rateFilterFrom (c : List F64) : List Cplx → List Cplx → List Cplx
  | _, [] => []
  | past, z :: zs => firSum c (z :: past) :: rateFilterFrom c (z :: past) zs

/-- RATE_FILTER(MIX, c) (R335): causal, truncated at index 0, no saved history. -/
def rateFilter (c : List F64) (mix : List Cplx) : List Cplx := rateFilterFrom c [] mix

/-- `M = ceil(L / N)` (R340). -/
def decimatedLen (len n : Nat) : Nat := (len + n - 1) / n

/-- DECIMATE(Y, N) (R340): every N-th sample from index 0. -/
def decimate (n : Nat) (y : List Cplx) : List Cplx :=
  (List.range (decimatedLen y.length n)).map fun m => y.getD (m * n) Cplx.zero

/-- The linear gain `EXP10(g / 10)` (R345). -/
def linearGain (par : Params) (g : F64) : F64 := exp10Of par (g.div F64.ten)

/-- GAIN_APPLY(D, g) (R345). -/
def gainApply (par : Params) (g : F64) (d : List Cplx) : List Cplx :=
  d.map fun z => Cplx.scale (linearGain par g) z

/-- A sample of the output window (R88, R348). -/
def outSample (z : Cplx) : F32 × F32 := (z.re.toF32, z.im.toF32)

/-- DELIVER(O) (R348). -/
def deliver (o : List Cplx) (s : State) : State :=
  { s with
    outBuf := o.map outSample
    outLen := o.length
    tickCount := s.tickCount + 1#32
    irqPend := s.irqPend ||| irqBlock
    env := { s.env with delivered := s.env.delivered ++ [o] } }

end Sys2Proof.Machine
end

