-- ==== Sys2Proof/Machine/Tick.lean ====
section
/-! DEFINITION. One tick (R320), stage by stage, and the tick timer (R390 to R392). A tick the timer started advances one
stage a step, so that commands may fall between its stages (R91, R96); the TICK command, STOP and RESET run it to its
delivery in one step (R155 to R157). -/

namespace Sys2Proof.Machine

/-- The start of a tick (R320, step 3): the active stations are dispatched, and nothing has been replaced yet (R97). -/
def beginTick (s : State) : State :=
  { s with
    tick := .stations (activeSlots s)
    old := Replaced.none
    slots := s.slots.map fun sl => { sl with st := { sl.st with tuneOld := [] } } }

/-- STATION_RUN of slot `i`: its tuning snapshot (R96 (f)), its run, and WARN.STATION_FAULT on a fault (R303, R305). -/
def runSlot (s : State) (i : Nat) : State :=
  match s.slots[i]? with
  | none => s
  | some sl =>
      let d := readShared sl.st.tuning sl.st.tuneOld s.env
      let r := stationRun s.par i s.block d.1 sl
      setWarnIf r.2 warnStationFault { s with slots := s.slots.set i r.1, env := d.2 }

/-- Step 4: MIXER, after the barrier (R98, R325). -/
def mixStage (s : State) : State :=
  let m := mixer (lUp s) s.slots
  setWarnIf m.2 warnLenMismatch { s with mixBuf := m.1, tick := .mixed }

/-- Step 5: the snapshots of NOISE_EN and NOISE_TAB, and NOISE_ADD where enabled (R320, R330). -/
def noiseStage (s : State) : State :=
  let en := readShared s.noiseEn s.old.noiseEn s.env
  let tab := readShared s.noiseTab s.old.noiseTab en.2
  { s with
    mixBuf := if en.1 then noiseAdd s.par.noiseLen tab.1 s.mixBuf else s.mixBuf
    tick := .noised
    env := tab.2 }

/-- Step 6: the snapshot of RATE_COEF, and RATE_FILTER (R320, R335). -/
def filterStage (s : State) : State :=
  let c := readShared s.rateCoef s.old.rateCoef s.env
  { s with tick := .filtered (rateFilter c.1 s.mixBuf), env := c.2 }

/-- Step 7: the snapshot of DECIM, and DECIMATE (R320, R340). -/
def decimateStage (y : List Cplx) (s : State) : State :=
  let n := readShared s.decim s.old.decim s.env
  { s with tick := .decimated (decimate n.1 y), env := n.2 }

/-- Step 8: the snapshot of GAIN_DB, and GAIN_APPLY (R320, R345). -/
def gainStage (d : List Cplx) (s : State) : State :=
  let g := readShared s.gainDb s.old.gainDb s.env
  { s with tick := .gained (gainApply s.par g.1 d), env := g.2 }

/-- Step 9: DELIVER; the tick is over (R320, R348). -/
def deliverStage (o : List Cplx) (s : State) : State := { deliver o s with tick := .idle }

/-- The next engine stage, once the station units have finished (R320). -/
def backStage (s : State) : State :=
  match s.tick with
  | .idle => s
  | .stations _ => mixStage s
  | .mixed => noiseStage s
  | .noised => filterStage s
  | .filtered y => decimateStage y s
  | .decimated d => gainStage d s
  | .gained o => deliverStage o s

/-- Progress of the tick in progress by one stage: a station unit, in free order (R98), or an engine stage. -/
def advance (s : State) : State :=
  match s.tick with
  | .stations (t :: ts) =>
      let d := drawPick s.env
      let i := (t :: ts).getD (d.1 % (ts.length + 1)) t
      { runSlot { s with env := d.2 } i with tick := .stations ((t :: ts).erase i) }
  | _ => backStage s

/-- The station units that have not run yet, in ascending order: within one step their order cannot be observed (R98). -/
def finishStations (s : State) : State :=
  match s.tick with
  | .stations todo => { todo.foldl runSlot s with tick := .stations [] }
  | _ => s

/-- Run the tick in progress, if any, to its delivery (R155: "wait until the tick in progress ... has delivered"). -/
def finishTick (s : State) : State :=
  backStage (backStage (backStage (backStage (backStage (backStage (finishStations s))))))

/-- TICK_BODY() in one step (R320, R156). -/
def tickBody (s : State) : State := finishTick (beginTick s)

/-- PERIOD in base-rate sample times: `1000·BLOCK/BASE_RATE` ms is BLOCK of them (R390, log 9). -/
def period (s : State) : Nat := s.block

/-- Arm the tick timer: `NEXT_DEADLINE <- now + PERIOD` (R154, R390). -/
def armTimer (s : State) : State :=
  { s with
    nextDeadline := some ⟨s.env.starts, period s⟩
    env := { s.env with starts := s.env.starts + 1 } }

/-- `NEXT_DEADLINE <- NEXT_DEADLINE + PERIOD` (R391, step 2). -/
def rearmTimer (s : State) : State :=
  { s with nextDeadline := s.nextDeadline.map fun d => { d with offset := d.offset + period s } }

/-- Cancel the tick timer and wait for the tick in progress (R155). -/
def stopTimer (s : State) : State := { finishTick s with nextDeadline := none }

/-- A firing of the timer (R391): the lag test's outcome (R392), the next deadline, and the start of the tick. It
happens only while RUNNING, and never while a tick is in progress (R94). -/
def fireTimer (lag : Bool) (s : State) : State :=
  if s.life = .running ∧ s.tick = .idle then beginTick (rearmTimer (setWarnIf lag warnLag s)) else s

end Sys2Proof.Machine
end

