-- ==== Sys2Proof/Machine/Lifecycle.lean ====
section
/-! DEFINITION. The lifecycle commands (spec 40_commands.md R151 to R157): NOP, INIT with BUILD, START, STOP, TICK,
RESET. -/

namespace Sys2Proof.Machine

/-! ## BUILD (R153) -/

/-- Bit `b` of `s.DESC` (R47). -/
def descBit (st : Station) (b : Nat) : Bool := st.desc.getLsbD b

/-- The descriptor's call sign, PS and RT, or the configured defaults (R153). -/
def rawCs (p : Params) (st : Station) : List Byte :=
  if descBit st 3 then st.csBuf.toList.take (min st.csLen.toNat 8) else p.defaultCallsign
def rawPs (p : Params) (st : Station) : List Byte :=
  if descBit st 4 then st.psBuf.toList.take (min st.psLen.toNat 16) else p.defaultPs
def rawRt (p : Params) (st : Station) : List Byte :=
  if descBit st 5 then st.rtBuf.toList.take (min st.rtLen.toNat 64) else p.defaultRt

/-- `pad(t, n, c)` (R10). -/
def pad (t : List Byte) (n : Nat) (c : Byte) : List Byte := t ++ List.replicate (n - t.length) c

/-- The first `n` bytes of a text of at least `n` bytes. -/
def textVec (n : Nat) (t : List Byte) : Vector Byte n := Vector.ofFn fun i => t.getD i.val 0

/-- The call sign cut to 4 bytes, or left-padded with 'W' (R153). -/
def normCs (cs : List Byte) : List Byte :=
  if 4 ≤ cs.length then cs.take 4 else List.replicate (4 - cs.length) 0x57#8 ++ cs

/-- A text cut to `n` bytes and padded with spaces (R153). -/
def normText (n : Nat) (t : List Byte) : List Byte := pad (t.take n) n 0x20#8

/-- BUILD(s) (R153), tuned to `cf`. -/
def build (p : Params) (cf : F64) (st : Station) : Station :=
  { st with
    freq := st.dfreq
    csN := textVec 4 (normCs (rawCs p st))
    psN := textVec 8 (normText 8 (rawPs p st))
    rtN := textVec 64 (normText 64 (rawRt p st))
    pi := callsignToPi p (normCs (rawCs p st))
    tuning := tuningFor p st.dfreq cf
    tunerPhase := F64.zero
    fmPhase := F64.zero
    hist := Vector.replicate 10 (Cplx.zero, Cplx.zero)
    q12 := 0
    oobLast := false
    rds := Rds.fresh p
    status := .active
    code := .ok }

/-- One turn of INIT's loop (R152): the slot after it, and whether it was skipped. -/
def initSlot (p : Params) (cf : F64) (i : Nat) (sl : Slot) : Slot × Bool :=
  if descBit sl.st 0 = false then
    ({ sl with st := { sl.st with status := .empty, code := .ok } }, false)
  else if descBit sl.st 1 = false ∨ descBit sl.st 2 = false ∨ sl.st.dfreq.isFinite = false then
    ({ sl with st := { sl.st with status := .skipped, code := .configError } }, true)
  else
    let a := audioOpen i sl.feed
    if a.1 = false then
      ({ st := { sl.st with status := .skipped, code := .ioError }, feed := a.2 }, true)
    else ({ st := build p cf sl.st, feed := a.2 }, false)

/-- INIT's loop over the slots from number `i` on, ascending (R152). -/
def initSlots (p : Params) (cf : F64) : Nat → List Slot → List Slot × Bool
  | _, [] => ([], false)
  | i, sl :: sls =>
      let a := initSlot p cf i sl
      let rest := initSlots p cf (i + 1) sls
      (a.1 :: rest.1, a.2 || rest.2)

/-- What INIT does from UNINIT, before its completion (R152). -/
def initBody (s : State) : State :=
  let r := initSlots s.par s.centerFreq 0 s.slots
  setWarnIf r.2 warnStationSkipped { s with block := s.par.blockCfg, slots := r.1, life := .idle }

/-- Every state element at its reset value (R410); the agents' answers and the world around the block are not state of
the block and stay (log 21). -/
def resetAll (s : State) : State :=
  State.resetWith s.par (s.slots.map fun sl => { sl with st := Station.fresh s.par }) s.env

/-! ## The commands -/

/-- NOP (R151). -/
def execNop (s : State) : Host.Outcome State Fault Refusal := .next (complete (Instr.opcode .nop) .ok s)

/-- INIT (R152). -/
def execInit (s : State) : Host.Outcome State Fault Refusal :=
  .next (if s.life ≠ .uninit then raise .init .configError s
    else complete (Instr.opcode .init) .ok (initBody s))

/-- START (R154). -/
def execStart (s : State) : Host.Outcome State Fault Refusal :=
  .next (if s.life = .idle then complete (Instr.opcode .start) .ok { armTimer s with life := .running }
    else lifecycleNoop .start s)

/-- STOP (R155). -/
def execStop (s : State) : Host.Outcome State Fault Refusal :=
  .next (if s.life = .running then complete (Instr.opcode .stop) .ok { stopTimer s with life := .idle }
    else lifecycleNoop .stop s)

/-- TICK (R156). -/
def execTick (s : State) : Host.Outcome State Fault Refusal :=
  .next (if s.life = .idle then complete (Instr.opcode .tick) .ok (tickBody s) else lifecycleNoop .tick s)

/-- RESET (R157, R411). -/
def execReset (s : State) : Host.Outcome State Fault Refusal :=
  .next (complete (Instr.opcode .reset) .ok (resetAll (if s.life = .running then stopTimer s else s)))

end Sys2Proof.Machine
end

