-- ==== Sys2Proof/Machine/Setters.lean ====
section
/-! DEFINITION. The setters (spec 40_commands.md R160 to R164). Each is valid in every LIFE and does not change it
(R158). -/

namespace Sys2Proof.Machine

/-- TUNE_SET for an active station, nothing for another slot (R160). -/
def retuneSlot (par : Params) (busy : Bool) (f : F64) (sl : Slot) : Slot :=
  if sl.st.active then { sl with st := tuneSet par busy f sl.st } else sl

/-- CENTER_FREQ and every active station's tuning (R160). -/
def retuneAll (f : F64) (s : State) : State :=
  { s with centerFreq := f, slots := s.slots.map (retuneSlot s.par (tickBusy s) f) }

/-- SET_CENTER_FREQ (R160). -/
def execSetCenterFreq (s : State) : Host.Outcome State Fault Refusal :=
  .next (if inBounds s.par.cfMin (argF64 s) s.par.cfMax
    then complete (Instr.opcode .setCenterFreq) .ok (retuneAll (argF64 s) s)
    else raise .setCenterFreq .outOfRange s)

/-- SET_GAIN (R161). -/
def execSetGain (s : State) : Host.Outcome State Fault Refusal :=
  .next (if inBounds s.par.gainMin (argF64 s) s.par.gainMax
    then complete (Instr.opcode .setGain) .ok (replaceGain (argF64 s) s)
    else raise .setGain .outOfRange s)

/-- SET_SAMPLE_RATE (R162). -/
def execSetSampleRate (s : State) : Host.Outcome State Fault Refusal :=
  .next (if rateInBounds s.par (argF64 s)
    then complete (Instr.opcode .setSampleRate) .ok (replaceRate (nearestRate s.par (argF64 s)) s)
    else raise .setSampleRate .invalidValue s)

/-- SET_NOISE_ENABLE (R163). -/
def execSetNoiseEnable (en : Bool) (s : State) : Host.Outcome State Fault Refusal :=
  .next (complete (Instr.opcode (.setNoiseEnable en)) .ok (replaceNoiseEn en s))

/-- `n` complex noise draws, in increasing index, the real part first (R164). -/
def drawNoiseTab : Nat → Env → List Cplx × Env
  | 0, e => ([], e)
  | n + 1, e =>
      let re := drawNoise e
      let im := drawNoise re.2
      let rest := drawNoiseTab n im.2
      (⟨re.1, im.1⟩ :: rest.1, rest.2)

/-- Regenerate the noise table for a new σ (R164). -/
def regenerateNoise (sigma : F64) (s : State) : State :=
  let d := if sigma.eq F64.zero then (List.replicate s.par.noiseLen Cplx.zero, s.env)
    else drawNoiseTab s.par.noiseLen s.env
  { replaceNoiseTab d.1 s with noiseSigma := sigma, env := d.2 }

/-- SET_NOISE_SIGMA (R164): nothing is redrawn where σ equals NOISE_SIGMA. -/
def execSetNoiseSigma (s : State) : Host.Outcome State Fault Refusal :=
  .next (if sigmaValid (argF64 s)
    then complete (Instr.opcode .setNoiseSigma) .ok
      (if (argF64 s).eq s.noiseSigma then s else regenerateNoise (argF64 s) s)
    else raise .setNoiseSigma .invalidValue s)

end Sys2Proof.Machine
end

