-- ==== Sys2Proof/Machine/Dispatch.lean ====
section
/-! DEFINITION. One arm per command (R125). -/

namespace Sys2Proof.Machine

def exec (i : Instr) (s : State) : Host.Outcome State Fault Refusal :=
  match i with
  | .nop => Sys2Proof.Machine.execNop s
  | .init => Sys2Proof.Machine.execInit s
  | .start => Sys2Proof.Machine.execStart s
  | .stop => Sys2Proof.Machine.execStop s
  | .tick => Sys2Proof.Machine.execTick s
  | .reset => Sys2Proof.Machine.execReset s
  | .setCenterFreq => Sys2Proof.Machine.execSetCenterFreq s
  | .setGain => Sys2Proof.Machine.execSetGain s
  | .setSampleRate => Sys2Proof.Machine.execSetSampleRate s
  | .setNoiseEnable en => Sys2Proof.Machine.execSetNoiseEnable en s
  | .setNoiseSigma => Sys2Proof.Machine.execSetNoiseSigma s

end Sys2Proof.Machine
end

