-- ==== Sys2Proof/Machine/Step.lean ====
section
/-! DEFINITION. One step of the block: the next event of the schedule (R395, log 1, log 2). A host access completes
before the next event (R93); a write to CMD runs its command within the write (R150). -/

namespace Sys2Proof.Machine

/-- A word written to CMD, its write accepted (R150): decode, then the command, or ILLEGAL_COMMAND (R124, R126). -/
def issueCommand (w : Word32) (s : State) : Host.Outcome State Fault Refusal :=
  match decode w with
  | .ok i => exec i s
  | .error _ => .next (illegalCommand w s)

/-- One step. With nothing scheduled nothing happens (R393, log 2). -/
def step (s : State) : Host.Outcome State Fault Refusal :=
  match s.env.inbox with
  | [] => .next s
  | .fire lag :: rest => .next (fireTimer lag (takeEvent rest s))
  | .advance :: rest => .next (advance (takeEvent rest s))
  | .bus op :: rest =>
      match busEffect op (takeEvent rest s) with
      | .answer r => .next (respond r (takeEvent rest s))
      | .store s' => .next (respond writeAccepted s')
      | .command w => issueCommand w (respond writeAccepted (takeEvent rest s))

/-- The offset of CMD (R60). -/
def cmdOffset : Word32 := 0x008#32

/-- `s` with a host write of the command word to CMD as its next event (R120, R150, log 1). -/
def State.withFetchWord (s : State) (nbits w : Nat) : State :=
  { s with env := { s.env with inbox := .bus (.write cmdOffset 32 (commandWord nbits w)) :: s.env.inbox } }

end Sys2Proof.Machine
end

