-- ==== Sys2Proof/Machine/Assembler.lean ====
section
/-! DEFINITION. The pseudo-instructions and their exact expansions into bus operations (spec 30_encoding.md R129, R130). -/

namespace Sys2Proof.Machine

/-- `WR <offset>, <value>` and `RD <offset>` (R129). -/
def asmWr (off : Nat) (v : Word32) : BusOp := .write (BitVec.ofNat 32 off) 32 v
def asmRd (off : Nat) : BusOp := .read (BitVec.ofNat 32 off) 32

/-- `STW(s)` (R61). -/
def stationBase (slot : Nat) : Nat := 0x100 + 0x100 * slot

/-- The bytes of a text packed little-endian, four to a word, as many words as hold a byte of it; the unused bytes of the
last word 0 (R82, R130; 95_test_vectors.md P3). -/
def textWords (t : List Byte) : List Word32 :=
  (List.range ((t.length + 3) / 4)).map fun i =>
    t.getD (4 * i + 3) 0 ++ t.getD (4 * i + 2) 0 ++ t.getD (4 * i + 1) 0 ++ t.getD (4 * i) 0

/-- The writes of a text into its buffer, word by word; none for an omitted text (R130). -/
def asmText (off : Nat) (t : Option (List Byte)) : List BusOp :=
  match t with
  | none => []
  | some t => (textWords t).zipIdx.map fun wi => asmWr (off + 4 * wi.2) wi.1

/-- The exact expansions of R130. -/
def expand : Pseudo → List BusOp
  | .cmd i => [asmWr 0x008 (encode i)]
  | .cmdF64 i x =>
      [asmWr 0x010 (x.bits.extractLsb' 0 32), asmWr 0x014 (x.bits.extractLsb' 32 32), asmWr 0x008 (encode i)]
  | .noiseOn => [asmWr 0x008 0x00000113#32]
  | .noiseOff => [asmWr 0x008 0x00000013#32]
  | .check off _ => [.read off 32]
  | .stage slot freq cs ps rt =>
      let b := stationBase slot
      [asmWr (b + 0x08) (freq.bits.extractLsb' 0 32), asmWr (b + 0x0C) (freq.bits.extractLsb' 32 32)] ++
      asmText (b + 0x18) cs ++ asmText (b + 0x20) ps ++ asmText (b + 0x30) rt ++
      [asmWr (b + 0x10) (0#8 ++ BitVec.ofNat 8 (rt.getD []).length ++ BitVec.ofNat 8 (ps.getD []).length ++
        BitVec.ofNat 8 (cs.getD []).length),
       asmWr b (0#26 ++ BitVec.ofBool rt.isSome ++ BitVec.ofBool ps.isSome ++ BitVec.ofBool cs.isSome ++ 0b111#3)]

end Sys2Proof.Machine
end

