-- ==== Sys2Proof/Machine/Designer.lean ====
section
/-! DEFINITION. The reference generators of configurations (spec 44_backend.md R360, R361; 42_mpx_fm.md R263). No step
of the block runs them (R360). They are evaluated in binary64 (R8); the square root, x^0.4 and I₀ are computed exactly and
rounded once (log 17). -/

namespace Sys2Proof.Machine

/-- The filter types of KAISER_DESIGN. -/
inductive FilterType where
  | lowpass | highpass | bandpass | bandstop | hilbert
deriving DecidableEq, Repr

/-- A decimal constant `n / d` as binary64. -/
def f64Ratio (n d : Nat) : F64 := F64.round false (n * F64.unitsOne) d

/-! ## The functions R360 names -/

/-- The greatest `r` with `r ^ k ≤ n`, bit by bit from the highest. -/
def rootFloor (k n : Nat) : Nat :=
  (List.range (n.log2 / k + 1)).foldr (fun b r => if (r + 2 ^ b) ^ k ≤ n then r + 2 ^ b else r) 0

/-- The binary64 nearest to the k-th root of `n`, in units: an inexact root lies strictly between two integers, and a root
of 54 bits or more rounds as their midpoint does. -/
def rootRound (k n : Nat) : F64 :=
  if rootFloor k n ^ k = n then F64.round false (rootFloor k n) 1 else F64.round false (2 * rootFloor k n + 1) 2

/-- The square root, correctly rounded; a NaN below zero (log 17). -/
def sqrtOf (x : F64) : F64 :=
  if x.isNaN then F64.nan 4 x x
  else if x.mag = 0 then x
  else if x.sign then F64.nan 4 x x
  else if x.isInf then x
  else rootRound 2 (x.units * F64.unitsOne)

/-- `x^0.4`, the fifth root of x², correctly rounded; a NaN below zero (log 17). -/
def pow04 (x : F64) : F64 :=
  if x.isNaN then F64.nan 5 x x
  else if x.mag = 0 then F64.zero
  else if x.sign then F64.nan 5 x x
  else if x.isInf then x
  else rootRound 5 (x.units ^ 2 * F64.unitsOne ^ 3)

/-- `1 + q/1²·(1 + q/2²·(… (1 + q/k²)))` for `q = n/d`, as numerator and denominator: the first `k + 1` terms of
`Σ qⁱ/(i!)²`. -/
def besselSum (n d k : Nat) : Nat × Nat :=
  (List.range k).foldr
    (fun i acc => (d * (i + 1) ^ 2 * acc.2 + n * acc.1, d * (i + 1) ^ 2 * acc.2)) (1, 1)

/-- `I₀(x) = Σ (x²/4)ⁱ/(i!)²`, the modified Bessel function of order 0 (R360): the sum of its first `2·ceil|x| + 65` terms,
exact, rounded once. From |x| = 720 on, I₀ is beyond binary64 (log 17). -/
def besselI0 (x : F64) : F64 :=
  if x.isNaN then F64.nan 6 x x
  else if x.isInf || decide (720 * F64.unitsOne ≤ x.units) then F64.ofSignMag false F64.infMag
  else
    let n := x.units ^ 2
    let d := 4 * F64.unitsOne ^ 2
    let s := besselSum (n / Nat.gcd n d) (d / Nat.gcd n d) (2 * x.abs.ceilInt.toNat + 64)
    F64.round false (s.1 * F64.unitsOne) s.2

/-! ## KAISER_DESIGN -/

/-- `β` (R360). -/
def kaiserBeta (a : F64) : F64 :=
  if (F64.ofNat 50).lt a then (f64Ratio 1102 10000).mul (a.sub (f64Ratio 87 10))
  else if (F64.ofNat 21).le a then
    ((f64Ratio 5842 10000).mul (pow04 (a.sub (F64.ofNat 21)))).add
      ((f64Ratio 7886 100000).mul (a.sub (F64.ofNat 21)))
  else F64.zero

/-- The quotient that KAISER_LEN rounds up (R360). -/
def kaiserQuotient (a df : F64) : F64 :=
  if (F64.ofNat 21).lt a then (a.sub (f64Ratio 795 100)).div ((f64Ratio 1436 100).mul df)
  else (f64Ratio 9222 10000).div df

/-- `KAISER_LEN(A, Δf)` (R360). DESIGN CHOICE (log 17): where the quotient is infinite or a NaN (a transition width of 0, a
NaN argument) the rule gives no length, and the length is free. -/
def kaiserLen (a df : F64) : Int :=
  if (kaiserQuotient a df).isFinite then (kaiserQuotient a df).ceilInt + 1 else (Config.kaiserLenOpen a df : Int)

/-- The length adjusted by type: odd for HIGHPASS and BANDSTOP; a length below 1 gives no coefficient (R360, R9). -/
def designLen (ty : FilterType) (a df : F64) : Nat :=
  match ty with
  | .highpass | .bandstop => (if kaiserLen a df % 2 = 0 then kaiserLen a df + 1 else kaiserLen a df).toNat
  | .lowpass | .bandpass | .hilbert => (kaiserLen a df).toNat

/-- `sinc(x) = sin(πx)/(πx)`, `sinc(0) = 1` (R360). -/
def sinc (p : Params) (x : F64) : F64 :=
  if x.eq F64.zero then F64.one else (sinOf p (F64.pi.mul x)).div (F64.pi.mul x)

/-- `2f·sinc(2f·m)`. -/
def lowResponse (p : Params) (f m : F64) : F64 :=
  ((F64.ofNat 2).mul f).mul (sinc p (((F64.ofNat 2).mul f).mul m))

/-- `δ(m)`. -/
def delta (m : F64) : F64 := if m.eq F64.zero then F64.one else F64.zero

/-- `ideal(m)` (R360); a HILBERT design has no coefficient and asks for none. -/
def idealResponse (p : Params) (ty : FilterType) (f1 f2 m : F64) : F64 :=
  match ty with
  | .lowpass | .hilbert => lowResponse p f1 m
  | .highpass => (delta m).sub (lowResponse p f1 m)
  | .bandpass => (lowResponse p f2 m).sub (lowResponse p f1 m)
  | .bandstop => (delta m).sub ((lowResponse p f2 m).sub (lowResponse p f1 m))

/-- The Kaiser window `w(n)` of length `l` (R360). -/
def kaiserWindow (beta : F64) (l n : Nat) : F64 :=
  if l = 1 then F64.one
  else
    let u := (f64Ratio (2 * n) (l - 1)).sub F64.one
    (besselI0 (beta.mul (sqrtOf (F64.one.sub (u.mul u))))).div (besselI0 beta)

/-- `m = n − (L−1)/2` (R360). -/
def centred (l n : Nat) : F64 := (F64.ofNat n).sub (f64Ratio (l - 1) 2)

/-- KAISER_DESIGN (R360): HILBERT is refused with no coefficients. -/
def kaiserDesign (p : Params) (ty : FilterType) (a df f1 f2 : F64) : List F64 :=
  match ty with
  | .hilbert => []
  | .lowpass | .highpass | .bandpass | .bandstop =>
      let l := designLen ty a df
      (List.range l).map fun n =>
        (idealResponse p ty f1 f2 (centred l n)).mul (kaiserWindow (kaiserBeta a) l n)

/-- The complex variants: `h` times the tuning phasor `exp(j·2π·f₀·m)` (R360). -/
def complexTuned (p : Params) (f0 : F64) (h : List F64) : List Cplx :=
  h.zipIdx.map fun hn =>
    let phi := (F64.twoPi.mul f0).mul (centred h.length hn.2)
    Cplx.scale hn.1 ⟨cosOf p phi, sinOf p phi⟩

/-- R361's reference RATE_COEFFS(N), for RATE_ATTEN and RATE_TW. The rule gives N = 1 and N ≥ 2, all that DECIM can be
(R42). -/
def referenceRateCoeffs (p : Params) (atten tw : F64) (n : Nat) : List F64 :=
  if n = 1 then [F64.one]
  else kaiserDesign p .lowpass atten tw (F64.one.div (F64.ofNat (2 * n))) F64.zero

/-- A table entry in fixed point with `frac` fraction bits, as binary64 (R263): the integer nearest to `x·2^frac`, ties to
even, over `2^frac`, exact and then rounded; 0 is `+0.0`. DESIGN CHOICE (log 17): the spec gives no entry for an infinity
or a NaN, and that entry is free. -/
def fixedPoint (frac : Nat) (x : F64) : F64 :=
  if x.isFinite then
    let k := rneDiv (x.units * 2 ^ frac) F64.unitsOne
    F64.round (x.sign && k != 0) (k * F64.unitsOne) (2 ^ frac)
  else Config.fixedPointOpen frac x

/-- `φ·LUT_N/2π`, which R263 rounds to the index of the table. -/
def lutQuotient (lutN : Nat) (phi : F64) : F64 := (phi.mul (F64.ofNat lutN)).div F64.twoPi

/-- R263's reference SINCOS_LUT, for LUT_N entries with LUT_FRAC fraction bits. DESIGN CHOICE (log 17): where the formula
has no index (an empty table, a quotient that is infinite or a NaN), the pair is free. -/
def referenceSincos (p : Params) (lutN frac : Nat) (phi : F64) : Cplx :=
  if lutN ≠ 0 ∧ (lutQuotient lutN phi).isFinite = true then
    let i := ((lutQuotient lutN phi).toIntRne % (lutN : Int)).toNat
    let angle := (F64.twoPi.mul (F64.ofNat i)).div (F64.ofNat lutN)
    ⟨fixedPoint frac (cosOf p angle), fixedPoint frac (sinOf p angle)⟩
  else Config.sincosOpen lutN frac phi

end Sys2Proof.Machine
end

