-- ==== Sys2Proof/Safety.lean ====
section
/-! DEFINITION. The terms claims about runs are stated in: what a safe step is, the properties the specification says
hold of every reachable state, and the two named assumptions about the transcendental functions. -/

namespace Sys2Proof.Machine

/-- A step goes on: no stop escapes (R375, R376). -/
def GoesOn (o : Host.Outcome State Fault Refusal) : Prop := ∃ t, o = .next t

/-- What a tick never writes of a station (R303): staging, what INIT recorded, the identity, the tuning. -/
abbrev Station.kept (st : Station) :=
  (st.desc, st.dfreq, st.csLen, st.psLen, st.rtLen, st.csBuf, st.psBuf, st.rtBuf, st.status, st.code, st.freq, st.csN,
    st.psN, st.rtN, st.pi, st.tuning)

/-- Steps 6 to 8 of a tick over the mix with its noise, for coefficients `c`, decimation factor `n` and gain `g` (R320). -/
def engineBlock (p : Params) (c : List F64) (n : Nat) (g : F64) (mix : List Cplx) : List Cplx :=
  gainApply p g (decimate n (rateFilter c mix))

/-- The block that the tick in progress delivers, from the stage it has reached, for the values it reads of the engine's
shared resources: NOISE_EN, NOISE_TAB, RATE_COEF, DECIM, GAIN_DB (R320, R96). With no tick in progress there is none. -/
def pendingBlock (s : State) (en : Bool) (tab : List Cplx) (c : List F64) (n : Nat) (g : F64) : List Cplx :=
  let noisy := fun mix : List Cplx => if en then noiseAdd s.par.noiseLen tab mix else mix
  match s.tick with
  | .idle => []
  | .stations todo => engineBlock s.par c n g (noisy (mixer (lUp s) (todo.foldl runSlot s).slots).1)
  | .mixed => engineBlock s.par c n g (noisy s.mixBuf)
  | .noised => engineBlock s.par c n g s.mixBuf
  | .filtered y => gainApply s.par g (decimate n y)
  | .decimated d => gainApply s.par g d
  | .gained o => o

/-- `o` is what the tick in progress delivers for some value, standing or replaced during the tick, of each shared
resource of the engine (R96 (a) to (e)). -/
def Delivers (s : State) (o : List Cplx) : Prop :=
  ∃ en ∈ s.noiseEn :: s.old.noiseEn, ∃ tab ∈ s.noiseTab :: s.old.noiseTab, ∃ c ∈ s.rateCoef :: s.old.rateCoef,
    ∃ n ∈ s.decim :: s.old.decim, ∃ g ∈ s.gainDb :: s.old.gainDb, o = pendingBlock s en tab c n g

/-- What R410's table gives a station slot, value by value: staging, STATE and CODE, identity, tuning, phases, histories,
counters, and the build values of the RDS state (R56). -/
def StationAtReset (p : Params) (st : Station) : Prop :=
  st.desc = 0#32 ∧ st.dfreq = ⟨0#64⟩ ∧ st.csLen = 0#8 ∧ st.psLen = 0#8 ∧ st.rtLen = 0#8 ∧
  (∀ b ∈ st.csBuf.toList ++ st.psBuf.toList ++ st.rtBuf.toList, b = 0#8) ∧
  st.status = .empty ∧ st.code.byte = 0x00#8 ∧
  st.freq = ⟨0#64⟩ ∧ (∀ b ∈ st.csN.toList ++ st.psN.toList ++ st.rtN.toList, b = 0#8) ∧ st.pi = 0#16 ∧
  st.tuning = ⟨⟨0#64⟩, ⟨0#64⟩, ⟨⟨0#64⟩, ⟨0#64⟩⟩⟩ ∧ st.tunerPhase = ⟨0#64⟩ ∧ st.fmPhase = ⟨0#64⟩ ∧
  (∀ h ∈ st.hist.toList, h = (⟨⟨0#64⟩, ⟨0#64⟩⟩, ⟨⟨0#64⟩, ⟨0#64⟩⟩)) ∧ st.q12 = 0 ∧ st.oobLast = false ∧
  st.rds = { bitBuf := 0#104, bitPos := 104, sampleCnt := 192, diffPrev := false,
             ring := List.replicate (192 + p.kernel.length) ⟨0#64⟩, wrIdx := 0, rdIdx := 0, phase4 := 0,
             lastMin := none, grpCur := 0, psIdx := 0, rtIdx := 0 }

/-- `EXACT_SMALL` (R8, R161): `COS(0) = 1`, `SIN(0) = 0`, `EXP10(±0) = 1`, `EXP10(1) = 10`, `EXP10(−1)` the binary64
nearest 0.1. The model does not assume it (log 26, which says why COS and SIN are fixed at +0.0 alone). -/
def ExactSmall (p : Params) : Prop :=
  cosOf p F64.zero = F64.one ∧ sinOf p F64.zero = F64.zero ∧ exp10Of p F64.zero = F64.one ∧
    exp10Of p F64.zero.neg = F64.one ∧ exp10Of p F64.one = F64.ten ∧ exp10Of p F64.one.neg = ⟨0x3FB999999999999A#64⟩

/-- `TRIG_UNIT` (R300): `|COS(θ)² + SIN(θ)² − 1| ≤ 1e-6`, exactly, over finite θ. The model does not assume it (log
26). -/
def TrigUnit (p : Params) : Prop :=
  ∀ x : F64, x.isFinite →
    let sq := (cosOf p x).units ^ 2 + (sinOf p x).units ^ 2
    let one := F64.unitsOne ^ 2
    (cosOf p x).isFinite ∧ (sinOf p x).isFinite ∧
      (sq - one) * 1000000 ≤ one ∧ (one - sq) * 1000000 ≤ one

/-- The settings are consistent (R42, R43, R45): the rate is a valid rate, DECIM is MAX_RATE / SAMPLE_RATE exactly, the
coefficients are those of DECIM, the noise table has NOISE_LEN entries. -/
abbrev SettingsConsistent (s : State) : Prop :=
  s.par.wf = true ∧ s.sampleRate ∈ validRates s.par ∧ s.decim * s.sampleRate = maxRate ∧
    s.rateCoef = rateCoeffs s.par s.decim ∧ s.noiseTab.length = s.par.noiseLen

/-- The lifecycle is consistent (R32, R39, R46, R48): BLOCK and the stations exist from INIT on, the deadline exactly
while RUNNING, and a tick stays in progress between steps only while RUNNING. -/
abbrev LifeConsistent (s : State) : Prop :=
  (s.life = .uninit → s.block = 0 ∧ ∀ sl ∈ s.slots, sl.st.status = .empty) ∧
  (s.life ≠ .uninit → s.block = s.par.blockCfg) ∧
  (s.nextDeadline.isSome = true ↔ s.life = .running) ∧
  (s.tick ≠ .idle → s.life = .running)

/-- The block handed on between the stages of a tick has the length the rules give it (R306, R325, R335, R340). -/
abbrev PhaseLengths (s : State) : Prop :=
  match s.tick with
  | .idle => True
  | .stations todo => ∀ q ∈ s.slots.zipIdx, q.1.st.active = true → q.2 ∉ todo → q.1.st.out.length = lUp s
  | .mixed => s.mixBuf.length = lUp s
  | .noised => s.mixBuf.length = lUp s
  | .filtered y => y.length = lUp s
  | .decimated d => d.length ≤ lUp s
  | .gained o => o.length ≤ lUp s

/-- The buffers are consistent: the stage lengths; WARN.LEN_MISMATCH is never set (R326); OUT_BUF holds OUT_LEN samples
(R38), which fit the output window (R89). -/
abbrev BuffersConsistent (s : State) : Prop :=
  s.par.wf = true ∧ LifeConsistent s ∧ PhaseLengths s ∧ s.warn &&& warnLenMismatch = 0#32 ∧
    Memory.wf s = true ∧ 8 * s.outLen ≤ 0x01000000

/-- The pilot and the RDS carrier are locked: `PHASE4 = Q12 mod 4` (R253). -/
abbrev PhaseLocked (s : State) : Prop :=
  ∀ sl ∈ s.slots, sl.st.q12 < 12 ∧ sl.st.rds.phase4 = sl.st.q12 % 4

/-- The cursors of the RDS encoder stay in their ranges (R56), and the envelope is read `SPB − SAMPLE_CNT` samples
before the next kernel starts (R218). -/
abbrev RdsInRange (p : Params) (r : Rds) : Prop :=
  r.bitPos ≤ groupBits ∧ r.sampleCnt ≤ spb ∧ r.ring.length = p.ringLen ∧ r.wrIdx < p.ringLen ∧ r.rdIdx < p.ringLen ∧
    r.wrIdx = (r.rdIdx + (spb - r.sampleCnt)) % p.ringLen ∧ r.phase4 < 4 ∧ r.grpCur ≤ 4 ∧ r.psIdx < 4 ∧
    r.rtIdx < 16 ∧ r.lastMin.getD 0 < 60

/-- Every station's RDS cursors are in range. -/
abbrev CursorsInRange (s : State) : Prop := ∀ sl ∈ s.slots, RdsInRange s.par sl.st.rds

/-- The ten branch histories of a station are equal (R284). -/
abbrev HistoriesAgree (s : State) : Prop := ∀ sl ∈ s.slots, ∀ b : Fin 10, sl.st.hist[b] = sl.st.hist[0]

/-- The named bits are the only ones set in CMD_STATUS, WARN, IRQ_EN and IRQ_PEND (R33, R34, R35). -/
abbrev ReservedBitsZero (s : State) : Prop :=
  s.cmdStatus &&& 0xFFFF0000#32 = 0#32 ∧ s.warn &&& ~~~warnMask = 0#32 ∧ s.irqEn &&& ~~~irqMask = 0#32 ∧
    s.irqPend &&& ~~~irqMask = 0#32

end Sys2Proof.Machine
end

