-- ==== Sys2Proof/Certificates/Slice0/Obligations.lean ====
section
/-! DEFINITION. The statements for the provers: what the numbered rules of the specification say the block does. Each
docstring names the rule it formalises; "derived" statements say what they rest on. -/

open Sys2Proof Sys2Proof.Machine

/-! ## Encoding and decoding (30_encoding.md) -/

/-- R121 to R125: decoding and encoding agree in both directions. A word decodes to a command exactly when it is that
command's word, so no bit of an encoding is dropped and no other word decodes to it. -/
def Obligations.DecodeAgreesWithEncode : Prop :=
  ∀ (w : Word32) (i : Instr), decode w = .ok i ↔ w = encode i

/-- R125's full words, written out: each decodes to its command. -/
def Obligations.WordsOfTheOpcodeMap : Prop :=
  decode 0x00000000#32 = .ok .nop ∧ decode 0x00000001#32 = .ok .init ∧ decode 0x00000002#32 = .ok .start ∧
  decode 0x00000003#32 = .ok .stop ∧ decode 0x00000004#32 = .ok .tick ∧ decode 0x00000005#32 = .ok .reset ∧
  decode 0x00000010#32 = .ok .setCenterFreq ∧ decode 0x00000011#32 = .ok .setGain ∧
  decode 0x00000012#32 = .ok .setSampleRate ∧ decode 0x00000013#32 = .ok (.setNoiseEnable false) ∧
  decode 0x00000113#32 = .ok (.setNoiseEnable true) ∧ decode 0x00000014#32 = .ok .setNoiseSigma

/-! ## One step runs the decoded command (R93, R150) -/

/-- R93, R120, R150: a host write of a command word to CMD runs exactly the command it decodes to, within the write. The
step takes the write off the schedule and records its answer (the model's own fields, log 1, 15). -/
def Obligations.StepRunsDecodedCommand : Prop :=
  ∀ (s : State) (rest : List Event) (w : Word32) (i : Instr),
    s.env.inbox = .bus (.write 0x008#32 32 w) :: rest → decode w = .ok i →
    step s = exec i { s with env := { s.env with inbox := rest, busResp := some ⟨0#32, false⟩ } }

/-- R124, R126, R150, R373: exactly the words with an unassigned opcode or a reserved bit set are illegal; a host write of
one to CMD ends with ILLEGAL_COMMAND and changes nothing but CMD_STATUS and IRQ_PEND (and, of the model's own fields, the
schedule and the bus answer: log 1, 15). -/
def Obligations.IllegalWordChangesOnlyStatus : Prop :=
  ∀ w : Word32,
    ((∃ e, decode w = .error e) ↔
      (0x06 ≤ w.toNat % 256 ∧ w.toNat % 256 ≤ 0x0F) ∨ 0x15 ≤ w.toNat % 256 ∨
      (w.toNat % 256 ≠ 0x13 ∧ 256 ≤ w.toNat) ∨ (w.toNat % 256 = 0x13 ∧ 512 ≤ w.toNat)) ∧
    ∀ (s : State) (rest : List Event) (e : DecodeError),
      s.env.inbox = .bus (.write 0x008#32 32 w) :: rest → decode w = .error e →
      step s = .next { s with
        cmdStatus := 0#16 ++ w.extractLsb' 0 8 ++ 0x06#8
        irqPend := s.irqPend ||| 0x6#32
        env := { s.env with inbox := rest, busResp := some ⟨0#32, false⟩ } }

/-! ## Every command (R150, R158, R370 to R374) -/

/-- R150, R370, R371: every command completes; CMD_STATUS then holds its opcode and a command's result code, bits 31..16
are 0, and IRQ_PEND.CMD_DONE is set; IRQ_PEND.ERR is set where the code is an error code. -/
def Obligations.EveryCommandReportsItsStatus : Prop :=
  ∀ (i : Instr) (s : State), ∃ t code,
    exec i s = .next t ∧ code ∈ [0x00#8, 0x01#8, 0x02#8, 0x03#8, 0x05#8] ∧
    t.cmdStatus = 0#16 ++ i.opcode ++ code ∧ t.irqPend.getLsbD 1 = true ∧
    (code ∈ [0x01#8, 0x02#8, 0x03#8] → t.irqPend.getLsbD 2 = true)

/-- R373: a command that ends with an error code leaves every state element as it was, but for CMD_STATUS, which takes its
opcode and the code, IRQ_PEND.CMD_DONE and IRQ_PEND.ERR, which are set. -/
def Obligations.ErrorLeavesStateUnchanged : Prop :=
  ∀ (i : Instr) (s t : State), exec i s = .next t →
    t.cmdStatus.extractLsb' 0 8 ∈ [0x01#8, 0x02#8, 0x03#8, 0x06#8] →
    t = { s with
      cmdStatus := 0#16 ++ i.opcode ++ t.cmdStatus.extractLsb' 0 8
      irqPend := s.irqPend ||| 0x6#32 }

/-- R158: the lifecycle matrix. For every command: the LIFE after it and its result code, by the LIFE before it; the
setters and NOP never change LIFE. -/
def Obligations.LifecycleMatrix : Prop :=
  ∀ (i : Instr) (s : State), ∃ t, exec i s = .next t ∧
    match i, s.life with
    | .init, .uninit => t.life = .idle ∧ t.cmdStatus = 0x0100#32
    | .init, .idle => t.life = .idle ∧ t.cmdStatus = 0x0101#32
    | .init, .running => t.life = .running ∧ t.cmdStatus = 0x0101#32
    | .start, .uninit => t.life = .uninit ∧ t.cmdStatus = 0x0205#32
    | .start, .idle => t.life = .running ∧ t.cmdStatus = 0x0200#32
    | .start, .running => t.life = .running ∧ t.cmdStatus = 0x0205#32
    | .stop, .uninit => t.life = .uninit ∧ t.cmdStatus = 0x0305#32
    | .stop, .idle => t.life = .idle ∧ t.cmdStatus = 0x0305#32
    | .stop, .running => t.life = .idle ∧ t.cmdStatus = 0x0300#32
    | .tick, .uninit => t.life = .uninit ∧ t.cmdStatus = 0x0405#32
    | .tick, .idle => t.life = .idle ∧ t.cmdStatus = 0x0400#32
    | .tick, .running => t.life = .running ∧ t.cmdStatus = 0x0405#32
    | .reset, _ => t.life = .uninit ∧ t.cmdStatus = 0x0500#32
    | _, l => t.life = l

/-- R375, R376, R393: no step stops the machine, whatever the state and whatever is scheduled. -/
def Obligations.NoStepStops : Prop := ∀ s : State, GoesOn (step s)

/-! ## Lifecycle commands (40_commands.md) -/

/-- R151: NOP changes nothing but CMD_STATUS and IRQ_PEND.CMD_DONE, and a NOP word with a reserved bit set is illegal. -/
def Obligations.NopCompletes : Prop :=
  decode 0x00000000#32 = .ok .nop ∧
  (∀ s : State, exec .nop s = .next { s with cmdStatus := 0x00000000#32, irqPend := s.irqPend ||| 0x2#32 }) ∧
  (∀ w : Word32, w.extractLsb' 0 8 = 0x00#8 → w ≠ 0#32 → ∃ e, decode w = .error e)

/-- R152: INIT from UNINIT latches BLOCK, processes every slot by its number, sets WARN.STATION_SKIPPED (and
IRQ_PEND.WARN where that bit was 0) when a slot is skipped, and ends in IDLE with OK; nothing else changes. In another
LIFE it is CONFIG_ERROR. What it does to one slot is InitSlotOutcomes. -/
def Obligations.InitBuildsEverySlot : Prop :=
  ∀ s : State,
    (s.life = .uninit →
      let done := s.slots.mapIdx fun i sl => initSlot s.par s.centerFreq i sl
      let skipped := done.any fun r => r.2
      exec .init s = .next { s with
        life := .idle
        block := s.par.blockCfg
        slots := done.map fun r => r.1
        warn := if skipped then s.warn ||| 0x8#32 else s.warn
        irqPend := (if skipped = true ∧ s.warn &&& 0x8#32 = 0#32 then s.irqPend ||| 0x8#32 else s.irqPend) ||| 0x2#32
        cmdStatus := 0x0100#32 }) ∧
    (s.life ≠ .uninit →
      exec .init s = .next { s with cmdStatus := 0x0101#32, irqPend := s.irqPend ||| 0x6#32 })

/-- R152, the loop's body: an absent descriptor leaves the slot EMPTY; one without FileName or CenterFrequency, or with a
frequency that is NaN or infinite, SKIPPED with CONFIG_ERROR; one whose audio does not open, SKIPPED with IO_ERROR; any
other is built and ACTIVE with OK. Only `audio_open` consumes an answer of the audio agent (the answers' form is the
model's: log 3). -/
def Obligations.InitSlotOutcomes : Prop :=
  ∀ (p : Params) (cf : F64) (i : Nat) (sl : Slot),
    let good := sl.st.desc.getLsbD 1 = true ∧ sl.st.desc.getLsbD 2 = true ∧ sl.st.dfreq.isFinite = true
    (sl.st.desc.getLsbD 0 = false →
      initSlot p cf i sl = ({ sl with st := { sl.st with status := .empty, code := .ok } }, false)) ∧
    (sl.st.desc.getLsbD 0 = true → ¬ good →
      initSlot p cf i sl = ({ sl with st := { sl.st with status := .skipped, code := .configError } }, true)) ∧
    (sl.st.desc.getLsbD 0 = true → good → (audioOpen i sl.feed).1 = false →
      initSlot p cf i sl =
        ({ st := { sl.st with status := .skipped, code := .ioError }, feed := (audioOpen i sl.feed).2 }, true)) ∧
    (sl.st.desc.getLsbD 0 = true → good → (audioOpen i sl.feed).1 = true →
      initSlot p cf i sl = ({ st := build p cf sl.st, feed := (audioOpen i sl.feed).2 }, false) ∧
      (build p cf sl.st).status = .active ∧ (build p cf sl.st).code = .ok)

/-- R153, R56, R412: what BUILD gives a station. The texts are the staged bytes (their count clamped to the buffer) or the
configured defaults; the call sign is cut to 4 bytes or left-padded with 'W', PS and RT are cut and padded with spaces;
PI is CALLSIGN_TO_PI of the call sign; the tuning is that of CENTER_FREQ; phases, histories and counters are zero and the
RDS state is fresh. The staging registers are kept. -/
def Obligations.BuildGivesStationValues : Prop :=
  ∀ (p : Params) (cf : F64) (st : Station),
    let b := build p cf st
    let cs := if st.desc.getLsbD 3 then st.csBuf.toList.take (min st.csLen.toNat 8) else p.defaultCallsign
    let ps := if st.desc.getLsbD 4 then st.psBuf.toList.take (min st.psLen.toNat 16) else p.defaultPs
    let rt := if st.desc.getLsbD 5 then st.rtBuf.toList.take (min st.rtLen.toNat 64) else p.defaultRt
    let nf := (cf.sub st.dfreq).div (F64.ofNat 2280000)
    b.freq = st.dfreq ∧
    (∀ k, k < 4 → b.csN.getD k 0 =
      if 4 ≤ cs.length then cs.getD k 0
      else if k < 4 - cs.length then 0x57#8 else cs.getD (k - (4 - cs.length)) 0) ∧
    (∀ k, k < 8 → b.psN.getD k 0 = ps.getD k 0x20#8) ∧
    (∀ k, k < 64 → b.rtN.getD k 0 = rt.getD k 0x20#8) ∧
    b.pi = callsignToPi p b.csN.toList ∧
    b.tuning = ⟨cf, nf, ⟨cosOf p (F64.twoPi.mul nf), (sinOf p (F64.twoPi.mul nf)).neg⟩⟩ ∧
    b.tunerPhase = F64.zero ∧ b.fmPhase = F64.zero ∧ (∀ h ∈ b.hist.toList, h = (Cplx.zero, Cplx.zero)) ∧
    b.q12 = 0 ∧ b.oobLast = false ∧
    b.rds = { bitBuf := 0#104, bitPos := 104, sampleCnt := 192, diffPrev := false,
              ring := List.replicate (192 + p.kernel.length) F64.zero, wrIdx := 0, rdIdx := 0, phase4 := 0,
              lastMin := none, grpCur := 0, psIdx := 0, rtIdx := 0 } ∧
    b.desc = st.desc ∧ b.dfreq = st.dfreq ∧ b.csLen = st.csLen ∧ b.psLen = st.psLen ∧ b.rtLen = st.rtLen ∧
    b.csBuf = st.csBuf ∧ b.psBuf = st.psBuf ∧ b.rtBuf = st.rtBuf

/-- R154, R390: START from IDLE arms the timer one PERIOD (BLOCK base-rate sample times, log 9) after the abstract
instant of this START, and ends in RUNNING with OK; otherwise it warns and changes nothing else (R382). -/
def Obligations.StartArmsTheTimer : Prop :=
  ∀ s : State,
    (s.life = .idle →
      exec .start s = .next { s with
        life := .running
        nextDeadline := some ⟨s.env.starts, s.block⟩
        env := { s.env with starts := s.env.starts + 1 }
        cmdStatus := 0x0200#32
        irqPend := s.irqPend ||| 0x2#32 }) ∧
    (s.life ≠ .idle →
      exec .start s = .next { s with
        warn := s.warn ||| 0x4#32
        cmdStatus := 0x0205#32
        irqPend := (if s.warn &&& 0x4#32 = 0#32 then s.irqPend ||| 0x8#32 else s.irqPend) ||| 0x2#32 })

/-- R155: STOP when RUNNING cancels the timer and ends in IDLE with OK, every setting, and of each station its staging,
identity and tuning as they were. With no tick in progress nothing else changes; a tick in progress completes and delivers
exactly its block before STOP ends: the remaining stages of R320 over what the tick has reached, each shared resource old or
new (R96). When not RUNNING STOP warns and changes nothing else. That the wait is part of the STOP step is the model's
reading (log 11), and the stages a tick in progress can stand at are the model's (log 10). -/
def Obligations.StopCancelsTheTimer : Prop :=
  ∀ s : State,
    (s.life = .running → s.tick = .idle →
      exec .stop s = .next { s with
        life := .idle, nextDeadline := none, cmdStatus := 0x0300#32, irqPend := s.irqPend ||| 0x2#32 }) ∧
    (s.life = .running → s.tick ≠ .idle →
      ∃ t o, exec .stop s = .next t ∧ Delivers s o ∧ t.life = .idle ∧ t.nextDeadline = none ∧ t.tick = .idle ∧
        t.env.delivered = s.env.delivered ++ [o] ∧ t.outLen = o.length ∧
        t.outBuf = o.map (fun z => (z.re.toF32, z.im.toF32)) ∧ t.tickCount = s.tickCount + 1#32 ∧
        t.irqPend.getLsbD 0 = true ∧ t.irqPend.getLsbD 1 = true ∧ t.cmdStatus = 0x0300#32 ∧
        t.centerFreq = s.centerFreq ∧ t.gainDb = s.gainDb ∧ t.sampleRate = s.sampleRate ∧ t.decim = s.decim ∧
        t.rateCoef = s.rateCoef ∧ t.noiseEn = s.noiseEn ∧ t.noiseSigma = s.noiseSigma ∧ t.noiseTab = s.noiseTab ∧
        t.block = s.block ∧ t.arg0 = s.arg0 ∧ t.irqEn = s.irqEn ∧ t.par = s.par ∧
        t.slots.map (fun sl => sl.st.kept) = s.slots.map (fun sl => sl.st.kept)) ∧
    (s.life ≠ .running →
      exec .stop s = .next { s with
        warn := s.warn ||| 0x4#32
        cmdStatus := 0x0305#32
        irqPend := (if s.warn &&& 0x4#32 = 0#32 then s.irqPend ||| 0x8#32 else s.irqPend) ||| 0x2#32 })

/-- R156, R320, R340, R348, R382: TICK from IDLE runs every active station with its tuning, sums their blocks, adds the
noise table where NOISE_EN is 1, filters with RATE_COEF, decimates by DECIM, applies the gain and delivers that one block of
M = ceil(10·BLOCK / DECIM) samples, in the output window as binary32 pairs and at the port as binary64. It counts the block,
sets BLOCK and CMD_DONE, and WARN.STATION_FAULT (IRQ_PEND.WARN where that bit was 0) where a station faulted. Every other
state element is as it was, and of each station its staging, identity and tuning; otherwise it warns and changes nothing
else. The mix buffer left behind and the cleared fields `old` and `tuneOld` are the model's own (log 8, 10). -/
def Obligations.TickDeliversOneBlock : Prop :=
  ∀ s : State,
    (s.life = .idle →
      let runs := s.slots.mapIdx fun i sl =>
        let clear : Slot := { sl with st := { sl.st with tuneOld := [] } }
        if sl.st.status = .active then stationRun s.par i s.block sl.st.tuning clear else (clear, false)
      let mix := (mixer (10 * s.block) (runs.map fun r => r.1)).1
      let noisy := if s.noiseEn then noiseAdd s.par.noiseLen s.noiseTab mix else mix
      let o := gainApply s.par s.gainDb (decimate s.decim (rateFilter s.rateCoef noisy))
      let fault := runs.any fun r => r.2
      exec .tick s = .next { s with
        slots := runs.map fun r => r.1
        mixBuf := noisy
        tick := .idle
        old := ⟨[], [], [], [], []⟩
        outBuf := o.map fun z => (z.re.toF32, z.im.toF32)
        outLen := o.length
        tickCount := s.tickCount + 1#32
        warn := if fault then s.warn ||| 0x10#32 else s.warn
        irqPend := (if fault = true ∧ s.warn &&& 0x10#32 = 0#32 then s.irqPend ||| 0x8#32 else s.irqPend) ||| 0x3#32
        cmdStatus := 0x0400#32
        env := { s.env with delivered := s.env.delivered ++ [o] } } ∧
      o.length = (10 * s.block + s.decim - 1) / s.decim ∧
      runs.map (fun r => r.1.st.kept) = s.slots.map (fun sl => sl.st.kept)) ∧
    (s.life ≠ .idle →
      exec .tick s = .next { s with
        warn := s.warn ||| 0x4#32
        cmdStatus := 0x0405#32
        irqPend := (if s.warn &&& 0x4#32 = 0#32 then s.irqPend ||| 0x8#32 else s.irqPend) ||| 0x2#32 })

/-- R156's example and program P1, R327: with no active station and the noise disabled, where the rate coefficients and
the linear gain are finite and the gain is positive, every word of the delivered block is 0. -/
def Obligations.TickWithoutStationsIsSilent : Prop :=
  ∀ s t : State, s.life = .idle → (∀ sl ∈ s.slots, sl.st.status ≠ .active) → s.noiseEn = false →
    (∀ c ∈ s.rateCoef, c.isFinite = true) →
    (exp10Of s.par (s.gainDb.div F64.ten)).isFinite = true → (exp10Of s.par (s.gainDb.div F64.ten)).sign = false →
    exec .tick s = .next t →
    t.outBuf = List.replicate ((10 * s.block + s.decim - 1) / s.decim) (0#32, 0#32)

/-- R157, R410, R411: RESET puts every state element of the table at its reset value (a slot's are written out in
StationAtReset), then completes: CMD_STATUS is
0x500 and IRQ_PEND 0x2. From RUNNING with a tick in progress it first delivers that tick's block, exactly one: the remaining
stages of R320 over what the tick has reached, each shared resource old or new (R96; the stages are the model's, log 10).
What the model keeps beside the block's state (parameters, answers to come, the schedule and the delivered blocks) is kept
where no tick was in progress (log 4, 8, 21). -/
def Obligations.ResetRestoresResetState : Prop :=
  ∀ s : State, ∃ t, exec .reset s = .next t ∧
    t.life = .uninit ∧ t.cmdStatus = 0x0500#32 ∧ t.warn = 0#32 ∧ t.irqEn = 0#32 ∧ t.irqPend = 0x2#32 ∧
    t.arg0 = 0#64 ∧ t.tickCount = 0#32 ∧ t.outLen = 0 ∧ t.outBuf = [] ∧ t.nextDeadline = none ∧
    t.centerFreq = s.par.cf0 ∧ t.gainDb = F64.zero ∧ t.sampleRate = 2280000 ∧ t.decim = 1 ∧
    t.rateCoef = rateCoeffs s.par 1 ∧ t.noiseEn = false ∧ t.noiseSigma = F64.zero ∧
    t.noiseTab = List.replicate s.par.noiseLen Cplx.zero ∧ t.block = 0 ∧ t.tick = .idle ∧
    t.slots.length = s.slots.length ∧ (∀ sl ∈ t.slots, sl.st = Station.fresh s.par ∧ StationAtReset s.par sl.st) ∧ irqLine t = false ∧
    t.par = s.par ∧
    ((s.life ≠ .running ∨ s.tick = .idle) → t.env = s.env ∧ t.slots.map (·.feed) = s.slots.map (·.feed)) ∧
    (s.life = .running → s.tick ≠ .idle →
      ∃ o, Delivers s o ∧ t.env.delivered = s.env.delivered ++ [o] ∧ t.env.inbox = s.env.inbox)

/-- R410: the machine after power-on: the values the table gives, a slot's written out in StationAtReset. The per-tick
buffers, which R410 leaves open, are empty (log 8). The values the specification leaves open (the
parameters) are those of the configuration (log 4, 5). -/
def Obligations.PowerOnState : Prop :=
  let t := State.reset
  t.life = .uninit ∧ t.cmdStatus = 0#32 ∧ t.warn = 0#32 ∧ t.irqEn = 0#32 ∧ t.irqPend = 0#32 ∧ t.arg0 = 0#64 ∧
  t.tickCount = 0#32 ∧ t.outLen = 0 ∧ t.outBuf = [] ∧ t.nextDeadline = none ∧ t.centerFreq = t.par.cf0 ∧
  t.gainDb = F64.zero ∧ t.sampleRate = 2280000 ∧ t.decim = 1 ∧ t.rateCoef = rateCoeffs t.par 1 ∧ t.noiseEn = false ∧
  t.noiseSigma = F64.zero ∧ t.noiseTab = List.replicate t.par.noiseLen Cplx.zero ∧ t.block = 0 ∧
  (∀ sl ∈ t.slots, sl.st = Station.fresh t.par ∧ StationAtReset t.par sl.st) ∧ 1 ≤ t.slots.length ∧ t.slots.length ≤ 32 ∧ t.par.wf = true ∧
  irqLine t = false

/-! ## Setters (40_commands.md) -/

/-- R160, R296, R51: SET_CENTER_FREQ with a frequency in its bounds sets CENTER_FREQ and replaces the tuning tuple of
every active station, the tuner phase and everything else kept; outside its bounds, or NaN, it is OUT_OF_RANGE and
changes nothing. A tuple replaced while a tick is in progress stays readable by that tick (R96 (f), log 10). -/
def Obligations.SetCenterFreqRetunes : Prop :=
  decode 0x00000010#32 = .ok .setCenterFreq ∧ ∀ s : State,
    let f : F64 := ⟨s.arg0⟩
    ((s.par.cfMin.le f && f.le s.par.cfMax) = true →
      exec .setCenterFreq s = .next { s with
        centerFreq := f
        slots := s.slots.map fun sl =>
          if sl.st.status = .active then
            let nf := (f.sub sl.st.freq).div (F64.ofNat 2280000)
            { sl with st := { sl.st with
                tuning := ⟨f, nf, ⟨cosOf s.par (F64.twoPi.mul nf), (sinOf s.par (F64.twoPi.mul nf)).neg⟩⟩
                tuneOld := if s.tick = .idle then sl.st.tuneOld else sl.st.tuning :: sl.st.tuneOld } }
          else sl
        cmdStatus := 0x1000#32
        irqPend := s.irqPend ||| 0x2#32 }) ∧
    ((s.par.cfMin.le f && f.le s.par.cfMax) = false →
      exec .setCenterFreq s = .next { s with cmdStatus := 0x1002#32, irqPend := s.irqPend ||| 0x6#32 })

/-- R161: SET_GAIN with a gain in its bounds sets GAIN_DB and nothing else; outside them, or NaN, it is OUT_OF_RANGE and
changes nothing. The field `old` is the model's own: what a tick in progress may still read (log 10). -/
def Obligations.SetGainSetsGain : Prop :=
  decode 0x00000011#32 = .ok .setGain ∧ ∀ s : State,
    let g : F64 := ⟨s.arg0⟩
    ((s.par.gainMin.le g && g.le s.par.gainMax) = true →
      exec .setGain s = .next { s with
        gainDb := g
        old := if s.tick = .idle then s.old else { s.old with gainDb := s.gainDb :: s.old.gainDb }
        cmdStatus := 0x1100#32
        irqPend := s.irqPend ||| 0x2#32 }) ∧
    ((s.par.gainMin.le g && g.le s.par.gainMax) = false →
      exec .setGain s = .next { s with cmdStatus := 0x1102#32, irqPend := s.irqPend ||| 0x6#32 })

/-- R162: SET_SAMPLE_RATE with a rate in [MIN_RATE, MAX_RATE] sets SAMPLE_RATE to the divisor of MAX_RATE, at least
MIN_RATE, that is nearest to it in exact arithmetic, the larger of two equally near, DECIM to MAX_RATE over it, exactly,
and RATE_COEF to the coefficients of DECIM, and nothing else; outside, or NaN, it is INVALID_VALUE and changes
nothing. The field `old` is the model's own (log 10). -/
def Obligations.SetSampleRateSnapsToNearestDivisor : Prop :=
  decode 0x00000012#32 = .ok .setSampleRate ∧ ∀ s : State, s.par.wf = true →
    let r : F64 := ⟨s.arg0⟩
    let ok := (F64.ofNat s.par.minRate).le r && r.le (F64.ofNat 2280000)
    (ok = true → ∃ d,
      d ∣ 2280000 ∧ s.par.minRate ≤ d ∧
      (∀ d' : Nat, d' ∣ 2280000 → s.par.minRate ≤ d' →
        let dist := fun x : Nat => ((x * F64.unitsOne : Nat) - (r.units : Int)).natAbs
        dist d ≤ dist d' ∧ (dist d = dist d' → d' ≤ d)) ∧
      exec .setSampleRate s = .next { s with
        sampleRate := d
        decim := 2280000 / d
        rateCoef := rateCoeffs s.par (2280000 / d)
        old := if s.tick = .idle then s.old
          else { s.old with rateCoef := s.rateCoef :: s.old.rateCoef, decim := s.decim :: s.old.decim }
        cmdStatus := 0x1200#32
        irqPend := s.irqPend ||| 0x2#32 }) ∧
    (ok = false →
      exec .setSampleRate s = .next { s with cmdStatus := 0x1203#32, irqPend := s.irqPend ||| 0x6#32 })

/-- R163: SET_NOISE_ENABLE sets NOISE_EN to EN and nothing else; a word of its opcode with one of bits 31..9 set is
illegal. The field `old` is the model's own (log 10). -/
def Obligations.SetNoiseEnableSetsTheSwitch : Prop :=
  decode 0x00000013#32 = .ok (.setNoiseEnable false) ∧ decode 0x00000113#32 = .ok (.setNoiseEnable true) ∧
  (∀ (en : Bool) (s : State),
    exec (.setNoiseEnable en) s = .next { s with
      noiseEn := en
      old := if s.tick = .idle then s.old else { s.old with noiseEn := s.noiseEn :: s.old.noiseEn }
      cmdStatus := 0x1300#32
      irqPend := s.irqPend ||| 0x2#32 }) ∧
  (∀ w : Word32, w.extractLsb' 0 8 = 0x13#8 → w.extractLsb' 9 23 ≠ 0#23 → ∃ e, decode w = .error e)

/-- R164: SET_NOISE_SIGMA. A σ that is NaN, infinite or negative is INVALID_VALUE and changes nothing; the σ that stands
(+0.0 and −0.0 alike) redraws nothing; a new σ of 0 gives an all-zero table; any other new σ gives a table of NOISE_LEN
finite complex draws, two draws an entry, and nothing else changes. The field `old` and the tape of draws are the model's
own (log 3, 10). -/
def Obligations.SetNoiseSigmaRegeneratesTheTable : Prop :=
  decode 0x00000014#32 = .ok .setNoiseSigma ∧ ∀ s : State,
    let x : F64 := ⟨s.arg0⟩
    let old' : Replaced := if s.tick = .idle then s.old else { s.old with noiseTab := s.noiseTab :: s.old.noiseTab }
    ((x.isFinite && !(x.lt F64.zero)) = false →
      exec .setNoiseSigma s = .next { s with cmdStatus := 0x1403#32, irqPend := s.irqPend ||| 0x6#32 }) ∧
    ((x.isFinite && !(x.lt F64.zero)) = true → x.eq s.noiseSigma = true →
      exec .setNoiseSigma s = .next { s with cmdStatus := 0x1400#32, irqPend := s.irqPend ||| 0x2#32 }) ∧
    ((x.isFinite && !(x.lt F64.zero)) = true → x.eq s.noiseSigma = false → x.eq F64.zero = true →
      exec .setNoiseSigma s = .next { s with
        noiseSigma := x, noiseTab := List.replicate s.par.noiseLen Cplx.zero, old := old',
        cmdStatus := 0x1400#32, irqPend := s.irqPend ||| 0x2#32 }) ∧
    ((x.isFinite && !(x.lt F64.zero)) = true → x.eq s.noiseSigma = false → x.eq F64.zero = false →
      ∃ tab ins,
        tab.length = s.par.noiseLen ∧ (∀ z ∈ tab, z.re.isFinite = true ∧ z.im.isFinite = true) ∧
        exec .setNoiseSigma s = .next { s with
          noiseSigma := x, noiseTab := tab, old := old'
          env := { s.env with noiseIn := ins, noiseDraws := s.env.noiseDraws + 2 * s.par.noiseLen }
          cmdStatus := 0x1400#32, irqPend := s.irqPend ||| 0x2#32 })

/-! ## The host bus (20_memory.md, 10_state.md) -/

/-- R80, R83 to R86, R88: exactly the misaligned accesses, those not 32 bits wide and those to unmapped offsets (a station
window of a slot s ≥ N_ST among them) get SLVERR; the data is 0, and such a write has no effect. A mapped read is answered
with what its register or the output window holds (the values: RegistersRead, OutputWindowHoldsTheBlock). No read, whatever its
offset and width, changes state. A mapped write is accepted; to a read-only or reserved global register, to the read-only or
reserved part of a station window or to the output window (of a block of at most 32 slots, R5) it changes nothing. The step
only takes the access off the schedule and records its answer (log 1, 15). -/
def Obligations.SlvErrExactlyWhereUnmapped : Prop :=
  ∀ (s : State) (off : Word32) (width : Nat) (v : Word32) (rest : List Event),
    let o := off.toNat
    let mapped := width = 32 ∧ o % 4 = 0 ∧
      (o < 0x100 + 0x100 * s.slots.length ∨ (0x01000000 ≤ o ∧ o < 0x02000000))
    let answered := fun r : BusResp => { s with env := { s.env with inbox := rest, busResp := some r } }
    (s.env.inbox = .bus (.read off width) :: rest →
      ∃ d err, step s = .next (answered ⟨d, err⟩) ∧ (err = true ↔ ¬ mapped) ∧ (err = true → d = 0#32) ∧
        (err = false → busRead s off width = some d)) ∧
    (s.env.inbox = .bus (.write off width v) :: rest →
      (¬ mapped → step s = .next (answered ⟨0#32, true⟩)) ∧
      (mapped → ∃ t, step s = .next t ∧ t.env.busResp = some ⟨0#32, false⟩) ∧
      (mapped → o < 0x100 → o ∉ [0x008, 0x010, 0x014, 0x01C, 0x020, 0x024] → step s = .next (answered ⟨0#32, false⟩)) ∧
      (mapped → 0x100 ≤ o → o < 0x01000000 →
        (o % 0x100 = 0x04 ∨ o % 0x100 = 0x14 ∨ 0x70 ≤ o % 0x100) → step s = .next (answered ⟨0#32, false⟩)) ∧
      (mapped → s.slots.length ≤ 32 → 0x01000000 ≤ o → step s = .next (answered ⟨0#32, false⟩)))

/-- R60, R61, R62, R82: what every register reads, in every state: the global registers, with every unnamed bit and the
reserved registers 0; and of each slot the staging registers, ST_STATUS and the live registers, which read 0 while the slot
is not ACTIVE. LAST_MIN reads 0xFF when NONE. The counters of ST_RDS0, ST_RDS1, ST_RDS2 and ST_MPX are taken in their
ranges (R55, R56), which RdsCursorsStayInRange and PilotStaysLocked keep. -/
def Obligations.RegistersRead : Prop :=
  ∀ s : State, s.slots.length ≤ 32 →
    let lo := fun x : BitVec 64 => x.extractLsb' 0 32
    let hi := fun x : BitVec 64 => x.extractLsb' 32 32
    (busRead s 0x000#32 32 = some 0x52465331#32 ∧
      busRead s 0x004#32 32 = some (BitVec.ofNat 32 (s.slots.length + 0x030A00)) ∧
      busRead s 0x008#32 32 = some 0#32 ∧
      busRead s 0x00C#32 32 = some (s.cmdStatus &&& 0xFFFF#32) ∧
      busRead s 0x010#32 32 = some (lo s.arg0) ∧ busRead s 0x014#32 32 = some (hi s.arg0) ∧
      busRead s 0x018#32 32 = some (match s.life with | .uninit => 0#32 | .idle => 1#32 | .running => 2#32) ∧
      busRead s 0x01C#32 32 = some (s.warn &&& 0x1F#32) ∧
      busRead s 0x020#32 32 = some (s.irqEn &&& 0xF#32) ∧
      busRead s 0x024#32 32 = some (s.irqPend &&& 0xF#32) ∧
      busRead s 0x028#32 32 = some s.tickCount ∧
      busRead s 0x02C#32 32 = some (BitVec.ofNat 32 s.outLen) ∧
      busRead s 0x030#32 32 = some (lo s.centerFreq.bits) ∧ busRead s 0x034#32 32 = some (hi s.centerFreq.bits) ∧
      busRead s 0x038#32 32 = some (lo s.gainDb.bits) ∧ busRead s 0x03C#32 32 = some (hi s.gainDb.bits) ∧
      busRead s 0x040#32 32 = some (BitVec.ofNat 32 s.sampleRate) ∧
      busRead s 0x044#32 32 = some (BitVec.ofNat 32 s.decim) ∧
      busRead s 0x048#32 32 = some (if s.noiseEn then 1#32 else 0#32) ∧
      busRead s 0x04C#32 32 = some 0#32 ∧
      busRead s 0x050#32 32 = some (lo s.noiseSigma.bits) ∧ busRead s 0x054#32 32 = some (hi s.noiseSigma.bits) ∧
      busRead s 0x058#32 32 = some (BitVec.ofNat 32 s.block) ∧
      (∃ m, busRead s 0x05C#32 32 = some m ∧ ∀ b, b < 32 →
        (m.getLsbD b = true ↔ ∃ sl, s.slots[b]? = some sl ∧ sl.st.status = .active)) ∧
      (∀ off : Word32, 0x060 ≤ off.toNat → off.toNat < 0x100 → off.toNat % 4 = 0 → busRead s off 32 = some 0#32)) ∧
    ∀ (i : Nat) (sl : Slot), s.slots[i]? = some sl →
      let read := fun off : Nat => busRead s (BitVec.ofNat 32 (0x100 + 0x100 * i + off)) 32
      let byte := fun off k : Nat => (read (off + 4 * (k / 4))).map fun w => w.extractLsb' (8 * (k % 4)) 8
      let st := sl.st
      let r := sl.st.rds
      (read 0x00 = some (st.desc &&& 0x3F#32) ∧
        read 0x04 = some (BitVec.ofNat 32 ((match st.status with | .empty => 0 | .active => 1 | .skipped => 2) +
          256 * st.code.byte.toNat)) ∧
        read 0x08 = some (lo st.dfreq.bits) ∧ read 0x0C = some (hi st.dfreq.bits) ∧
        read 0x10 = some (BitVec.ofNat 32 (st.csLen.toNat + 2 ^ 8 * st.psLen.toNat + 2 ^ 16 * st.rtLen.toNat)) ∧
        (∀ k, k < 8 → byte 0x18 k = some (st.csBuf.getD k 0)) ∧
        (∀ k, k < 16 → byte 0x20 k = some (st.psBuf.getD k 0)) ∧
        (∀ k, k < 64 → byte 0x30 k = some (st.rtBuf.getD k 0)) ∧
        (∀ off ∈ [0x14, 0xA8, 0xAC, 0xB8, 0xBC], read off = some 0#32)) ∧
      (st.status ≠ .active → ∀ off, 0x70 ≤ off → off < 0x100 → off % 4 = 0 → read off = some 0#32) ∧
      (st.status = .active →
        (∀ k, k < 4 → byte 0x70 k = some (st.csN.getD k 0)) ∧
        (∀ k, k < 8 → byte 0xB0 k = some (st.psN.getD k 0)) ∧
        (∀ k, k < 64 → byte 0xC0 k = some (st.rtN.getD k 0)) ∧
        read 0x74 = some (BitVec.ofNat 32 st.pi.toNat) ∧
        read 0x78 = some (lo st.tuning.tuned.bits) ∧ read 0x7C = some (hi st.tuning.tuned.bits) ∧
        read 0x80 = some (lo st.tuning.normFc.bits) ∧ read 0x84 = some (hi st.tuning.normFc.bits) ∧
        read 0x88 = some (lo st.fmPhase.bits) ∧ read 0x8C = some (hi st.fmPhase.bits) ∧
        read 0x90 = some (lo st.tunerPhase.bits) ∧ read 0x94 = some (hi st.tunerPhase.bits) ∧
        (RdsInRange s.par r → st.q12 < 12 →
          read 0x98 = some (BitVec.ofNat 32 (r.grpCur + 2 ^ 8 * r.psIdx + 2 ^ 16 * r.rtIdx + 2 ^ 24 * r.phase4 +
            (if r.diffPrev then 2 ^ 31 else 0))) ∧
          read 0x9C = some (BitVec.ofNat 32 (r.bitPos + 2 ^ 8 * r.sampleCnt)) ∧
          read 0xA0 = some (match r.lastMin with | none => 0xFF#32 | some m => BitVec.ofNat 32 m) ∧
          read 0xA4 = some (BitVec.ofNat 32 (st.q12 + (if st.oobLast then 2 ^ 8 else 0)))))

/-- R36, R82, R86, R87 (the answer: log 15): writing ARG0_LO and ARG0_HI, in either order, sets the two halves of ARG0 and nothing else. -/
def Obligations.Arg0WrittenByHalves : Prop :=
  ∀ (s : State) (v : Word32) (rest : List Event),
    (s.env.inbox = .bus (.write 0x010#32 32 v) :: rest →
      step s = .next { s with
        arg0 := s.arg0.extractLsb' 32 32 ++ v
        env := { s.env with inbox := rest, busResp := some ⟨0#32, false⟩ } }) ∧
    (s.env.inbox = .bus (.write 0x014#32 32 v) :: rest →
      step s = .next { s with
        arg0 := v ++ s.arg0.extractLsb' 0 32
        env := { s.env with inbox := rest, busResp := some ⟨0#32, false⟩ } })

/-- R34, R35, R86, R376, R380 (the answer: log 15): writing 1s to WARN or IRQ_PEND clears exactly the named bits written 1 and changes nothing
else; a write to IRQ_EN stores its named bits and never changes IRQ_PEND; IRQ is asserted exactly where an enabled pending
bit is 1. -/
def Obligations.StatusRegisterWrites : Prop :=
  ∀ (s : State) (v : Word32) (rest : List Event),
    (s.env.inbox = .bus (.write 0x01C#32 32 v) :: rest →
      ∃ w, step s = .next { s with
          warn := w, env := { s.env with inbox := rest, busResp := some ⟨0#32, false⟩ } } ∧
        ∀ b, b < 32 → w.getLsbD b = (s.warn.getLsbD b && !(v.getLsbD b && decide (b < 5)))) ∧
    (s.env.inbox = .bus (.write 0x024#32 32 v) :: rest →
      ∃ w, step s = .next { s with
          irqPend := w, env := { s.env with inbox := rest, busResp := some ⟨0#32, false⟩ } } ∧
        ∀ b, b < 32 → w.getLsbD b = (s.irqPend.getLsbD b && !(v.getLsbD b && decide (b < 4)))) ∧
    (s.env.inbox = .bus (.write 0x020#32 32 v) :: rest →
      ∃ w, step s = .next { s with
          irqEn := w, env := { s.env with inbox := rest, busResp := some ⟨0#32, false⟩ } } ∧
        ∀ b, b < 32 → w.getLsbD b = (v.getLsbD b && decide (b < 4))) ∧
    (irqLine s = true ↔ ∃ b, b < 4 ∧ s.irqPend.getLsbD b = true ∧ s.irqEn.getLsbD b = true)

/-- R47, R61, R82, R86: a host write to a staging register, at STW(i) + off, is accepted. While UNINIT the register keeps
its named bits, as the next read of it shows; the write changes nothing but staging fields of that one slot, and every
other register of the slot's window reads as before. In another LIFE it changes nothing. The step takes the access off the
schedule and records its answer (log 1, 15). -/
def Obligations.StagingWritesOnlyInUninit : Prop :=
  ∀ (s : State) (i off : Nat) (v : Word32) (sl : Slot) (rest : List Event),
    s.slots[i]? = some sl → i < 32 → off % 4 = 0 →
    (off = 0x00 ∨ off = 0x08 ∨ off = 0x0C ∨ off = 0x10 ∨ (0x18 ≤ off ∧ off < 0x70)) →
    let reg := fun o : Nat => BitVec.ofNat 32 (0x100 + 0x100 * i + o)
    let env' := { s.env with inbox := rest, busResp := some ⟨0#32, false⟩ }
    s.env.inbox = .bus (.write (reg off) 32 v) :: rest →
    (s.life = .uninit →
      ∃ st' : Station,
        let t := { s with slots := s.slots.set i { sl with st := st' }, env := env' }
        step s = .next t ∧
        st' = { sl.st with
          desc := st'.desc, dfreq := st'.dfreq, csLen := st'.csLen, psLen := st'.psLen, rtLen := st'.rtLen
          csBuf := st'.csBuf, psBuf := st'.psBuf, rtBuf := st'.rtBuf } ∧
        busRead t (reg off) 32 =
          some (v &&& (if off = 0x00 then 0x3F#32 else if off = 0x10 then 0xFFFFFF#32 else 0xFFFFFFFF#32)) ∧
        (∀ o, o < 0x100 → o ≠ off → busRead t (reg o) 32 = busRead s (reg o) 32)) ∧
    (s.life ≠ .uninit → step s = .next { s with env := env' })

/-- R88, R89: sample m < OUT_LEN of the delivered block is at 0x0100_0000 + 8·m, its imaginary part 4 bytes on; from
OUT_LEN on the window reads 0, without error. -/
def Obligations.OutputWindowHoldsTheBlock : Prop :=
  ∀ (s : State) (m : Nat), s.slots.length ≤ 32 → s.outBuf.length = s.outLen → m < 0x200000 →
    (∀ z, s.outBuf[m]? = some z →
      busRead s (BitVec.ofNat 32 (0x01000000 + 8 * m)) 32 = some z.1 ∧
      busRead s (BitVec.ofNat 32 (0x01000000 + 8 * m + 4)) 32 = some z.2) ∧
    (s.outLen ≤ m →
      busRead s (BitVec.ofNat 32 (0x01000000 + 8 * m)) 32 = some 0#32 ∧
      busRead s (BitVec.ofNat 32 (0x01000000 + 8 * m + 4)) 32 = some 0#32)

/-! ## RDS encoder (41_rds.md) -/

/-- R207: `crc(m)` is the remainder of `m(x)·x¹⁰` by `g(x) = x¹⁰+x⁸+x⁷+x⁵+x⁴+x³+1` over GF(2): `m·x¹⁰` is `crc(m)` plus
the shifts of g selected by some quotient q (and crc(m) has degree below 10 by its width). It equals the bit-serial form, is linear, crc(0) = 0 and
crc(0x0001) = 0x1B9. -/
def Obligations.CrcIsThePolynomialRemainder : Prop :=
  (∀ m : BitVec 16, ∃ q : BitVec 16,
    m.setWidth 26 <<< 10 = (List.range 16).foldl
      (fun (acc : BitVec 26) k => if q.getLsbD k then acc ^^^ (0x5B9#26 <<< k) else acc) ((crc m).setWidth 26)) ∧
  (∀ m : BitVec 16, crc m = (List.range 16).foldl
    (fun (c : BitVec 10) k =>
      if (m.getLsbD (15 - k) ^^ c.getLsbD 9) = true then (c <<< 1) ^^^ 0x1B9#10 else c <<< 1) 0#10) ∧
  (∀ a b : BitVec 16, crc (a ^^^ b) = crc a ^^^ crc b) ∧ crc 0#16 = 0#10 ∧ crc 0x0001#16 = 0x1B9#10

/-- R208, R209: the 104 bits of a group are its four blocks in order, each 16 data bits and then the 10 bits of the check
word `crc(blk) ⊕ OFFSET`, most significant first. -/
def Obligations.SerialisedBitsInOrder : Prop :=
  ∀ (g : Group) (i : Fin 4) (k : Nat),
    let blk : Fin 4 → BitVec 16 := fun j => [g.a, g.b, g.c, g.d].getD j.val 0#16
    let off : Fin 4 → BitVec 10 := fun j => [0x0FC#10, 0x198#10, 0x168#10, 0x1B4#10].getD j.val 0#10
    (k < 16 → (serialise g).getMsbD (26 * i.val + k) = (blk i).getLsbD (15 - k)) ∧
    (k < 10 → (serialise g).getMsbD (26 * i.val + 16 + k) = (crc (blk i) ^^^ off i).getLsbD (9 - k))

/-- R200: group selection. A changed (or first) minute sends the clock-time group and leaves the cursors; otherwise the
cursor's 0A group or, at 4, the 2A group, whose index advances. One clock reading is made. -/
def Obligations.GroupSelection : Prop :=
  ∀ (slot : Nat) (st : Station) (f : Feed),
    let t := (clockRead slot f).1
    let r := st.rds
    let g := generateGroup slot st f
    g.2.2 = (clockRead slot f).2 ∧
    (r.lastMin ≠ some t.minute.val → g.1 = group4A st t ∧ g.2.1 = { r with lastMin := some t.minute.val }) ∧
    (r.lastMin = some t.minute.val → r.grpCur < 4 →
      g.1 = group0A st r.psIdx ∧ g.2.1 = { r with psIdx := (r.psIdx + 1) % 4, grpCur := r.grpCur + 1 }) ∧
    (r.lastMin = some t.minute.val → r.grpCur = 4 →
      g.1 = group2A st r.rtIdx ∧ g.2.1 = { r with rtIdx := (r.rtIdx + 1) % 16, grpCur := 0 })

/-- R201, R202, R204, R205, R206, with the decided flags: blocks A and B of the groups, the filler block C of 0A, and the
texts' bytes, in order; the Modified Julian Day, its floors those of exact rational numbers. -/
def Obligations.GroupLayouts : Prop :=
  (∀ y mo d : Nat,
    let l : ℚ := if mo ≤ 2 then 1 else 0
    mjd y mo d = 14956 + (d : Int) + ⌊((y : ℚ) - 1900 - l) * (36525 / 100)⌋ +
      ⌊((mo : ℚ) + 1 + 12 * l) * (306001 / 10000)⌋) ∧
  mjd 2026 11 11 = 61355 ∧
  ∀ (st : Station) (t : ClockReading) (g : Nat),
    (g < 4 → group0A st g =
      { a := st.pi, b := 0x0400#16 ||| BitVec.ofNat 16 g, c := 0xCDCD#16,
        d := st.psN.getD (2 * g) 0 ++ st.psN.getD (2 * g + 1) 0 }) ∧
    (g < 16 → group2A st g =
      { a := st.pi, b := 0x2400#16 ||| BitVec.ofNat 16 g,
        c := st.rtN.getD (4 * g) 0 ++ st.rtN.getD (4 * g + 1) 0,
        d := st.rtN.getD (4 * g + 2) 0 ++ st.rtN.getD (4 * g + 3) 0 }) ∧
    (let day := mjd (clockYear t) (clockMonth t) (clockDay t)
     group4A st t =
      { a := st.pi
        b := 0x4400#16 ||| BitVec.ofNat 16 (day.toNat / 2 ^ 15 % 4)
        c := BitVec.ofNat 16 (day.toNat % 2 ^ 15 * 2 + t.hour.val / 16)
        d := BitVec.ofNat 16 (t.hour.val % 16 * 2 ^ 12 + t.minute.val * 2 ^ 6 +
          (if clockOffset t < 0 then 32 else 0) + (clockOffset t).natAbs) })

/-- R215, R216, R218, R219: within a bit period RDS_SAMPLE reads and clears the envelope at RD_IDX, puts it on the
carrier cycle {0, +env, 0, −env}, advances RD_IDX, PHASE4 and SAMPLE_CNT, and changes nothing else: no bit, no group, no
clock reading. -/
def Obligations.RdsSampleWithinABit : Prop :=
  ∀ (p : Params) (slot : Nat) (st : Station) (f : Feed), st.rds.sampleCnt < 192 → st.rds.phase4 < 4 →
    let r := st.rds
    let env := r.ring.getD r.rdIdx F64.zero
    rdsSample p slot st f =
      (([F64.zero, env, F64.zero, env.neg] : List F64).getD r.phase4 F64.zero,
       { r with
         ring := r.ring.set r.rdIdx F64.zero
         rdIdx := (r.rdIdx + 1) % (192 + p.kernel.length)
         phase4 := (r.phase4 + 1) % 4
         sampleCnt := r.sampleCnt + 1 }, f)

/-- R210, R215 to R219: the whole sample that starts a bit, from a station whose cursors are in range. Where the buffer is
consumed (BIT_POS = 104) it first loads the next group: its 104 bits, BIT_POS 0, one clock reading. It then encodes the next
bit differentially, adds the kernel with that bit's sign at WR_IDX, moves WR_IDX by one bit period, and only then reads the
envelope at RD_IDX, puts it on the carrier cycle, clears the entry and advances. Nothing else changes. -/
def Obligations.RdsBitIsDifferentiallyEncoded : Prop :=
  ∀ (p : Params) (slot : Nat) (st : Station) (f : Feed), st.rds.sampleCnt = 192 → RdsInRange p st.rds →
    let len := 192 + p.kernel.length
    let g := generateGroup slot st f
    let r : Rds := if st.rds.bitPos = 104 then { g.2.1 with bitBuf := serialise g.1, bitPos := 0 } else st.rds
    let d := r.diffPrev ^^ r.bitBuf.getMsbD r.bitPos
    ∃ ring : List F64, ring.length = len ∧
      (∀ j, j < p.kernel.length →
        let k := p.kernel.getD j F64.zero
        ring.getD ((r.wrIdx + j) % len) F64.zero =
          (r.ring.getD ((r.wrIdx + j) % len) F64.zero).add (if d then k.neg else k)) ∧
      (∀ i, i < len → (∀ j, j < p.kernel.length → i ≠ (r.wrIdx + j) % len) →
        ring.getD i F64.zero = r.ring.getD i F64.zero) ∧
      rdsSample p slot st f =
        (let env := ring.getD r.rdIdx F64.zero
         (([F64.zero, env, F64.zero, env.neg] : List F64).getD r.phase4 F64.zero,
          { r with
            diffPrev := d
            ring := ring.set r.rdIdx F64.zero
            wrIdx := (r.wrIdx + 192) % len
            bitPos := r.bitPos + 1
            rdIdx := (r.rdIdx + 1) % len
            phase4 := (r.phase4 + 1) % 4
            sampleCnt := 1 },
          if st.rds.bitPos = 104 then g.2.2 else f))

/-! ## Modulator, bank, tuner and station run (42_mpx_fm.md, 43_polyphase_tuner.md) -/

/-- R251, R252, R254, R255: the MPX buffer. Each sample is made in order from the audio pair, the RDS sample made just
before it and the pilot counter Q12, which advances by 1 modulo 12; the pilot and the 38 kHz subcarrier are read from
SIN12 at Q12 and at 2·Q12 modulo 12; the sample handed on is divided by 10. -/
def Obligations.MpxBufferSampleBySample : Prop :=
  ∀ (p : Params) (slot : Nat) (a : AudioPair) (as : List AudioPair) (sl : Slot),
    let r : F64 := ⟨0x3FEBB67AE8584CAA#64⟩
    let h : F64 := ⟨0x3FE0000000000000#64⟩
    let tab : List F64 := [F64.zero, h, r, F64.one, r, h, F64.zero, h.neg, r.neg, F64.one.neg, r.neg, h.neg]
    let q := sl.st.q12
    let rds := rdsSample p slot sl.st sl.feed
    let aL := a.left.toF64
    let aR := a.right.toF64
    let mpx := (((p.gMono.mul (aL.add aR)).add (p.gStereo.mul ((aL.sub aR).mul (tab.getD ((2 * q) % 12) F64.zero)))).add
      (p.gPilot.mul (tab.getD q F64.zero))).add (p.gRds.mul rds.1)
    let next : Slot := { st := { sl.st with rds := rds.2.1, q12 := (q + 1) % 12 }, feed := rds.2.2 }
    mpxRun p slot [] sl = ([], sl) ∧
    mpxRun p slot (a :: as) sl =
      (mpx.div F64.ten :: (mpxRun p slot as next).1, (mpxRun p slot as next).2)

/-- R262, R264: the FM buffer. Each output is SINCOS_LUT of the phase after its own sample; the phase advances by
`WRAP(phase + SENS·x)` per sample, carried through the block. R260, R51, R52: WRAP of a phase of magnitude at most 2⁵⁰
(R263's bound) lies in (−π, π]; it is φ less a multiple of 2π, then, where that is over π or not over −π, 2π subtracted or
added. Two readings are the model's: the rounded quotient k is an integer, so a zero quotient gives k = +0.0 and
WRAP(−0.0) = −0.0 (log 16, DEDUCED); and that one turn of each loop is enough is inferred, where R260 says at most two. -/
def Obligations.FmFollowsThePhase : Prop :=
  ∀ (p : Params) (phase : F64) (xs : List F64),
    let after := fun n : Nat => (xs.take n).foldl (fun ph x => wrap (ph.add (p.sens.mul x))) phase
    (fmRun p phase xs).2 = after xs.length ∧
    (∀ n, n < xs.length → (fmRun p phase xs).1[n]? = some (sincosOf p (after (n + 1)))) ∧
    ∀ x : F64, x.isFinite = true → x.units ≤ 2 ^ 50 * F64.unitsOne →
      let rest := x.sub ((F64.ofInt (x.div F64.twoPi).toIntRne).mul F64.twoPi)
      let down := if F64.pi.lt rest then rest.sub F64.twoPi else rest
      wrap x = (if down.le F64.pi.neg then down.add F64.twoPi else down) ∧
      (wrap x).le F64.pi = true ∧ F64.pi.neg.lt (wrap x) = true

/-- R281, R282: output 10·n + b of the bank is branch b's 3-tap sum over input n and the two before it (the branch's
history where there are none), with coefficients PROTO[10k + b], summed from +0.0 upward per component; afterwards each
branch's history is the block's last two inputs. -/
def Obligations.BankOutputsAreBranchSums : Prop :=
  ∀ (par : Params) (hist : Vector (Cplx × Cplx) 10) (fm : List Cplx) (b : Fin 10),
    let back := fun (n k : Nat) => if k ≤ n then fm.getD (n - k) Cplx.zero
      else if k = n + 1 then hist[b].1 else hist[b].2
    let c := fun k : Nat => par.proto.getD (10 * k + b.val) F64.zero
    (∀ n, n < fm.length → (bank par hist fm).1[10 * n + b.val]? = some
      ⟨(((F64.zero.add ((c 0).mul (back n 0).re)).add ((c 1).mul (back n 1).re)).add ((c 2).mul (back n 2).re)),
       (((F64.zero.add ((c 0).mul (back n 0).im)).add ((c 1).mul (back n 1).im)).add ((c 2).mul (back n 2).im))⟩) ∧
    (0 < fm.length → (bank par hist fm).2[b] = (back (fm.length - 1) 0, back (fm.length - 1) 1))

/-- R297, R299: the tuner multiplies sample m by the phasor seeded at TUNER_PHASE and advanced m times; afterwards the
phase is `WRAP(θ0 − (2π·nf)·L)`, computed directly. -/
def Obligations.TunerAdvancesThePhasor : Prop :=
  ∀ (par : Params) (theta nf : F64) (inc : Cplx) (up : List Cplx),
    let r := tunerRun par theta nf inc up
    (∀ (m : Nat) (u : Cplx), up[m]? = some u →
      r.1[m]? = some (u.mul ((fun z : Cplx => z.mul inc)^[m] ⟨cosOf par theta, sinOf par theta⟩))) ∧
    r.1.length = up.length ∧ r.2 = wrap (theta.sub ((F64.twoPi.mul nf).mul (F64.ofNat up.length)))

/-- R304, R305, R306, R222: an out-of-band station's block is all zero, OOB_LAST is set and nothing else of the station
or its agents changes; a station whose audio pull fails contributes silence and no state of it advances but OOB_LAST and
the request made; every station block has 10·BLOCK samples. In the tick, with the tuning snapshot read (R96 (f); how the
model draws the choice is its own, log 3, 10), an out-of-band station changes its own slot alone, and a failed pull also sets
WARN.STATION_FAULT, and IRQ_PEND.WARN where that bit was 0 (R382). -/
def Obligations.SilentStationsDoNotAdvance : Prop :=
  (∀ (par : Params) (i n : Nat) (tn : Tuning) (sl : Slot),
    let oob := (F64.ofNat 1140000).lt (sl.st.freq.sub tn.tuned).abs
    (oob = true → stationRun par i n tn sl =
      ({ sl with st := { sl.st with out := List.replicate (10 * n) Cplx.zero, oobLast := true } }, false)) ∧
    (oob = false → (audioPull i n sl.feed).1 = none → stationRun par i n tn sl =
      ({ st := { sl.st with out := List.replicate (10 * n) Cplx.zero, oobLast := false },
         feed := (audioPull i n sl.feed).2 }, true)) ∧
    (stationRun par i n tn sl).1.st.out.length = 10 * n) ∧
  ∀ (s : State) (i : Nat) (sl : Slot), s.slots[i]? = some sl →
    let snap := readShared sl.st.tuning sl.st.tuneOld s.env
    let oob := (F64.ofNat 1140000).lt (sl.st.freq.sub snap.1.tuned).abs
    (oob = true → runSlot s i = { s with
      slots := s.slots.set i
        { sl with st := { sl.st with out := List.replicate (10 * s.block) Cplx.zero, oobLast := true } }
      env := snap.2 }) ∧
    (oob = false → (audioPull i s.block sl.feed).1 = none → runSlot s i = { s with
      slots := s.slots.set i
        { st := { sl.st with out := List.replicate (10 * s.block) Cplx.zero, oobLast := false }
          feed := (audioPull i s.block sl.feed).2 }
      warn := s.warn ||| 0x10#32
      irqPend := if s.warn &&& 0x10#32 = 0#32 then s.irqPend ||| 0x8#32 else s.irqPend
      env := snap.2 })

/-- R303: an in-band station whose audio answers clears OOB_LAST and runs the chain over the BLOCK pairs pulled: MPX with
RDS, FM from FM_PHASE, the bank from HIST, the tuner from TUNER_PHASE with the snapshot's NORMFC and TUNER_INC. Its block is
the tuner's; FM_PHASE, HIST, TUNER_PHASE, Q12, the RDS state and the agents' answers are those the chain leaves; nothing
else changes but the buffers of the tick, which stand until the next (log 8). Staging, what INIT recorded, the identity and
the tuning are kept. R222, R253: Q12 advances by BLOCK modulo 12 and PHASE4 by BLOCK modulo 4. In the tick the unit writes
its own slot alone, with the tuning snapshot read (R96 (f); how the model draws the choice is its own, log 3, 10). -/
def Obligations.InBandStationAdvancesByBlock : Prop :=
  (∀ (par : Params) (i n : Nat) (tn : Tuning) (sl : Slot) (xs : List AudioPair),
    (F64.ofNat 1140000).lt (sl.st.freq.sub tn.tuned).abs = false → (audioPull i n sl.feed).1 = some xs →
    let m := mpxRun par i xs { st := { sl.st with oobLast := false }, feed := (audioPull i n sl.feed).2 }
    let f := fmRun par sl.st.fmPhase m.1
    let b := bank par sl.st.hist f.1
    let t := tunerRun par sl.st.tunerPhase tn.normFc tn.inc b.1
    let r := stationRun par i n tn sl
    xs.length = n ∧
    r = ({ feed := m.2.feed
           st := { sl.st with
             oobLast := false, rds := m.2.st.rds, q12 := m.2.st.q12, fmPhase := f.2, hist := b.2
             tunerPhase := t.2, out := t.1, mpxBuf := m.1, fmBuf := f.1, upBuf := b.1 } }, false) ∧
    r.1.st.kept = sl.st.kept ∧
    (sl.st.q12 < 12 → r.1.st.q12 = (sl.st.q12 + n) % 12) ∧
    (sl.st.rds.phase4 < 4 → r.1.st.rds.phase4 = (sl.st.rds.phase4 + n) % 4)) ∧
  ∀ (s : State) (i : Nat) (sl : Slot), s.slots[i]? = some sl →
    let snap := readShared sl.st.tuning sl.st.tuneOld s.env
    (F64.ofNat 1140000).lt (sl.st.freq.sub snap.1.tuned).abs = false → (audioPull i s.block sl.feed).1 ≠ none →
    runSlot s i = { s with slots := s.slots.set i (stationRun s.par i s.block snap.1 sl).1, env := snap.2 }

/-- R98, R303: the station units of one tick may finish in any order: where no retune fell within the tick, any two orders
of the same units leave the same state (log 10, 29). -/
def Obligations.StationOrderUnobservable : Prop :=
  ∀ (s : State) (l l' : List Nat), l.Nodup → l.Perm l' → (∀ sl ∈ s.slots, sl.st.tuneOld = []) →
    l.foldl runSlot s = l'.foldl runSlot s

/-! ## Tick stages (44_backend.md) -/

/-- R325, R327: sample i of the mix is the sum, from +0.0 and in ascending slot order, of the active stations' samples i;
a block of the wrong length is skipped and reported. -/
def Obligations.MixerSumsActiveStations : Prop :=
  ∀ (len : Nat) (slots : List Slot),
    let blocks := (slots.filter fun sl => sl.st.status == .active).map fun sl => sl.st.out
    (mixer len slots).1.length = len ∧
    (∀ i, i < len → (mixer len slots).1[i]? = some
      ((blocks.filter fun o => o.length == len).foldl (fun acc o => acc.add (o.getD i Cplx.zero)) Cplx.zero)) ∧
    ((mixer len slots).2 = true ↔ ∃ o ∈ blocks, o.length ≠ len)

/-- R335: sample k of the filtered block is `Σ_{j=0}^{min(k, T−1)} c[j]·MIX[k−j]` from +0.0 upward in j; the length is
that of the input. -/
def Obligations.RateFilterIsCausalConvolution : Prop :=
  ∀ (c : List F64) (mix : List Cplx),
    (rateFilter c mix).length = mix.length ∧
    ∀ k, k < mix.length → (rateFilter c mix)[k]? = some
      ((List.range (min (k + 1) c.length)).foldl
        (fun acc j => acc.add (Cplx.scale (c.getD j F64.zero) (mix.getD (k - j) Cplx.zero))) Cplx.zero)

/-- R336: filtering a unit impulse of length L ≥ T reproduces the coefficients, exactly, as values (both zeros alike). -/
def Obligations.ImpulseReproducesCoefficients : Prop :=
  ∀ (c : List F64) (len : Nat), (∀ x ∈ c, x.isFinite = true) → c.length ≤ len → 0 < len →
    let y := rateFilter c (⟨F64.one, F64.zero⟩ :: List.replicate (len - 1) Cplx.zero)
    y.length = len ∧
    ∀ k, k < len → ((y.getD k Cplx.zero).re.eq (c.getD k F64.zero)) = true ∧
      ((y.getD k Cplx.zero).im.eq F64.zero) = true

/-- R330, R340: the noise table is added cyclically, from index 0 in every tick; decimation by N ≥ 1 keeps ceil(L / N)
samples, every N-th from index 0, all within the block, and N = 1 keeps the block. -/
def Obligations.DecimatorKeepsEveryNth : Prop :=
  ∀ (n : Nat) (y tab : List Cplx), 1 ≤ n →
    (noiseAdd n tab y).length = y.length ∧
    (∀ (i : Nat) (z : Cplx), y[i]? = some z →
      (noiseAdd n tab y)[i]? = some ⟨z.re.add (tab.getD (i % n) Cplx.zero).re, z.im.add (tab.getD (i % n) Cplx.zero).im⟩) ∧
    (decimate n y).length = (y.length + n - 1) / n ∧
    (∀ m, m < (y.length + n - 1) / n → m * n < y.length ∧ (decimate n y)[m]? = y[m * n]?) ∧
    (n = 1 → decimate n y = y)

/-- R320, R98: one progress of a tick in RUNNING, at each stage it can stand at. While station units remain, one of them
runs and leaves the list, and each of them can be the one (what its run does: InBandStationAdvancesByBlock,
SilentStationsDoNotAdvance). Then MIXER (R325); the noise table added where NOISE_EN (R330); RATE_FILTER (R335); DECIMATE
(R340); GAIN_APPLY, every sample times `EXP10(g/10)` (R345); and delivery, which writes OUT_BUF as binary32 pairs, OUT_LEN
and TICK_COUNT (modulo 2³²), sets IRQ_PEND.BLOCK, emits the binary64 block and ends the tick (R348, R88). Nothing else
changes. Each shared resource is read at its stage, old or new (R96, TickReadsOldOrNew). The progress event (log 2), the
stage a tick stands at and the draws (log 3, 10) and the field `delivered` (log 15) are the model's own. -/
def Obligations.TickProgressesStageByStage : Prop :=
  (∀ (par : Params) (g : F64) (d : List Cplx),
    gainApply par g d = d.map fun z => ⟨(exp10Of par (g.div F64.ten)).mul z.re, (exp10Of par (g.div F64.ten)).mul z.im⟩) ∧
  ∀ (s : State) (rest : List Event), s.env.inbox = .advance :: rest →
    let env' := { s.env with inbox := rest }
    let en := readShared s.noiseEn s.old.noiseEn env'
    let tab := readShared s.noiseTab s.old.noiseTab en.2
    let c := readShared s.rateCoef s.old.rateCoef env'
    let n := readShared s.decim s.old.decim env'
    let g := readShared s.gainDb s.old.gainDb env'
    let mix := mixer (10 * s.block) s.slots
    (∀ todo, s.tick = .stations todo → todo ≠ [] →
      (∃ i ∈ todo, ∃ ps k, step s = .next
        { runSlot { s with env := { env' with picks := ps, pickDraws := k } } i with tick := .stations (todo.erase i) }) ∧
      ∀ i ∈ todo, ∃ k, ∀ ks, step { s with env := { s.env with picks := k :: ks } } = .next
        { runSlot { s with env := { env' with picks := ks, pickDraws := s.env.pickDraws + 1 } } i with
          tick := .stations (todo.erase i) }) ∧
    (s.tick = .stations [] → step s = .next { s with
      mixBuf := mix.1
      tick := .mixed
      warn := if mix.2 then s.warn ||| 0x2#32 else s.warn
      irqPend := if mix.2 = true ∧ s.warn &&& 0x2#32 = 0#32 then s.irqPend ||| 0x8#32 else s.irqPend
      env := env' }) ∧
    (s.tick = .mixed → step s = .next { s with
      mixBuf := if en.1 then noiseAdd s.par.noiseLen tab.1 s.mixBuf else s.mixBuf
      tick := .noised
      env := tab.2 }) ∧
    (s.tick = .noised → step s = .next { s with tick := .filtered (rateFilter c.1 s.mixBuf), env := c.2 }) ∧
    (∀ y, s.tick = .filtered y → step s = .next { s with tick := .decimated (decimate n.1 y), env := n.2 }) ∧
    (∀ d, s.tick = .decimated d → step s = .next { s with tick := .gained (gainApply s.par g.1 d), env := g.2 }) ∧
    (∀ o, s.tick = .gained o → step s = .next { s with
      outBuf := o.map fun z => (z.re.toF32, z.im.toF32)
      outLen := o.length
      tickCount := s.tickCount + 1#32
      irqPend := s.irqPend ||| 0x1#32
      tick := .idle
      env := { env' with delivered := s.env.delivered ++ [o] } })

/-! ## Timer and concurrency (60_exceptions.md, 20_memory.md) -/

/-- R391, R392: a firing while RUNNING, with no tick in progress, sets WARN.LAG where the lag test holds (IRQ_PEND.WARN
where that bit was 0), moves the deadline by one PERIOD, and starts a tick of the active stations, with nothing replaced
yet; nothing else changes. The firing event with its lag outcome is the model's (log 2), and so are the deadline's form and
PERIOD as BLOCK base-rate sample times (log 9), and the tick's stages (log 10). -/
def Obligations.TimerFiringStartsATick : Prop :=
  ∀ (s : State) (lag : Bool) (rest : List Event),
    s.env.inbox = .fire lag :: rest → s.life = .running → s.tick = .idle →
    step s = .next { s with
      warn := if lag then s.warn ||| 0x1#32 else s.warn
      irqPend := if lag = true ∧ s.warn &&& 0x1#32 = 0#32 then s.irqPend ||| 0x8#32 else s.irqPend
      nextDeadline := s.nextDeadline.map fun d => { d with offset := d.offset + s.block }
      tick := .stations ((List.range s.slots.length).filter fun i =>
        (s.slots[i]?).elim false fun sl => sl.st.status == .active)
      old := ⟨[], [], [], [], []⟩
      slots := s.slots.map fun sl => { sl with st := { sl.st with tuneOld := [] } }
      env := { s.env with inbox := rest } }

/-- R393, R395: unless RUNNING the block changes only in response to host accesses: a timer event or the progress of a
tick leaves everything but the schedule (log 2) as it was. -/
def Obligations.OnlyTheHostActsUnlessRunning : Prop :=
  ∀ (s t : State) (ev : Event) (rest : List Event), LifeConsistent s → s.life ≠ .running →
    s.env.inbox = ev :: rest → (∀ op, ev ≠ .bus op) → step s = .next t →
    t = { s with env := { s.env with inbox := rest } }

/-- R96: a tick reads a shared resource, of whatever type, as its value or one replaced during the tick, and every one of
these is possible, whatever is read next. How the model draws the choice is its own (log 3, 10). -/
def Obligations.TickReadsOldOrNew : Prop :=
  ∀ (α : Type) (now : α) (olds : List α) (e : Env),
    (readShared now olds e).1 ∈ now :: olds ∧
    ∀ v ∈ now :: olds, ∀ ks : List Nat, ∃ k,
      (readShared now olds { e with picks := k ++ ks }).1 = v ∧
      (readShared now olds { e with picks := k ++ ks }).2.picks = ks

/-- R97: a SET_SAMPLE_RATE that fell within a tick, before its rate filter, can pair the old filter with the new
decimation factor or the reverse: all four pairings are possible (as the model stages a tick: log 10). -/
def Obligations.RateChangeCanPairOldAndNew : Prop :=
  ∀ (s : State) (c0 : List F64) (n0 : Nat), s.tick = .noised → s.old.rateCoef = [c0] → s.old.decim = [n0] →
    ∀ c ∈ [s.rateCoef, c0], ∀ n ∈ [s.decim, n0], ∃ ks t u,
      step { s with env := { s.env with inbox := [.advance, .advance], picks := ks } } = .next t ∧
      step t = .next u ∧ u.tick = .decimated (decimate n (rateFilter c s.mixBuf))

/-! ## Invariants: every step keeps them, from every state -/

/-- R42, R43, R45: SAMPLE_RATE stays a valid rate with DECIM = MAX_RATE / SAMPLE_RATE exactly, RATE_COEF stays that of
DECIM, and the noise table keeps its length. -/
def Obligations.SettingsStayConsistent : Prop :=
  ∀ s t : State, SettingsConsistent s → step s = .next t → SettingsConsistent t

/-- R32, R39, R46, R48: BLOCK and stations exist exactly from INIT to RESET, the deadline exactly while RUNNING, and a
tick stays in progress between steps only while RUNNING (the model's form of a deadline and of a tick: log 9, 10). -/
def Obligations.LifeStaysConsistent : Prop :=
  ∀ s t : State, LifeConsistent s → step s = .next t → LifeConsistent t

/-- R306, R326, R38, R89: the blocks of a tick keep the rules' lengths, WARN.LEN_MISMATCH is never set, OUT_BUF holds
OUT_LEN samples and they fit the output window. -/
def Obligations.BuffersStayConsistent : Prop :=
  ∀ s t : State, BuffersConsistent s → step s = .next t → BuffersConsistent t

/-- R253: the RDS carrier stays locked to the pilot. -/
def Obligations.PilotStaysLocked : Prop :=
  ∀ s t : State, PhaseLocked s → step s = .next t → PhaseLocked t

/-- R56, R218: the RDS cursors stay in their ranges, and RD_IDX meets WR_IDX at the start of every bit period. -/
def Obligations.RdsCursorsStayInRange : Prop :=
  ∀ s t : State, CursorsInRange s → step s = .next t → CursorsInRange t

/-- R284: the ten histories of a station stay equal. -/
def Obligations.HistoriesStayEqual : Prop :=
  ∀ s t : State, HistoriesAgree s → step s = .next t → HistoriesAgree t

/-- R33, R34, R35: no step sets an unnamed bit of CMD_STATUS, WARN, IRQ_EN or IRQ_PEND. -/
def Obligations.ReservedBitsStayZero : Prop :=
  ∀ s t : State, ReservedBitsZero s → step s = .next t → ReservedBitsZero t

/-- R410: the machine after power-on has every one of the invariants. -/
def Obligations.PowerOnHasTheInvariants : Prop :=
  SettingsConsistent State.reset ∧ LifeConsistent State.reset ∧ BuffersConsistent State.reset ∧
    PhaseLocked State.reset ∧ CursorsInRange State.reset ∧ HistoriesAgree State.reset ∧ ReservedBitsZero State.reset

/-- R49, R48, R5: no step, from any state, changes the parameters or the number of slots (that the parameters stand in the
state is the model's, log 4); and while stations exist, no step changes a station's identity (FREQ, call sign, PS, RT, PI)
or what INIT recorded, unless it returns the block to UNINIT. -/
def Obligations.StationIdentityIsImmutable : Prop :=
  ∀ s t : State, step s = .next t →
    t.par = s.par ∧ t.slots.length = s.slots.length ∧
    (s.life ≠ .uninit → t.life = .uninit ∨
      t.slots.map (fun sl => (sl.st.freq, sl.st.csN, sl.st.psN, sl.st.rtN, sl.st.pi, sl.st.status, sl.st.code)) =
      s.slots.map (fun sl => (sl.st.freq, sl.st.csN, sl.st.psN, sl.st.rtN, sl.st.pi, sl.st.status, sl.st.code)))
end

