-- ==== Sys2Proof/Laws/State.lean ====
section
/-! SUPPORT. The small lemmas of State: what each named update does to each field, so that no later proof unfolds a
record update. -/

namespace Sys2Proof.Machine

/-! ### setPend -/

@[simp] theorem setPend_par (b : Word32) (s : State) : (setPend b s).par = s.par := rfl
@[simp] theorem setPend_life (b : Word32) (s : State) : (setPend b s).life = s.life := rfl
@[simp] theorem setPend_cmdStatus (b : Word32) (s : State) : (setPend b s).cmdStatus = s.cmdStatus := rfl
@[simp] theorem setPend_warn (b : Word32) (s : State) : (setPend b s).warn = s.warn := rfl
@[simp] theorem setPend_irqEn (b : Word32) (s : State) : (setPend b s).irqEn = s.irqEn := rfl
@[simp] theorem setPend_irqPend (b : Word32) (s : State) : (setPend b s).irqPend = s.irqPend ||| b := rfl
@[simp] theorem setPend_arg0 (b : Word32) (s : State) : (setPend b s).arg0 = s.arg0 := rfl
@[simp] theorem setPend_tickCount (b : Word32) (s : State) : (setPend b s).tickCount = s.tickCount := rfl
@[simp] theorem setPend_outLen (b : Word32) (s : State) : (setPend b s).outLen = s.outLen := rfl
@[simp] theorem setPend_outBuf (b : Word32) (s : State) : (setPend b s).outBuf = s.outBuf := rfl
@[simp] theorem setPend_nextDeadline (b : Word32) (s : State) : (setPend b s).nextDeadline = s.nextDeadline := rfl
@[simp] theorem setPend_centerFreq (b : Word32) (s : State) : (setPend b s).centerFreq = s.centerFreq := rfl
@[simp] theorem setPend_gainDb (b : Word32) (s : State) : (setPend b s).gainDb = s.gainDb := rfl
@[simp] theorem setPend_sampleRate (b : Word32) (s : State) : (setPend b s).sampleRate = s.sampleRate := rfl
@[simp] theorem setPend_decim (b : Word32) (s : State) : (setPend b s).decim = s.decim := rfl
@[simp] theorem setPend_rateCoef (b : Word32) (s : State) : (setPend b s).rateCoef = s.rateCoef := rfl
@[simp] theorem setPend_noiseEn (b : Word32) (s : State) : (setPend b s).noiseEn = s.noiseEn := rfl
@[simp] theorem setPend_noiseSigma (b : Word32) (s : State) : (setPend b s).noiseSigma = s.noiseSigma := rfl
@[simp] theorem setPend_noiseTab (b : Word32) (s : State) : (setPend b s).noiseTab = s.noiseTab := rfl
@[simp] theorem setPend_block (b : Word32) (s : State) : (setPend b s).block = s.block := rfl
@[simp] theorem setPend_slots (b : Word32) (s : State) : (setPend b s).slots = s.slots := rfl
@[simp] theorem setPend_mixBuf (b : Word32) (s : State) : (setPend b s).mixBuf = s.mixBuf := rfl
@[simp] theorem setPend_tick (b : Word32) (s : State) : (setPend b s).tick = s.tick := rfl
@[simp] theorem setPend_old (b : Word32) (s : State) : (setPend b s).old = s.old := rfl
@[simp] theorem setPend_env (b : Word32) (s : State) : (setPend b s).env = s.env := rfl

/-! ### setWarn -/

@[simp] theorem setWarn_par (b : Word32) (s : State) : (setWarn b s).par = s.par := rfl
@[simp] theorem setWarn_life (b : Word32) (s : State) : (setWarn b s).life = s.life := rfl
@[simp] theorem setWarn_cmdStatus (b : Word32) (s : State) : (setWarn b s).cmdStatus = s.cmdStatus := rfl
@[simp] theorem setWarn_warn (b : Word32) (s : State) : (setWarn b s).warn = s.warn ||| b := rfl
@[simp] theorem setWarn_irqEn (b : Word32) (s : State) : (setWarn b s).irqEn = s.irqEn := rfl
@[simp] theorem setWarn_irqPend (b : Word32) (s : State) : (setWarn b s).irqPend = if s.warn &&& b = 0#32 then s.irqPend ||| irqWarn else s.irqPend := rfl
@[simp] theorem setWarn_arg0 (b : Word32) (s : State) : (setWarn b s).arg0 = s.arg0 := rfl
@[simp] theorem setWarn_tickCount (b : Word32) (s : State) : (setWarn b s).tickCount = s.tickCount := rfl
@[simp] theorem setWarn_outLen (b : Word32) (s : State) : (setWarn b s).outLen = s.outLen := rfl
@[simp] theorem setWarn_outBuf (b : Word32) (s : State) : (setWarn b s).outBuf = s.outBuf := rfl
@[simp] theorem setWarn_nextDeadline (b : Word32) (s : State) : (setWarn b s).nextDeadline = s.nextDeadline := rfl
@[simp] theorem setWarn_centerFreq (b : Word32) (s : State) : (setWarn b s).centerFreq = s.centerFreq := rfl
@[simp] theorem setWarn_gainDb (b : Word32) (s : State) : (setWarn b s).gainDb = s.gainDb := rfl
@[simp] theorem setWarn_sampleRate (b : Word32) (s : State) : (setWarn b s).sampleRate = s.sampleRate := rfl
@[simp] theorem setWarn_decim (b : Word32) (s : State) : (setWarn b s).decim = s.decim := rfl
@[simp] theorem setWarn_rateCoef (b : Word32) (s : State) : (setWarn b s).rateCoef = s.rateCoef := rfl
@[simp] theorem setWarn_noiseEn (b : Word32) (s : State) : (setWarn b s).noiseEn = s.noiseEn := rfl
@[simp] theorem setWarn_noiseSigma (b : Word32) (s : State) : (setWarn b s).noiseSigma = s.noiseSigma := rfl
@[simp] theorem setWarn_noiseTab (b : Word32) (s : State) : (setWarn b s).noiseTab = s.noiseTab := rfl
@[simp] theorem setWarn_block (b : Word32) (s : State) : (setWarn b s).block = s.block := rfl
@[simp] theorem setWarn_slots (b : Word32) (s : State) : (setWarn b s).slots = s.slots := rfl
@[simp] theorem setWarn_mixBuf (b : Word32) (s : State) : (setWarn b s).mixBuf = s.mixBuf := rfl
@[simp] theorem setWarn_tick (b : Word32) (s : State) : (setWarn b s).tick = s.tick := rfl
@[simp] theorem setWarn_old (b : Word32) (s : State) : (setWarn b s).old = s.old := rfl
@[simp] theorem setWarn_env (b : Word32) (s : State) : (setWarn b s).env = s.env := rfl

/-! ### setWarnIf -/

@[simp] theorem setWarnIf_par (c : Bool) (b : Word32) (s : State) : (setWarnIf c b s).par = s.par := by cases c <;> simp [setWarnIf]
@[simp] theorem setWarnIf_life (c : Bool) (b : Word32) (s : State) : (setWarnIf c b s).life = s.life := by cases c <;> simp [setWarnIf]
@[simp] theorem setWarnIf_cmdStatus (c : Bool) (b : Word32) (s : State) : (setWarnIf c b s).cmdStatus = s.cmdStatus := by cases c <;> simp [setWarnIf]
@[simp] theorem setWarnIf_warn (c : Bool) (b : Word32) (s : State) : (setWarnIf c b s).warn = if c then s.warn ||| b else s.warn := by cases c <;> simp [setWarnIf]
@[simp] theorem setWarnIf_irqEn (c : Bool) (b : Word32) (s : State) : (setWarnIf c b s).irqEn = s.irqEn := by cases c <;> simp [setWarnIf]
@[simp] theorem setWarnIf_irqPend (c : Bool) (b : Word32) (s : State) : (setWarnIf c b s).irqPend = if c = true ∧ s.warn &&& b = 0#32 then s.irqPend ||| irqWarn else s.irqPend := by cases c <;> simp [setWarnIf]
@[simp] theorem setWarnIf_arg0 (c : Bool) (b : Word32) (s : State) : (setWarnIf c b s).arg0 = s.arg0 := by cases c <;> simp [setWarnIf]
@[simp] theorem setWarnIf_tickCount (c : Bool) (b : Word32) (s : State) : (setWarnIf c b s).tickCount = s.tickCount := by cases c <;> simp [setWarnIf]
@[simp] theorem setWarnIf_outLen (c : Bool) (b : Word32) (s : State) : (setWarnIf c b s).outLen = s.outLen := by cases c <;> simp [setWarnIf]
@[simp] theorem setWarnIf_outBuf (c : Bool) (b : Word32) (s : State) : (setWarnIf c b s).outBuf = s.outBuf := by cases c <;> simp [setWarnIf]
@[simp] theorem setWarnIf_nextDeadline (c : Bool) (b : Word32) (s : State) : (setWarnIf c b s).nextDeadline = s.nextDeadline := by cases c <;> simp [setWarnIf]
@[simp] theorem setWarnIf_centerFreq (c : Bool) (b : Word32) (s : State) : (setWarnIf c b s).centerFreq = s.centerFreq := by cases c <;> simp [setWarnIf]
@[simp] theorem setWarnIf_gainDb (c : Bool) (b : Word32) (s : State) : (setWarnIf c b s).gainDb = s.gainDb := by cases c <;> simp [setWarnIf]
@[simp] theorem setWarnIf_sampleRate (c : Bool) (b : Word32) (s : State) : (setWarnIf c b s).sampleRate = s.sampleRate := by cases c <;> simp [setWarnIf]
@[simp] theorem setWarnIf_decim (c : Bool) (b : Word32) (s : State) : (setWarnIf c b s).decim = s.decim := by cases c <;> simp [setWarnIf]
@[simp] theorem setWarnIf_rateCoef (c : Bool) (b : Word32) (s : State) : (setWarnIf c b s).rateCoef = s.rateCoef := by cases c <;> simp [setWarnIf]
@[simp] theorem setWarnIf_noiseEn (c : Bool) (b : Word32) (s : State) : (setWarnIf c b s).noiseEn = s.noiseEn := by cases c <;> simp [setWarnIf]
@[simp] theorem setWarnIf_noiseSigma (c : Bool) (b : Word32) (s : State) : (setWarnIf c b s).noiseSigma = s.noiseSigma := by cases c <;> simp [setWarnIf]
@[simp] theorem setWarnIf_noiseTab (c : Bool) (b : Word32) (s : State) : (setWarnIf c b s).noiseTab = s.noiseTab := by cases c <;> simp [setWarnIf]
@[simp] theorem setWarnIf_block (c : Bool) (b : Word32) (s : State) : (setWarnIf c b s).block = s.block := by cases c <;> simp [setWarnIf]
@[simp] theorem setWarnIf_slots (c : Bool) (b : Word32) (s : State) : (setWarnIf c b s).slots = s.slots := by cases c <;> simp [setWarnIf]
@[simp] theorem setWarnIf_mixBuf (c : Bool) (b : Word32) (s : State) : (setWarnIf c b s).mixBuf = s.mixBuf := by cases c <;> simp [setWarnIf]
@[simp] theorem setWarnIf_tick (c : Bool) (b : Word32) (s : State) : (setWarnIf c b s).tick = s.tick := by cases c <;> simp [setWarnIf]
@[simp] theorem setWarnIf_old (c : Bool) (b : Word32) (s : State) : (setWarnIf c b s).old = s.old := by cases c <;> simp [setWarnIf]
@[simp] theorem setWarnIf_env (c : Bool) (b : Word32) (s : State) : (setWarnIf c b s).env = s.env := by cases c <;> simp [setWarnIf]

/-! ### complete -/

@[simp] theorem complete_par (op : BitVec 8) (c : ResultCode) (s : State) : (complete op c s).par = s.par := rfl
@[simp] theorem complete_life (op : BitVec 8) (c : ResultCode) (s : State) : (complete op c s).life = s.life := rfl
@[simp] theorem complete_cmdStatus (op : BitVec 8) (c : ResultCode) (s : State) : (complete op c s).cmdStatus = 0#16 ++ op ++ c.byte := rfl
@[simp] theorem complete_warn (op : BitVec 8) (c : ResultCode) (s : State) : (complete op c s).warn = s.warn := rfl
@[simp] theorem complete_irqEn (op : BitVec 8) (c : ResultCode) (s : State) : (complete op c s).irqEn = s.irqEn := rfl
@[simp] theorem complete_irqPend (op : BitVec 8) (c : ResultCode) (s : State) : (complete op c s).irqPend = s.irqPend ||| (if c.isError then irqCmdDone ||| irqErr else irqCmdDone) := rfl
@[simp] theorem complete_arg0 (op : BitVec 8) (c : ResultCode) (s : State) : (complete op c s).arg0 = s.arg0 := rfl
@[simp] theorem complete_tickCount (op : BitVec 8) (c : ResultCode) (s : State) : (complete op c s).tickCount = s.tickCount := rfl
@[simp] theorem complete_outLen (op : BitVec 8) (c : ResultCode) (s : State) : (complete op c s).outLen = s.outLen := rfl
@[simp] theorem complete_outBuf (op : BitVec 8) (c : ResultCode) (s : State) : (complete op c s).outBuf = s.outBuf := rfl
@[simp] theorem complete_nextDeadline (op : BitVec 8) (c : ResultCode) (s : State) : (complete op c s).nextDeadline = s.nextDeadline := rfl
@[simp] theorem complete_centerFreq (op : BitVec 8) (c : ResultCode) (s : State) : (complete op c s).centerFreq = s.centerFreq := rfl
@[simp] theorem complete_gainDb (op : BitVec 8) (c : ResultCode) (s : State) : (complete op c s).gainDb = s.gainDb := rfl
@[simp] theorem complete_sampleRate (op : BitVec 8) (c : ResultCode) (s : State) : (complete op c s).sampleRate = s.sampleRate := rfl
@[simp] theorem complete_decim (op : BitVec 8) (c : ResultCode) (s : State) : (complete op c s).decim = s.decim := rfl
@[simp] theorem complete_rateCoef (op : BitVec 8) (c : ResultCode) (s : State) : (complete op c s).rateCoef = s.rateCoef := rfl
@[simp] theorem complete_noiseEn (op : BitVec 8) (c : ResultCode) (s : State) : (complete op c s).noiseEn = s.noiseEn := rfl
@[simp] theorem complete_noiseSigma (op : BitVec 8) (c : ResultCode) (s : State) : (complete op c s).noiseSigma = s.noiseSigma := rfl
@[simp] theorem complete_noiseTab (op : BitVec 8) (c : ResultCode) (s : State) : (complete op c s).noiseTab = s.noiseTab := rfl
@[simp] theorem complete_block (op : BitVec 8) (c : ResultCode) (s : State) : (complete op c s).block = s.block := rfl
@[simp] theorem complete_slots (op : BitVec 8) (c : ResultCode) (s : State) : (complete op c s).slots = s.slots := rfl
@[simp] theorem complete_mixBuf (op : BitVec 8) (c : ResultCode) (s : State) : (complete op c s).mixBuf = s.mixBuf := rfl
@[simp] theorem complete_tick (op : BitVec 8) (c : ResultCode) (s : State) : (complete op c s).tick = s.tick := rfl
@[simp] theorem complete_old (op : BitVec 8) (c : ResultCode) (s : State) : (complete op c s).old = s.old := rfl
@[simp] theorem complete_env (op : BitVec 8) (c : ResultCode) (s : State) : (complete op c s).env = s.env := rfl

/-! ### raise -/

@[simp] theorem raise_par (i : Instr) (c : ResultCode) (s : State) : (raise i c s).par = s.par := rfl
@[simp] theorem raise_life (i : Instr) (c : ResultCode) (s : State) : (raise i c s).life = s.life := rfl
@[simp] theorem raise_cmdStatus (i : Instr) (c : ResultCode) (s : State) : (raise i c s).cmdStatus = 0#16 ++ i.opcode ++ c.byte := rfl
@[simp] theorem raise_warn (i : Instr) (c : ResultCode) (s : State) : (raise i c s).warn = s.warn := rfl
@[simp] theorem raise_irqEn (i : Instr) (c : ResultCode) (s : State) : (raise i c s).irqEn = s.irqEn := rfl
@[simp] theorem raise_irqPend (i : Instr) (c : ResultCode) (s : State) : (raise i c s).irqPend = s.irqPend ||| (if c.isError then irqCmdDone ||| irqErr else irqCmdDone) := rfl
@[simp] theorem raise_arg0 (i : Instr) (c : ResultCode) (s : State) : (raise i c s).arg0 = s.arg0 := rfl
@[simp] theorem raise_tickCount (i : Instr) (c : ResultCode) (s : State) : (raise i c s).tickCount = s.tickCount := rfl
@[simp] theorem raise_outLen (i : Instr) (c : ResultCode) (s : State) : (raise i c s).outLen = s.outLen := rfl
@[simp] theorem raise_outBuf (i : Instr) (c : ResultCode) (s : State) : (raise i c s).outBuf = s.outBuf := rfl
@[simp] theorem raise_nextDeadline (i : Instr) (c : ResultCode) (s : State) : (raise i c s).nextDeadline = s.nextDeadline := rfl
@[simp] theorem raise_centerFreq (i : Instr) (c : ResultCode) (s : State) : (raise i c s).centerFreq = s.centerFreq := rfl
@[simp] theorem raise_gainDb (i : Instr) (c : ResultCode) (s : State) : (raise i c s).gainDb = s.gainDb := rfl
@[simp] theorem raise_sampleRate (i : Instr) (c : ResultCode) (s : State) : (raise i c s).sampleRate = s.sampleRate := rfl
@[simp] theorem raise_decim (i : Instr) (c : ResultCode) (s : State) : (raise i c s).decim = s.decim := rfl
@[simp] theorem raise_rateCoef (i : Instr) (c : ResultCode) (s : State) : (raise i c s).rateCoef = s.rateCoef := rfl
@[simp] theorem raise_noiseEn (i : Instr) (c : ResultCode) (s : State) : (raise i c s).noiseEn = s.noiseEn := rfl
@[simp] theorem raise_noiseSigma (i : Instr) (c : ResultCode) (s : State) : (raise i c s).noiseSigma = s.noiseSigma := rfl
@[simp] theorem raise_noiseTab (i : Instr) (c : ResultCode) (s : State) : (raise i c s).noiseTab = s.noiseTab := rfl
@[simp] theorem raise_block (i : Instr) (c : ResultCode) (s : State) : (raise i c s).block = s.block := rfl
@[simp] theorem raise_slots (i : Instr) (c : ResultCode) (s : State) : (raise i c s).slots = s.slots := rfl
@[simp] theorem raise_mixBuf (i : Instr) (c : ResultCode) (s : State) : (raise i c s).mixBuf = s.mixBuf := rfl
@[simp] theorem raise_tick (i : Instr) (c : ResultCode) (s : State) : (raise i c s).tick = s.tick := rfl
@[simp] theorem raise_old (i : Instr) (c : ResultCode) (s : State) : (raise i c s).old = s.old := rfl
@[simp] theorem raise_env (i : Instr) (c : ResultCode) (s : State) : (raise i c s).env = s.env := rfl

/-! ### illegalCommand -/

@[simp] theorem illegalCommand_par (w : Word32) (s : State) : (illegalCommand w s).par = s.par := rfl
@[simp] theorem illegalCommand_life (w : Word32) (s : State) : (illegalCommand w s).life = s.life := rfl
@[simp] theorem illegalCommand_cmdStatus (w : Word32) (s : State) : (illegalCommand w s).cmdStatus = 0#16 ++ opcodeField w ++ 0x06#8 := rfl
@[simp] theorem illegalCommand_warn (w : Word32) (s : State) : (illegalCommand w s).warn = s.warn := rfl
@[simp] theorem illegalCommand_irqEn (w : Word32) (s : State) : (illegalCommand w s).irqEn = s.irqEn := rfl
@[simp] theorem illegalCommand_irqPend (w : Word32) (s : State) : (illegalCommand w s).irqPend = s.irqPend ||| (irqCmdDone ||| irqErr) := rfl
@[simp] theorem illegalCommand_arg0 (w : Word32) (s : State) : (illegalCommand w s).arg0 = s.arg0 := rfl
@[simp] theorem illegalCommand_tickCount (w : Word32) (s : State) : (illegalCommand w s).tickCount = s.tickCount := rfl
@[simp] theorem illegalCommand_outLen (w : Word32) (s : State) : (illegalCommand w s).outLen = s.outLen := rfl
@[simp] theorem illegalCommand_outBuf (w : Word32) (s : State) : (illegalCommand w s).outBuf = s.outBuf := rfl
@[simp] theorem illegalCommand_nextDeadline (w : Word32) (s : State) : (illegalCommand w s).nextDeadline = s.nextDeadline := rfl
@[simp] theorem illegalCommand_centerFreq (w : Word32) (s : State) : (illegalCommand w s).centerFreq = s.centerFreq := rfl
@[simp] theorem illegalCommand_gainDb (w : Word32) (s : State) : (illegalCommand w s).gainDb = s.gainDb := rfl
@[simp] theorem illegalCommand_sampleRate (w : Word32) (s : State) : (illegalCommand w s).sampleRate = s.sampleRate := rfl
@[simp] theorem illegalCommand_decim (w : Word32) (s : State) : (illegalCommand w s).decim = s.decim := rfl
@[simp] theorem illegalCommand_rateCoef (w : Word32) (s : State) : (illegalCommand w s).rateCoef = s.rateCoef := rfl
@[simp] theorem illegalCommand_noiseEn (w : Word32) (s : State) : (illegalCommand w s).noiseEn = s.noiseEn := rfl
@[simp] theorem illegalCommand_noiseSigma (w : Word32) (s : State) : (illegalCommand w s).noiseSigma = s.noiseSigma := rfl
@[simp] theorem illegalCommand_noiseTab (w : Word32) (s : State) : (illegalCommand w s).noiseTab = s.noiseTab := rfl
@[simp] theorem illegalCommand_block (w : Word32) (s : State) : (illegalCommand w s).block = s.block := rfl
@[simp] theorem illegalCommand_slots (w : Word32) (s : State) : (illegalCommand w s).slots = s.slots := rfl
@[simp] theorem illegalCommand_mixBuf (w : Word32) (s : State) : (illegalCommand w s).mixBuf = s.mixBuf := rfl
@[simp] theorem illegalCommand_tick (w : Word32) (s : State) : (illegalCommand w s).tick = s.tick := rfl
@[simp] theorem illegalCommand_old (w : Word32) (s : State) : (illegalCommand w s).old = s.old := rfl
@[simp] theorem illegalCommand_env (w : Word32) (s : State) : (illegalCommand w s).env = s.env := rfl

/-! ### lifecycleNoop -/

@[simp] theorem lifecycleNoop_par (i : Instr) (s : State) : (lifecycleNoop i s).par = s.par := rfl
@[simp] theorem lifecycleNoop_life (i : Instr) (s : State) : (lifecycleNoop i s).life = s.life := rfl
@[simp] theorem lifecycleNoop_cmdStatus (i : Instr) (s : State) : (lifecycleNoop i s).cmdStatus = 0#16 ++ i.opcode ++ 0x05#8 := rfl
@[simp] theorem lifecycleNoop_warn (i : Instr) (s : State) : (lifecycleNoop i s).warn = s.warn ||| warnLifecycle := rfl
@[simp] theorem lifecycleNoop_irqEn (i : Instr) (s : State) : (lifecycleNoop i s).irqEn = s.irqEn := rfl
@[simp] theorem lifecycleNoop_irqPend (i : Instr) (s : State) : (lifecycleNoop i s).irqPend = (if s.warn &&& warnLifecycle = 0#32 then s.irqPend ||| irqWarn else s.irqPend) ||| irqCmdDone := rfl
@[simp] theorem lifecycleNoop_arg0 (i : Instr) (s : State) : (lifecycleNoop i s).arg0 = s.arg0 := rfl
@[simp] theorem lifecycleNoop_tickCount (i : Instr) (s : State) : (lifecycleNoop i s).tickCount = s.tickCount := rfl
@[simp] theorem lifecycleNoop_outLen (i : Instr) (s : State) : (lifecycleNoop i s).outLen = s.outLen := rfl
@[simp] theorem lifecycleNoop_outBuf (i : Instr) (s : State) : (lifecycleNoop i s).outBuf = s.outBuf := rfl
@[simp] theorem lifecycleNoop_nextDeadline (i : Instr) (s : State) : (lifecycleNoop i s).nextDeadline = s.nextDeadline := rfl
@[simp] theorem lifecycleNoop_centerFreq (i : Instr) (s : State) : (lifecycleNoop i s).centerFreq = s.centerFreq := rfl
@[simp] theorem lifecycleNoop_gainDb (i : Instr) (s : State) : (lifecycleNoop i s).gainDb = s.gainDb := rfl
@[simp] theorem lifecycleNoop_sampleRate (i : Instr) (s : State) : (lifecycleNoop i s).sampleRate = s.sampleRate := rfl
@[simp] theorem lifecycleNoop_decim (i : Instr) (s : State) : (lifecycleNoop i s).decim = s.decim := rfl
@[simp] theorem lifecycleNoop_rateCoef (i : Instr) (s : State) : (lifecycleNoop i s).rateCoef = s.rateCoef := rfl
@[simp] theorem lifecycleNoop_noiseEn (i : Instr) (s : State) : (lifecycleNoop i s).noiseEn = s.noiseEn := rfl
@[simp] theorem lifecycleNoop_noiseSigma (i : Instr) (s : State) : (lifecycleNoop i s).noiseSigma = s.noiseSigma := rfl
@[simp] theorem lifecycleNoop_noiseTab (i : Instr) (s : State) : (lifecycleNoop i s).noiseTab = s.noiseTab := rfl
@[simp] theorem lifecycleNoop_block (i : Instr) (s : State) : (lifecycleNoop i s).block = s.block := rfl
@[simp] theorem lifecycleNoop_slots (i : Instr) (s : State) : (lifecycleNoop i s).slots = s.slots := rfl
@[simp] theorem lifecycleNoop_mixBuf (i : Instr) (s : State) : (lifecycleNoop i s).mixBuf = s.mixBuf := rfl
@[simp] theorem lifecycleNoop_tick (i : Instr) (s : State) : (lifecycleNoop i s).tick = s.tick := rfl
@[simp] theorem lifecycleNoop_old (i : Instr) (s : State) : (lifecycleNoop i s).old = s.old := rfl
@[simp] theorem lifecycleNoop_env (i : Instr) (s : State) : (lifecycleNoop i s).env = s.env := rfl

/-! ### clearPend -/

@[simp] theorem clearPend_par (v : Word32) (s : State) : (clearPend v s).par = s.par := rfl
@[simp] theorem clearPend_life (v : Word32) (s : State) : (clearPend v s).life = s.life := rfl
@[simp] theorem clearPend_cmdStatus (v : Word32) (s : State) : (clearPend v s).cmdStatus = s.cmdStatus := rfl
@[simp] theorem clearPend_warn (v : Word32) (s : State) : (clearPend v s).warn = s.warn := rfl
@[simp] theorem clearPend_irqEn (v : Word32) (s : State) : (clearPend v s).irqEn = s.irqEn := rfl
@[simp] theorem clearPend_irqPend (v : Word32) (s : State) : (clearPend v s).irqPend = s.irqPend &&& ~~~(v &&& irqMask) := rfl
@[simp] theorem clearPend_arg0 (v : Word32) (s : State) : (clearPend v s).arg0 = s.arg0 := rfl
@[simp] theorem clearPend_tickCount (v : Word32) (s : State) : (clearPend v s).tickCount = s.tickCount := rfl
@[simp] theorem clearPend_outLen (v : Word32) (s : State) : (clearPend v s).outLen = s.outLen := rfl
@[simp] theorem clearPend_outBuf (v : Word32) (s : State) : (clearPend v s).outBuf = s.outBuf := rfl
@[simp] theorem clearPend_nextDeadline (v : Word32) (s : State) : (clearPend v s).nextDeadline = s.nextDeadline := rfl
@[simp] theorem clearPend_centerFreq (v : Word32) (s : State) : (clearPend v s).centerFreq = s.centerFreq := rfl
@[simp] theorem clearPend_gainDb (v : Word32) (s : State) : (clearPend v s).gainDb = s.gainDb := rfl
@[simp] theorem clearPend_sampleRate (v : Word32) (s : State) : (clearPend v s).sampleRate = s.sampleRate := rfl
@[simp] theorem clearPend_decim (v : Word32) (s : State) : (clearPend v s).decim = s.decim := rfl
@[simp] theorem clearPend_rateCoef (v : Word32) (s : State) : (clearPend v s).rateCoef = s.rateCoef := rfl
@[simp] theorem clearPend_noiseEn (v : Word32) (s : State) : (clearPend v s).noiseEn = s.noiseEn := rfl
@[simp] theorem clearPend_noiseSigma (v : Word32) (s : State) : (clearPend v s).noiseSigma = s.noiseSigma := rfl
@[simp] theorem clearPend_noiseTab (v : Word32) (s : State) : (clearPend v s).noiseTab = s.noiseTab := rfl
@[simp] theorem clearPend_block (v : Word32) (s : State) : (clearPend v s).block = s.block := rfl
@[simp] theorem clearPend_slots (v : Word32) (s : State) : (clearPend v s).slots = s.slots := rfl
@[simp] theorem clearPend_mixBuf (v : Word32) (s : State) : (clearPend v s).mixBuf = s.mixBuf := rfl
@[simp] theorem clearPend_tick (v : Word32) (s : State) : (clearPend v s).tick = s.tick := rfl
@[simp] theorem clearPend_old (v : Word32) (s : State) : (clearPend v s).old = s.old := rfl
@[simp] theorem clearPend_env (v : Word32) (s : State) : (clearPend v s).env = s.env := rfl

/-! ### clearWarn -/

@[simp] theorem clearWarn_par (v : Word32) (s : State) : (clearWarn v s).par = s.par := rfl
@[simp] theorem clearWarn_life (v : Word32) (s : State) : (clearWarn v s).life = s.life := rfl
@[simp] theorem clearWarn_cmdStatus (v : Word32) (s : State) : (clearWarn v s).cmdStatus = s.cmdStatus := rfl
@[simp] theorem clearWarn_warn (v : Word32) (s : State) : (clearWarn v s).warn = s.warn &&& ~~~(v &&& warnMask) := rfl
@[simp] theorem clearWarn_irqEn (v : Word32) (s : State) : (clearWarn v s).irqEn = s.irqEn := rfl
@[simp] theorem clearWarn_irqPend (v : Word32) (s : State) : (clearWarn v s).irqPend = s.irqPend := rfl
@[simp] theorem clearWarn_arg0 (v : Word32) (s : State) : (clearWarn v s).arg0 = s.arg0 := rfl
@[simp] theorem clearWarn_tickCount (v : Word32) (s : State) : (clearWarn v s).tickCount = s.tickCount := rfl
@[simp] theorem clearWarn_outLen (v : Word32) (s : State) : (clearWarn v s).outLen = s.outLen := rfl
@[simp] theorem clearWarn_outBuf (v : Word32) (s : State) : (clearWarn v s).outBuf = s.outBuf := rfl
@[simp] theorem clearWarn_nextDeadline (v : Word32) (s : State) : (clearWarn v s).nextDeadline = s.nextDeadline := rfl
@[simp] theorem clearWarn_centerFreq (v : Word32) (s : State) : (clearWarn v s).centerFreq = s.centerFreq := rfl
@[simp] theorem clearWarn_gainDb (v : Word32) (s : State) : (clearWarn v s).gainDb = s.gainDb := rfl
@[simp] theorem clearWarn_sampleRate (v : Word32) (s : State) : (clearWarn v s).sampleRate = s.sampleRate := rfl
@[simp] theorem clearWarn_decim (v : Word32) (s : State) : (clearWarn v s).decim = s.decim := rfl
@[simp] theorem clearWarn_rateCoef (v : Word32) (s : State) : (clearWarn v s).rateCoef = s.rateCoef := rfl
@[simp] theorem clearWarn_noiseEn (v : Word32) (s : State) : (clearWarn v s).noiseEn = s.noiseEn := rfl
@[simp] theorem clearWarn_noiseSigma (v : Word32) (s : State) : (clearWarn v s).noiseSigma = s.noiseSigma := rfl
@[simp] theorem clearWarn_noiseTab (v : Word32) (s : State) : (clearWarn v s).noiseTab = s.noiseTab := rfl
@[simp] theorem clearWarn_block (v : Word32) (s : State) : (clearWarn v s).block = s.block := rfl
@[simp] theorem clearWarn_slots (v : Word32) (s : State) : (clearWarn v s).slots = s.slots := rfl
@[simp] theorem clearWarn_mixBuf (v : Word32) (s : State) : (clearWarn v s).mixBuf = s.mixBuf := rfl
@[simp] theorem clearWarn_tick (v : Word32) (s : State) : (clearWarn v s).tick = s.tick := rfl
@[simp] theorem clearWarn_old (v : Word32) (s : State) : (clearWarn v s).old = s.old := rfl
@[simp] theorem clearWarn_env (v : Word32) (s : State) : (clearWarn v s).env = s.env := rfl

/-! ### noteOld -/

@[simp] theorem noteOld_par (f : Replaced → Replaced) (s : State) : (noteOld f s).par = s.par := by simp only [noteOld]; split <;> rfl
@[simp] theorem noteOld_life (f : Replaced → Replaced) (s : State) : (noteOld f s).life = s.life := by simp only [noteOld]; split <;> rfl
@[simp] theorem noteOld_cmdStatus (f : Replaced → Replaced) (s : State) : (noteOld f s).cmdStatus = s.cmdStatus := by simp only [noteOld]; split <;> rfl
@[simp] theorem noteOld_warn (f : Replaced → Replaced) (s : State) : (noteOld f s).warn = s.warn := by simp only [noteOld]; split <;> rfl
@[simp] theorem noteOld_irqEn (f : Replaced → Replaced) (s : State) : (noteOld f s).irqEn = s.irqEn := by simp only [noteOld]; split <;> rfl
@[simp] theorem noteOld_irqPend (f : Replaced → Replaced) (s : State) : (noteOld f s).irqPend = s.irqPend := by simp only [noteOld]; split <;> rfl
@[simp] theorem noteOld_arg0 (f : Replaced → Replaced) (s : State) : (noteOld f s).arg0 = s.arg0 := by simp only [noteOld]; split <;> rfl
@[simp] theorem noteOld_tickCount (f : Replaced → Replaced) (s : State) : (noteOld f s).tickCount = s.tickCount := by simp only [noteOld]; split <;> rfl
@[simp] theorem noteOld_outLen (f : Replaced → Replaced) (s : State) : (noteOld f s).outLen = s.outLen := by simp only [noteOld]; split <;> rfl
@[simp] theorem noteOld_outBuf (f : Replaced → Replaced) (s : State) : (noteOld f s).outBuf = s.outBuf := by simp only [noteOld]; split <;> rfl
@[simp] theorem noteOld_nextDeadline (f : Replaced → Replaced) (s : State) : (noteOld f s).nextDeadline = s.nextDeadline := by simp only [noteOld]; split <;> rfl
@[simp] theorem noteOld_centerFreq (f : Replaced → Replaced) (s : State) : (noteOld f s).centerFreq = s.centerFreq := by simp only [noteOld]; split <;> rfl
@[simp] theorem noteOld_gainDb (f : Replaced → Replaced) (s : State) : (noteOld f s).gainDb = s.gainDb := by simp only [noteOld]; split <;> rfl
@[simp] theorem noteOld_sampleRate (f : Replaced → Replaced) (s : State) : (noteOld f s).sampleRate = s.sampleRate := by simp only [noteOld]; split <;> rfl
@[simp] theorem noteOld_decim (f : Replaced → Replaced) (s : State) : (noteOld f s).decim = s.decim := by simp only [noteOld]; split <;> rfl
@[simp] theorem noteOld_rateCoef (f : Replaced → Replaced) (s : State) : (noteOld f s).rateCoef = s.rateCoef := by simp only [noteOld]; split <;> rfl
@[simp] theorem noteOld_noiseEn (f : Replaced → Replaced) (s : State) : (noteOld f s).noiseEn = s.noiseEn := by simp only [noteOld]; split <;> rfl
@[simp] theorem noteOld_noiseSigma (f : Replaced → Replaced) (s : State) : (noteOld f s).noiseSigma = s.noiseSigma := by simp only [noteOld]; split <;> rfl
@[simp] theorem noteOld_noiseTab (f : Replaced → Replaced) (s : State) : (noteOld f s).noiseTab = s.noiseTab := by simp only [noteOld]; split <;> rfl
@[simp] theorem noteOld_block (f : Replaced → Replaced) (s : State) : (noteOld f s).block = s.block := by simp only [noteOld]; split <;> rfl
@[simp] theorem noteOld_slots (f : Replaced → Replaced) (s : State) : (noteOld f s).slots = s.slots := by simp only [noteOld]; split <;> rfl
@[simp] theorem noteOld_mixBuf (f : Replaced → Replaced) (s : State) : (noteOld f s).mixBuf = s.mixBuf := by simp only [noteOld]; split <;> rfl
@[simp] theorem noteOld_tick (f : Replaced → Replaced) (s : State) : (noteOld f s).tick = s.tick := by simp only [noteOld]; split <;> rfl
@[simp] theorem noteOld_old (f : Replaced → Replaced) (s : State) : (noteOld f s).old = if tickBusy s then f s.old else s.old := by simp only [noteOld]; split <;> rfl
@[simp] theorem noteOld_env (f : Replaced → Replaced) (s : State) : (noteOld f s).env = s.env := by simp only [noteOld]; split <;> rfl

/-! ### replaceNoiseEn -/

@[simp] theorem replaceNoiseEn_par (en : Bool) (s : State) : (replaceNoiseEn en s).par = s.par := by simp [replaceNoiseEn]
@[simp] theorem replaceNoiseEn_life (en : Bool) (s : State) : (replaceNoiseEn en s).life = s.life := by simp [replaceNoiseEn]
@[simp] theorem replaceNoiseEn_cmdStatus (en : Bool) (s : State) : (replaceNoiseEn en s).cmdStatus = s.cmdStatus := by simp [replaceNoiseEn]
@[simp] theorem replaceNoiseEn_warn (en : Bool) (s : State) : (replaceNoiseEn en s).warn = s.warn := by simp [replaceNoiseEn]
@[simp] theorem replaceNoiseEn_irqEn (en : Bool) (s : State) : (replaceNoiseEn en s).irqEn = s.irqEn := by simp [replaceNoiseEn]
@[simp] theorem replaceNoiseEn_irqPend (en : Bool) (s : State) : (replaceNoiseEn en s).irqPend = s.irqPend := by simp [replaceNoiseEn]
@[simp] theorem replaceNoiseEn_arg0 (en : Bool) (s : State) : (replaceNoiseEn en s).arg0 = s.arg0 := by simp [replaceNoiseEn]
@[simp] theorem replaceNoiseEn_tickCount (en : Bool) (s : State) : (replaceNoiseEn en s).tickCount = s.tickCount := by simp [replaceNoiseEn]
@[simp] theorem replaceNoiseEn_outLen (en : Bool) (s : State) : (replaceNoiseEn en s).outLen = s.outLen := by simp [replaceNoiseEn]
@[simp] theorem replaceNoiseEn_outBuf (en : Bool) (s : State) : (replaceNoiseEn en s).outBuf = s.outBuf := by simp [replaceNoiseEn]
@[simp] theorem replaceNoiseEn_nextDeadline (en : Bool) (s : State) : (replaceNoiseEn en s).nextDeadline = s.nextDeadline := by simp [replaceNoiseEn]
@[simp] theorem replaceNoiseEn_centerFreq (en : Bool) (s : State) : (replaceNoiseEn en s).centerFreq = s.centerFreq := by simp [replaceNoiseEn]
@[simp] theorem replaceNoiseEn_gainDb (en : Bool) (s : State) : (replaceNoiseEn en s).gainDb = s.gainDb := by simp [replaceNoiseEn]
@[simp] theorem replaceNoiseEn_sampleRate (en : Bool) (s : State) : (replaceNoiseEn en s).sampleRate = s.sampleRate := by simp [replaceNoiseEn]
@[simp] theorem replaceNoiseEn_decim (en : Bool) (s : State) : (replaceNoiseEn en s).decim = s.decim := by simp [replaceNoiseEn]
@[simp] theorem replaceNoiseEn_rateCoef (en : Bool) (s : State) : (replaceNoiseEn en s).rateCoef = s.rateCoef := by simp [replaceNoiseEn]
@[simp] theorem replaceNoiseEn_noiseEn (en : Bool) (s : State) : (replaceNoiseEn en s).noiseEn = en := by simp [replaceNoiseEn]
@[simp] theorem replaceNoiseEn_noiseSigma (en : Bool) (s : State) : (replaceNoiseEn en s).noiseSigma = s.noiseSigma := by simp [replaceNoiseEn]
@[simp] theorem replaceNoiseEn_noiseTab (en : Bool) (s : State) : (replaceNoiseEn en s).noiseTab = s.noiseTab := by simp [replaceNoiseEn]
@[simp] theorem replaceNoiseEn_block (en : Bool) (s : State) : (replaceNoiseEn en s).block = s.block := by simp [replaceNoiseEn]
@[simp] theorem replaceNoiseEn_slots (en : Bool) (s : State) : (replaceNoiseEn en s).slots = s.slots := by simp [replaceNoiseEn]
@[simp] theorem replaceNoiseEn_mixBuf (en : Bool) (s : State) : (replaceNoiseEn en s).mixBuf = s.mixBuf := by simp [replaceNoiseEn]
@[simp] theorem replaceNoiseEn_tick (en : Bool) (s : State) : (replaceNoiseEn en s).tick = s.tick := by simp [replaceNoiseEn]
@[simp] theorem replaceNoiseEn_env (en : Bool) (s : State) : (replaceNoiseEn en s).env = s.env := by simp [replaceNoiseEn]

/-! ### replaceGain -/

@[simp] theorem replaceGain_par (g : F64) (s : State) : (replaceGain g s).par = s.par := by simp [replaceGain]
@[simp] theorem replaceGain_life (g : F64) (s : State) : (replaceGain g s).life = s.life := by simp [replaceGain]
@[simp] theorem replaceGain_cmdStatus (g : F64) (s : State) : (replaceGain g s).cmdStatus = s.cmdStatus := by simp [replaceGain]
@[simp] theorem replaceGain_warn (g : F64) (s : State) : (replaceGain g s).warn = s.warn := by simp [replaceGain]
@[simp] theorem replaceGain_irqEn (g : F64) (s : State) : (replaceGain g s).irqEn = s.irqEn := by simp [replaceGain]
@[simp] theorem replaceGain_irqPend (g : F64) (s : State) : (replaceGain g s).irqPend = s.irqPend := by simp [replaceGain]
@[simp] theorem replaceGain_arg0 (g : F64) (s : State) : (replaceGain g s).arg0 = s.arg0 := by simp [replaceGain]
@[simp] theorem replaceGain_tickCount (g : F64) (s : State) : (replaceGain g s).tickCount = s.tickCount := by simp [replaceGain]
@[simp] theorem replaceGain_outLen (g : F64) (s : State) : (replaceGain g s).outLen = s.outLen := by simp [replaceGain]
@[simp] theorem replaceGain_outBuf (g : F64) (s : State) : (replaceGain g s).outBuf = s.outBuf := by simp [replaceGain]
@[simp] theorem replaceGain_nextDeadline (g : F64) (s : State) : (replaceGain g s).nextDeadline = s.nextDeadline := by simp [replaceGain]
@[simp] theorem replaceGain_centerFreq (g : F64) (s : State) : (replaceGain g s).centerFreq = s.centerFreq := by simp [replaceGain]
@[simp] theorem replaceGain_gainDb (g : F64) (s : State) : (replaceGain g s).gainDb = g := by simp [replaceGain]
@[simp] theorem replaceGain_sampleRate (g : F64) (s : State) : (replaceGain g s).sampleRate = s.sampleRate := by simp [replaceGain]
@[simp] theorem replaceGain_decim (g : F64) (s : State) : (replaceGain g s).decim = s.decim := by simp [replaceGain]
@[simp] theorem replaceGain_rateCoef (g : F64) (s : State) : (replaceGain g s).rateCoef = s.rateCoef := by simp [replaceGain]
@[simp] theorem replaceGain_noiseEn (g : F64) (s : State) : (replaceGain g s).noiseEn = s.noiseEn := by simp [replaceGain]
@[simp] theorem replaceGain_noiseSigma (g : F64) (s : State) : (replaceGain g s).noiseSigma = s.noiseSigma := by simp [replaceGain]
@[simp] theorem replaceGain_noiseTab (g : F64) (s : State) : (replaceGain g s).noiseTab = s.noiseTab := by simp [replaceGain]
@[simp] theorem replaceGain_block (g : F64) (s : State) : (replaceGain g s).block = s.block := by simp [replaceGain]
@[simp] theorem replaceGain_slots (g : F64) (s : State) : (replaceGain g s).slots = s.slots := by simp [replaceGain]
@[simp] theorem replaceGain_mixBuf (g : F64) (s : State) : (replaceGain g s).mixBuf = s.mixBuf := by simp [replaceGain]
@[simp] theorem replaceGain_tick (g : F64) (s : State) : (replaceGain g s).tick = s.tick := by simp [replaceGain]
@[simp] theorem replaceGain_env (g : F64) (s : State) : (replaceGain g s).env = s.env := by simp [replaceGain]

/-! ### replaceRate -/

@[simp] theorem replaceRate_par (d : Nat) (s : State) : (replaceRate d s).par = s.par := by simp [replaceRate]
@[simp] theorem replaceRate_life (d : Nat) (s : State) : (replaceRate d s).life = s.life := by simp [replaceRate]
@[simp] theorem replaceRate_cmdStatus (d : Nat) (s : State) : (replaceRate d s).cmdStatus = s.cmdStatus := by simp [replaceRate]
@[simp] theorem replaceRate_warn (d : Nat) (s : State) : (replaceRate d s).warn = s.warn := by simp [replaceRate]
@[simp] theorem replaceRate_irqEn (d : Nat) (s : State) : (replaceRate d s).irqEn = s.irqEn := by simp [replaceRate]
@[simp] theorem replaceRate_irqPend (d : Nat) (s : State) : (replaceRate d s).irqPend = s.irqPend := by simp [replaceRate]
@[simp] theorem replaceRate_arg0 (d : Nat) (s : State) : (replaceRate d s).arg0 = s.arg0 := by simp [replaceRate]
@[simp] theorem replaceRate_tickCount (d : Nat) (s : State) : (replaceRate d s).tickCount = s.tickCount := by simp [replaceRate]
@[simp] theorem replaceRate_outLen (d : Nat) (s : State) : (replaceRate d s).outLen = s.outLen := by simp [replaceRate]
@[simp] theorem replaceRate_outBuf (d : Nat) (s : State) : (replaceRate d s).outBuf = s.outBuf := by simp [replaceRate]
@[simp] theorem replaceRate_nextDeadline (d : Nat) (s : State) : (replaceRate d s).nextDeadline = s.nextDeadline := by simp [replaceRate]
@[simp] theorem replaceRate_centerFreq (d : Nat) (s : State) : (replaceRate d s).centerFreq = s.centerFreq := by simp [replaceRate]
@[simp] theorem replaceRate_gainDb (d : Nat) (s : State) : (replaceRate d s).gainDb = s.gainDb := by simp [replaceRate]
@[simp] theorem replaceRate_sampleRate (d : Nat) (s : State) : (replaceRate d s).sampleRate = d := by simp [replaceRate]
@[simp] theorem replaceRate_decim (d : Nat) (s : State) : (replaceRate d s).decim = maxRate / d := by simp [replaceRate]
@[simp] theorem replaceRate_rateCoef (d : Nat) (s : State) : (replaceRate d s).rateCoef = rateCoeffs s.par (maxRate / d) := by simp [replaceRate]
@[simp] theorem replaceRate_noiseEn (d : Nat) (s : State) : (replaceRate d s).noiseEn = s.noiseEn := by simp [replaceRate]
@[simp] theorem replaceRate_noiseSigma (d : Nat) (s : State) : (replaceRate d s).noiseSigma = s.noiseSigma := by simp [replaceRate]
@[simp] theorem replaceRate_noiseTab (d : Nat) (s : State) : (replaceRate d s).noiseTab = s.noiseTab := by simp [replaceRate]
@[simp] theorem replaceRate_block (d : Nat) (s : State) : (replaceRate d s).block = s.block := by simp [replaceRate]
@[simp] theorem replaceRate_slots (d : Nat) (s : State) : (replaceRate d s).slots = s.slots := by simp [replaceRate]
@[simp] theorem replaceRate_mixBuf (d : Nat) (s : State) : (replaceRate d s).mixBuf = s.mixBuf := by simp [replaceRate]
@[simp] theorem replaceRate_tick (d : Nat) (s : State) : (replaceRate d s).tick = s.tick := by simp [replaceRate]
@[simp] theorem replaceRate_env (d : Nat) (s : State) : (replaceRate d s).env = s.env := by simp [replaceRate]

/-! ### replaceNoiseTab -/

@[simp] theorem replaceNoiseTab_par (t : List Cplx) (s : State) : (replaceNoiseTab t s).par = s.par := by simp [replaceNoiseTab]
@[simp] theorem replaceNoiseTab_life (t : List Cplx) (s : State) : (replaceNoiseTab t s).life = s.life := by simp [replaceNoiseTab]
@[simp] theorem replaceNoiseTab_cmdStatus (t : List Cplx) (s : State) : (replaceNoiseTab t s).cmdStatus = s.cmdStatus := by simp [replaceNoiseTab]
@[simp] theorem replaceNoiseTab_warn (t : List Cplx) (s : State) : (replaceNoiseTab t s).warn = s.warn := by simp [replaceNoiseTab]
@[simp] theorem replaceNoiseTab_irqEn (t : List Cplx) (s : State) : (replaceNoiseTab t s).irqEn = s.irqEn := by simp [replaceNoiseTab]
@[simp] theorem replaceNoiseTab_irqPend (t : List Cplx) (s : State) : (replaceNoiseTab t s).irqPend = s.irqPend := by simp [replaceNoiseTab]
@[simp] theorem replaceNoiseTab_arg0 (t : List Cplx) (s : State) : (replaceNoiseTab t s).arg0 = s.arg0 := by simp [replaceNoiseTab]
@[simp] theorem replaceNoiseTab_tickCount (t : List Cplx) (s : State) : (replaceNoiseTab t s).tickCount = s.tickCount := by simp [replaceNoiseTab]
@[simp] theorem replaceNoiseTab_outLen (t : List Cplx) (s : State) : (replaceNoiseTab t s).outLen = s.outLen := by simp [replaceNoiseTab]
@[simp] theorem replaceNoiseTab_outBuf (t : List Cplx) (s : State) : (replaceNoiseTab t s).outBuf = s.outBuf := by simp [replaceNoiseTab]
@[simp] theorem replaceNoiseTab_nextDeadline (t : List Cplx) (s : State) : (replaceNoiseTab t s).nextDeadline = s.nextDeadline := by simp [replaceNoiseTab]
@[simp] theorem replaceNoiseTab_centerFreq (t : List Cplx) (s : State) : (replaceNoiseTab t s).centerFreq = s.centerFreq := by simp [replaceNoiseTab]
@[simp] theorem replaceNoiseTab_gainDb (t : List Cplx) (s : State) : (replaceNoiseTab t s).gainDb = s.gainDb := by simp [replaceNoiseTab]
@[simp] theorem replaceNoiseTab_sampleRate (t : List Cplx) (s : State) : (replaceNoiseTab t s).sampleRate = s.sampleRate := by simp [replaceNoiseTab]
@[simp] theorem replaceNoiseTab_decim (t : List Cplx) (s : State) : (replaceNoiseTab t s).decim = s.decim := by simp [replaceNoiseTab]
@[simp] theorem replaceNoiseTab_rateCoef (t : List Cplx) (s : State) : (replaceNoiseTab t s).rateCoef = s.rateCoef := by simp [replaceNoiseTab]
@[simp] theorem replaceNoiseTab_noiseEn (t : List Cplx) (s : State) : (replaceNoiseTab t s).noiseEn = s.noiseEn := by simp [replaceNoiseTab]
@[simp] theorem replaceNoiseTab_noiseSigma (t : List Cplx) (s : State) : (replaceNoiseTab t s).noiseSigma = s.noiseSigma := by simp [replaceNoiseTab]
@[simp] theorem replaceNoiseTab_noiseTab (t : List Cplx) (s : State) : (replaceNoiseTab t s).noiseTab = t := by simp [replaceNoiseTab]
@[simp] theorem replaceNoiseTab_block (t : List Cplx) (s : State) : (replaceNoiseTab t s).block = s.block := by simp [replaceNoiseTab]
@[simp] theorem replaceNoiseTab_slots (t : List Cplx) (s : State) : (replaceNoiseTab t s).slots = s.slots := by simp [replaceNoiseTab]
@[simp] theorem replaceNoiseTab_mixBuf (t : List Cplx) (s : State) : (replaceNoiseTab t s).mixBuf = s.mixBuf := by simp [replaceNoiseTab]
@[simp] theorem replaceNoiseTab_tick (t : List Cplx) (s : State) : (replaceNoiseTab t s).tick = s.tick := by simp [replaceNoiseTab]
@[simp] theorem replaceNoiseTab_env (t : List Cplx) (s : State) : (replaceNoiseTab t s).env = s.env := by simp [replaceNoiseTab]

/-! ### respond -/

@[simp] theorem respond_par (r : BusResp) (s : State) : (respond r s).par = s.par := rfl
@[simp] theorem respond_life (r : BusResp) (s : State) : (respond r s).life = s.life := rfl
@[simp] theorem respond_cmdStatus (r : BusResp) (s : State) : (respond r s).cmdStatus = s.cmdStatus := rfl
@[simp] theorem respond_warn (r : BusResp) (s : State) : (respond r s).warn = s.warn := rfl
@[simp] theorem respond_irqEn (r : BusResp) (s : State) : (respond r s).irqEn = s.irqEn := rfl
@[simp] theorem respond_irqPend (r : BusResp) (s : State) : (respond r s).irqPend = s.irqPend := rfl
@[simp] theorem respond_arg0 (r : BusResp) (s : State) : (respond r s).arg0 = s.arg0 := rfl
@[simp] theorem respond_tickCount (r : BusResp) (s : State) : (respond r s).tickCount = s.tickCount := rfl
@[simp] theorem respond_outLen (r : BusResp) (s : State) : (respond r s).outLen = s.outLen := rfl
@[simp] theorem respond_outBuf (r : BusResp) (s : State) : (respond r s).outBuf = s.outBuf := rfl
@[simp] theorem respond_nextDeadline (r : BusResp) (s : State) : (respond r s).nextDeadline = s.nextDeadline := rfl
@[simp] theorem respond_centerFreq (r : BusResp) (s : State) : (respond r s).centerFreq = s.centerFreq := rfl
@[simp] theorem respond_gainDb (r : BusResp) (s : State) : (respond r s).gainDb = s.gainDb := rfl
@[simp] theorem respond_sampleRate (r : BusResp) (s : State) : (respond r s).sampleRate = s.sampleRate := rfl
@[simp] theorem respond_decim (r : BusResp) (s : State) : (respond r s).decim = s.decim := rfl
@[simp] theorem respond_rateCoef (r : BusResp) (s : State) : (respond r s).rateCoef = s.rateCoef := rfl
@[simp] theorem respond_noiseEn (r : BusResp) (s : State) : (respond r s).noiseEn = s.noiseEn := rfl
@[simp] theorem respond_noiseSigma (r : BusResp) (s : State) : (respond r s).noiseSigma = s.noiseSigma := rfl
@[simp] theorem respond_noiseTab (r : BusResp) (s : State) : (respond r s).noiseTab = s.noiseTab := rfl
@[simp] theorem respond_block (r : BusResp) (s : State) : (respond r s).block = s.block := rfl
@[simp] theorem respond_slots (r : BusResp) (s : State) : (respond r s).slots = s.slots := rfl
@[simp] theorem respond_mixBuf (r : BusResp) (s : State) : (respond r s).mixBuf = s.mixBuf := rfl
@[simp] theorem respond_tick (r : BusResp) (s : State) : (respond r s).tick = s.tick := rfl
@[simp] theorem respond_old (r : BusResp) (s : State) : (respond r s).old = s.old := rfl
@[simp] theorem respond_env (r : BusResp) (s : State) : (respond r s).env = { s.env with busResp := some r } := rfl

/-! ### takeEvent -/

@[simp] theorem takeEvent_par (rest : List Event) (s : State) : (takeEvent rest s).par = s.par := rfl
@[simp] theorem takeEvent_life (rest : List Event) (s : State) : (takeEvent rest s).life = s.life := rfl
@[simp] theorem takeEvent_cmdStatus (rest : List Event) (s : State) : (takeEvent rest s).cmdStatus = s.cmdStatus := rfl
@[simp] theorem takeEvent_warn (rest : List Event) (s : State) : (takeEvent rest s).warn = s.warn := rfl
@[simp] theorem takeEvent_irqEn (rest : List Event) (s : State) : (takeEvent rest s).irqEn = s.irqEn := rfl
@[simp] theorem takeEvent_irqPend (rest : List Event) (s : State) : (takeEvent rest s).irqPend = s.irqPend := rfl
@[simp] theorem takeEvent_arg0 (rest : List Event) (s : State) : (takeEvent rest s).arg0 = s.arg0 := rfl
@[simp] theorem takeEvent_tickCount (rest : List Event) (s : State) : (takeEvent rest s).tickCount = s.tickCount := rfl
@[simp] theorem takeEvent_outLen (rest : List Event) (s : State) : (takeEvent rest s).outLen = s.outLen := rfl
@[simp] theorem takeEvent_outBuf (rest : List Event) (s : State) : (takeEvent rest s).outBuf = s.outBuf := rfl
@[simp] theorem takeEvent_nextDeadline (rest : List Event) (s : State) : (takeEvent rest s).nextDeadline = s.nextDeadline := rfl
@[simp] theorem takeEvent_centerFreq (rest : List Event) (s : State) : (takeEvent rest s).centerFreq = s.centerFreq := rfl
@[simp] theorem takeEvent_gainDb (rest : List Event) (s : State) : (takeEvent rest s).gainDb = s.gainDb := rfl
@[simp] theorem takeEvent_sampleRate (rest : List Event) (s : State) : (takeEvent rest s).sampleRate = s.sampleRate := rfl
@[simp] theorem takeEvent_decim (rest : List Event) (s : State) : (takeEvent rest s).decim = s.decim := rfl
@[simp] theorem takeEvent_rateCoef (rest : List Event) (s : State) : (takeEvent rest s).rateCoef = s.rateCoef := rfl
@[simp] theorem takeEvent_noiseEn (rest : List Event) (s : State) : (takeEvent rest s).noiseEn = s.noiseEn := rfl
@[simp] theorem takeEvent_noiseSigma (rest : List Event) (s : State) : (takeEvent rest s).noiseSigma = s.noiseSigma := rfl
@[simp] theorem takeEvent_noiseTab (rest : List Event) (s : State) : (takeEvent rest s).noiseTab = s.noiseTab := rfl
@[simp] theorem takeEvent_block (rest : List Event) (s : State) : (takeEvent rest s).block = s.block := rfl
@[simp] theorem takeEvent_slots (rest : List Event) (s : State) : (takeEvent rest s).slots = s.slots := rfl
@[simp] theorem takeEvent_mixBuf (rest : List Event) (s : State) : (takeEvent rest s).mixBuf = s.mixBuf := rfl
@[simp] theorem takeEvent_tick (rest : List Event) (s : State) : (takeEvent rest s).tick = s.tick := rfl
@[simp] theorem takeEvent_old (rest : List Event) (s : State) : (takeEvent rest s).old = s.old := rfl
@[simp] theorem takeEvent_env (rest : List Event) (s : State) : (takeEvent rest s).env = { s.env with inbox := rest } := rfl

/-! ### retuneAll -/

@[simp] theorem retuneAll_par (f : F64) (s : State) : (retuneAll f s).par = s.par := rfl
@[simp] theorem retuneAll_life (f : F64) (s : State) : (retuneAll f s).life = s.life := rfl
@[simp] theorem retuneAll_cmdStatus (f : F64) (s : State) : (retuneAll f s).cmdStatus = s.cmdStatus := rfl
@[simp] theorem retuneAll_warn (f : F64) (s : State) : (retuneAll f s).warn = s.warn := rfl
@[simp] theorem retuneAll_irqEn (f : F64) (s : State) : (retuneAll f s).irqEn = s.irqEn := rfl
@[simp] theorem retuneAll_irqPend (f : F64) (s : State) : (retuneAll f s).irqPend = s.irqPend := rfl
@[simp] theorem retuneAll_arg0 (f : F64) (s : State) : (retuneAll f s).arg0 = s.arg0 := rfl
@[simp] theorem retuneAll_tickCount (f : F64) (s : State) : (retuneAll f s).tickCount = s.tickCount := rfl
@[simp] theorem retuneAll_outLen (f : F64) (s : State) : (retuneAll f s).outLen = s.outLen := rfl
@[simp] theorem retuneAll_outBuf (f : F64) (s : State) : (retuneAll f s).outBuf = s.outBuf := rfl
@[simp] theorem retuneAll_nextDeadline (f : F64) (s : State) : (retuneAll f s).nextDeadline = s.nextDeadline := rfl
@[simp] theorem retuneAll_centerFreq (f : F64) (s : State) : (retuneAll f s).centerFreq = f := rfl
@[simp] theorem retuneAll_gainDb (f : F64) (s : State) : (retuneAll f s).gainDb = s.gainDb := rfl
@[simp] theorem retuneAll_sampleRate (f : F64) (s : State) : (retuneAll f s).sampleRate = s.sampleRate := rfl
@[simp] theorem retuneAll_decim (f : F64) (s : State) : (retuneAll f s).decim = s.decim := rfl
@[simp] theorem retuneAll_rateCoef (f : F64) (s : State) : (retuneAll f s).rateCoef = s.rateCoef := rfl
@[simp] theorem retuneAll_noiseEn (f : F64) (s : State) : (retuneAll f s).noiseEn = s.noiseEn := rfl
@[simp] theorem retuneAll_noiseSigma (f : F64) (s : State) : (retuneAll f s).noiseSigma = s.noiseSigma := rfl
@[simp] theorem retuneAll_noiseTab (f : F64) (s : State) : (retuneAll f s).noiseTab = s.noiseTab := rfl
@[simp] theorem retuneAll_block (f : F64) (s : State) : (retuneAll f s).block = s.block := rfl
@[simp] theorem retuneAll_slots (f : F64) (s : State) : (retuneAll f s).slots = s.slots.map (retuneSlot s.par (tickBusy s) f) := rfl
@[simp] theorem retuneAll_mixBuf (f : F64) (s : State) : (retuneAll f s).mixBuf = s.mixBuf := rfl
@[simp] theorem retuneAll_tick (f : F64) (s : State) : (retuneAll f s).tick = s.tick := rfl
@[simp] theorem retuneAll_old (f : F64) (s : State) : (retuneAll f s).old = s.old := rfl
@[simp] theorem retuneAll_env (f : F64) (s : State) : (retuneAll f s).env = s.env := rfl

/-! ### deliver -/

@[simp] theorem deliver_par (o : List Cplx) (s : State) : (deliver o s).par = s.par := rfl
@[simp] theorem deliver_life (o : List Cplx) (s : State) : (deliver o s).life = s.life := rfl
@[simp] theorem deliver_cmdStatus (o : List Cplx) (s : State) : (deliver o s).cmdStatus = s.cmdStatus := rfl
@[simp] theorem deliver_warn (o : List Cplx) (s : State) : (deliver o s).warn = s.warn := rfl
@[simp] theorem deliver_irqEn (o : List Cplx) (s : State) : (deliver o s).irqEn = s.irqEn := rfl
@[simp] theorem deliver_irqPend (o : List Cplx) (s : State) : (deliver o s).irqPend = s.irqPend ||| irqBlock := rfl
@[simp] theorem deliver_arg0 (o : List Cplx) (s : State) : (deliver o s).arg0 = s.arg0 := rfl
@[simp] theorem deliver_tickCount (o : List Cplx) (s : State) : (deliver o s).tickCount = s.tickCount + 1#32 := rfl
@[simp] theorem deliver_outLen (o : List Cplx) (s : State) : (deliver o s).outLen = o.length := rfl
@[simp] theorem deliver_outBuf (o : List Cplx) (s : State) : (deliver o s).outBuf = o.map outSample := rfl
@[simp] theorem deliver_nextDeadline (o : List Cplx) (s : State) : (deliver o s).nextDeadline = s.nextDeadline := rfl
@[simp] theorem deliver_centerFreq (o : List Cplx) (s : State) : (deliver o s).centerFreq = s.centerFreq := rfl
@[simp] theorem deliver_gainDb (o : List Cplx) (s : State) : (deliver o s).gainDb = s.gainDb := rfl
@[simp] theorem deliver_sampleRate (o : List Cplx) (s : State) : (deliver o s).sampleRate = s.sampleRate := rfl
@[simp] theorem deliver_decim (o : List Cplx) (s : State) : (deliver o s).decim = s.decim := rfl
@[simp] theorem deliver_rateCoef (o : List Cplx) (s : State) : (deliver o s).rateCoef = s.rateCoef := rfl
@[simp] theorem deliver_noiseEn (o : List Cplx) (s : State) : (deliver o s).noiseEn = s.noiseEn := rfl
@[simp] theorem deliver_noiseSigma (o : List Cplx) (s : State) : (deliver o s).noiseSigma = s.noiseSigma := rfl
@[simp] theorem deliver_noiseTab (o : List Cplx) (s : State) : (deliver o s).noiseTab = s.noiseTab := rfl
@[simp] theorem deliver_block (o : List Cplx) (s : State) : (deliver o s).block = s.block := rfl
@[simp] theorem deliver_slots (o : List Cplx) (s : State) : (deliver o s).slots = s.slots := rfl
@[simp] theorem deliver_mixBuf (o : List Cplx) (s : State) : (deliver o s).mixBuf = s.mixBuf := rfl
@[simp] theorem deliver_tick (o : List Cplx) (s : State) : (deliver o s).tick = s.tick := rfl
@[simp] theorem deliver_old (o : List Cplx) (s : State) : (deliver o s).old = s.old := rfl
@[simp] theorem deliver_env (o : List Cplx) (s : State) : (deliver o s).env = { s.env with delivered := s.env.delivered ++ [o] } := rfl

/-! ### beginTick -/

@[simp] theorem beginTick_par (s : State) : (beginTick s).par = s.par := rfl
@[simp] theorem beginTick_life (s : State) : (beginTick s).life = s.life := rfl
@[simp] theorem beginTick_cmdStatus (s : State) : (beginTick s).cmdStatus = s.cmdStatus := rfl
@[simp] theorem beginTick_warn (s : State) : (beginTick s).warn = s.warn := rfl
@[simp] theorem beginTick_irqEn (s : State) : (beginTick s).irqEn = s.irqEn := rfl
@[simp] theorem beginTick_irqPend (s : State) : (beginTick s).irqPend = s.irqPend := rfl
@[simp] theorem beginTick_arg0 (s : State) : (beginTick s).arg0 = s.arg0 := rfl
@[simp] theorem beginTick_tickCount (s : State) : (beginTick s).tickCount = s.tickCount := rfl
@[simp] theorem beginTick_outLen (s : State) : (beginTick s).outLen = s.outLen := rfl
@[simp] theorem beginTick_outBuf (s : State) : (beginTick s).outBuf = s.outBuf := rfl
@[simp] theorem beginTick_nextDeadline (s : State) : (beginTick s).nextDeadline = s.nextDeadline := rfl
@[simp] theorem beginTick_centerFreq (s : State) : (beginTick s).centerFreq = s.centerFreq := rfl
@[simp] theorem beginTick_gainDb (s : State) : (beginTick s).gainDb = s.gainDb := rfl
@[simp] theorem beginTick_sampleRate (s : State) : (beginTick s).sampleRate = s.sampleRate := rfl
@[simp] theorem beginTick_decim (s : State) : (beginTick s).decim = s.decim := rfl
@[simp] theorem beginTick_rateCoef (s : State) : (beginTick s).rateCoef = s.rateCoef := rfl
@[simp] theorem beginTick_noiseEn (s : State) : (beginTick s).noiseEn = s.noiseEn := rfl
@[simp] theorem beginTick_noiseSigma (s : State) : (beginTick s).noiseSigma = s.noiseSigma := rfl
@[simp] theorem beginTick_noiseTab (s : State) : (beginTick s).noiseTab = s.noiseTab := rfl
@[simp] theorem beginTick_block (s : State) : (beginTick s).block = s.block := rfl
@[simp] theorem beginTick_mixBuf (s : State) : (beginTick s).mixBuf = s.mixBuf := rfl
@[simp] theorem beginTick_tick (s : State) : (beginTick s).tick = TickPhase.stations (activeSlots s) := rfl
@[simp] theorem beginTick_old (s : State) : (beginTick s).old = Replaced.none := rfl
@[simp] theorem beginTick_env (s : State) : (beginTick s).env = s.env := rfl

/-! ### armTimer -/

@[simp] theorem armTimer_par (s : State) : (armTimer s).par = s.par := rfl
@[simp] theorem armTimer_life (s : State) : (armTimer s).life = s.life := rfl
@[simp] theorem armTimer_cmdStatus (s : State) : (armTimer s).cmdStatus = s.cmdStatus := rfl
@[simp] theorem armTimer_warn (s : State) : (armTimer s).warn = s.warn := rfl
@[simp] theorem armTimer_irqEn (s : State) : (armTimer s).irqEn = s.irqEn := rfl
@[simp] theorem armTimer_irqPend (s : State) : (armTimer s).irqPend = s.irqPend := rfl
@[simp] theorem armTimer_arg0 (s : State) : (armTimer s).arg0 = s.arg0 := rfl
@[simp] theorem armTimer_tickCount (s : State) : (armTimer s).tickCount = s.tickCount := rfl
@[simp] theorem armTimer_outLen (s : State) : (armTimer s).outLen = s.outLen := rfl
@[simp] theorem armTimer_outBuf (s : State) : (armTimer s).outBuf = s.outBuf := rfl
@[simp] theorem armTimer_nextDeadline (s : State) : (armTimer s).nextDeadline = some ⟨s.env.starts, period s⟩ := rfl
@[simp] theorem armTimer_centerFreq (s : State) : (armTimer s).centerFreq = s.centerFreq := rfl
@[simp] theorem armTimer_gainDb (s : State) : (armTimer s).gainDb = s.gainDb := rfl
@[simp] theorem armTimer_sampleRate (s : State) : (armTimer s).sampleRate = s.sampleRate := rfl
@[simp] theorem armTimer_decim (s : State) : (armTimer s).decim = s.decim := rfl
@[simp] theorem armTimer_rateCoef (s : State) : (armTimer s).rateCoef = s.rateCoef := rfl
@[simp] theorem armTimer_noiseEn (s : State) : (armTimer s).noiseEn = s.noiseEn := rfl
@[simp] theorem armTimer_noiseSigma (s : State) : (armTimer s).noiseSigma = s.noiseSigma := rfl
@[simp] theorem armTimer_noiseTab (s : State) : (armTimer s).noiseTab = s.noiseTab := rfl
@[simp] theorem armTimer_block (s : State) : (armTimer s).block = s.block := rfl
@[simp] theorem armTimer_slots (s : State) : (armTimer s).slots = s.slots := rfl
@[simp] theorem armTimer_mixBuf (s : State) : (armTimer s).mixBuf = s.mixBuf := rfl
@[simp] theorem armTimer_tick (s : State) : (armTimer s).tick = s.tick := rfl
@[simp] theorem armTimer_old (s : State) : (armTimer s).old = s.old := rfl
@[simp] theorem armTimer_env (s : State) : (armTimer s).env = { s.env with starts := s.env.starts + 1 } := rfl

/-! ### rearmTimer -/

@[simp] theorem rearmTimer_par (s : State) : (rearmTimer s).par = s.par := rfl
@[simp] theorem rearmTimer_life (s : State) : (rearmTimer s).life = s.life := rfl
@[simp] theorem rearmTimer_cmdStatus (s : State) : (rearmTimer s).cmdStatus = s.cmdStatus := rfl
@[simp] theorem rearmTimer_warn (s : State) : (rearmTimer s).warn = s.warn := rfl
@[simp] theorem rearmTimer_irqEn (s : State) : (rearmTimer s).irqEn = s.irqEn := rfl
@[simp] theorem rearmTimer_irqPend (s : State) : (rearmTimer s).irqPend = s.irqPend := rfl
@[simp] theorem rearmTimer_arg0 (s : State) : (rearmTimer s).arg0 = s.arg0 := rfl
@[simp] theorem rearmTimer_tickCount (s : State) : (rearmTimer s).tickCount = s.tickCount := rfl
@[simp] theorem rearmTimer_outLen (s : State) : (rearmTimer s).outLen = s.outLen := rfl
@[simp] theorem rearmTimer_outBuf (s : State) : (rearmTimer s).outBuf = s.outBuf := rfl
@[simp] theorem rearmTimer_centerFreq (s : State) : (rearmTimer s).centerFreq = s.centerFreq := rfl
@[simp] theorem rearmTimer_gainDb (s : State) : (rearmTimer s).gainDb = s.gainDb := rfl
@[simp] theorem rearmTimer_sampleRate (s : State) : (rearmTimer s).sampleRate = s.sampleRate := rfl
@[simp] theorem rearmTimer_decim (s : State) : (rearmTimer s).decim = s.decim := rfl
@[simp] theorem rearmTimer_rateCoef (s : State) : (rearmTimer s).rateCoef = s.rateCoef := rfl
@[simp] theorem rearmTimer_noiseEn (s : State) : (rearmTimer s).noiseEn = s.noiseEn := rfl
@[simp] theorem rearmTimer_noiseSigma (s : State) : (rearmTimer s).noiseSigma = s.noiseSigma := rfl
@[simp] theorem rearmTimer_noiseTab (s : State) : (rearmTimer s).noiseTab = s.noiseTab := rfl
@[simp] theorem rearmTimer_block (s : State) : (rearmTimer s).block = s.block := rfl
@[simp] theorem rearmTimer_slots (s : State) : (rearmTimer s).slots = s.slots := rfl
@[simp] theorem rearmTimer_mixBuf (s : State) : (rearmTimer s).mixBuf = s.mixBuf := rfl
@[simp] theorem rearmTimer_tick (s : State) : (rearmTimer s).tick = s.tick := rfl
@[simp] theorem rearmTimer_old (s : State) : (rearmTimer s).old = s.old := rfl
@[simp] theorem rearmTimer_env (s : State) : (rearmTimer s).env = s.env := rfl

/-! ### noiseStage -/

@[simp] theorem noiseStage_par (s : State) : (noiseStage s).par = s.par := rfl
@[simp] theorem noiseStage_life (s : State) : (noiseStage s).life = s.life := rfl
@[simp] theorem noiseStage_cmdStatus (s : State) : (noiseStage s).cmdStatus = s.cmdStatus := rfl
@[simp] theorem noiseStage_warn (s : State) : (noiseStage s).warn = s.warn := rfl
@[simp] theorem noiseStage_irqEn (s : State) : (noiseStage s).irqEn = s.irqEn := rfl
@[simp] theorem noiseStage_irqPend (s : State) : (noiseStage s).irqPend = s.irqPend := rfl
@[simp] theorem noiseStage_arg0 (s : State) : (noiseStage s).arg0 = s.arg0 := rfl
@[simp] theorem noiseStage_tickCount (s : State) : (noiseStage s).tickCount = s.tickCount := rfl
@[simp] theorem noiseStage_outLen (s : State) : (noiseStage s).outLen = s.outLen := rfl
@[simp] theorem noiseStage_outBuf (s : State) : (noiseStage s).outBuf = s.outBuf := rfl
@[simp] theorem noiseStage_nextDeadline (s : State) : (noiseStage s).nextDeadline = s.nextDeadline := rfl
@[simp] theorem noiseStage_centerFreq (s : State) : (noiseStage s).centerFreq = s.centerFreq := rfl
@[simp] theorem noiseStage_gainDb (s : State) : (noiseStage s).gainDb = s.gainDb := rfl
@[simp] theorem noiseStage_sampleRate (s : State) : (noiseStage s).sampleRate = s.sampleRate := rfl
@[simp] theorem noiseStage_decim (s : State) : (noiseStage s).decim = s.decim := rfl
@[simp] theorem noiseStage_rateCoef (s : State) : (noiseStage s).rateCoef = s.rateCoef := rfl
@[simp] theorem noiseStage_noiseEn (s : State) : (noiseStage s).noiseEn = s.noiseEn := rfl
@[simp] theorem noiseStage_noiseSigma (s : State) : (noiseStage s).noiseSigma = s.noiseSigma := rfl
@[simp] theorem noiseStage_noiseTab (s : State) : (noiseStage s).noiseTab = s.noiseTab := rfl
@[simp] theorem noiseStage_block (s : State) : (noiseStage s).block = s.block := rfl
@[simp] theorem noiseStage_slots (s : State) : (noiseStage s).slots = s.slots := rfl
@[simp] theorem noiseStage_tick (s : State) : (noiseStage s).tick = TickPhase.noised := rfl
@[simp] theorem noiseStage_old (s : State) : (noiseStage s).old = s.old := rfl

/-! ### filterStage -/

@[simp] theorem filterStage_par (s : State) : (filterStage s).par = s.par := rfl
@[simp] theorem filterStage_life (s : State) : (filterStage s).life = s.life := rfl
@[simp] theorem filterStage_cmdStatus (s : State) : (filterStage s).cmdStatus = s.cmdStatus := rfl
@[simp] theorem filterStage_warn (s : State) : (filterStage s).warn = s.warn := rfl
@[simp] theorem filterStage_irqEn (s : State) : (filterStage s).irqEn = s.irqEn := rfl
@[simp] theorem filterStage_irqPend (s : State) : (filterStage s).irqPend = s.irqPend := rfl
@[simp] theorem filterStage_arg0 (s : State) : (filterStage s).arg0 = s.arg0 := rfl
@[simp] theorem filterStage_tickCount (s : State) : (filterStage s).tickCount = s.tickCount := rfl
@[simp] theorem filterStage_outLen (s : State) : (filterStage s).outLen = s.outLen := rfl
@[simp] theorem filterStage_outBuf (s : State) : (filterStage s).outBuf = s.outBuf := rfl
@[simp] theorem filterStage_nextDeadline (s : State) : (filterStage s).nextDeadline = s.nextDeadline := rfl
@[simp] theorem filterStage_centerFreq (s : State) : (filterStage s).centerFreq = s.centerFreq := rfl
@[simp] theorem filterStage_gainDb (s : State) : (filterStage s).gainDb = s.gainDb := rfl
@[simp] theorem filterStage_sampleRate (s : State) : (filterStage s).sampleRate = s.sampleRate := rfl
@[simp] theorem filterStage_decim (s : State) : (filterStage s).decim = s.decim := rfl
@[simp] theorem filterStage_rateCoef (s : State) : (filterStage s).rateCoef = s.rateCoef := rfl
@[simp] theorem filterStage_noiseEn (s : State) : (filterStage s).noiseEn = s.noiseEn := rfl
@[simp] theorem filterStage_noiseSigma (s : State) : (filterStage s).noiseSigma = s.noiseSigma := rfl
@[simp] theorem filterStage_noiseTab (s : State) : (filterStage s).noiseTab = s.noiseTab := rfl
@[simp] theorem filterStage_block (s : State) : (filterStage s).block = s.block := rfl
@[simp] theorem filterStage_slots (s : State) : (filterStage s).slots = s.slots := rfl
@[simp] theorem filterStage_mixBuf (s : State) : (filterStage s).mixBuf = s.mixBuf := rfl
@[simp] theorem filterStage_old (s : State) : (filterStage s).old = s.old := rfl

/-! ### decimateStage -/

@[simp] theorem decimateStage_par (y : List Cplx) (s : State) : (decimateStage y s).par = s.par := rfl
@[simp] theorem decimateStage_life (y : List Cplx) (s : State) : (decimateStage y s).life = s.life := rfl
@[simp] theorem decimateStage_cmdStatus (y : List Cplx) (s : State) : (decimateStage y s).cmdStatus = s.cmdStatus := rfl
@[simp] theorem decimateStage_warn (y : List Cplx) (s : State) : (decimateStage y s).warn = s.warn := rfl
@[simp] theorem decimateStage_irqEn (y : List Cplx) (s : State) : (decimateStage y s).irqEn = s.irqEn := rfl
@[simp] theorem decimateStage_irqPend (y : List Cplx) (s : State) : (decimateStage y s).irqPend = s.irqPend := rfl
@[simp] theorem decimateStage_arg0 (y : List Cplx) (s : State) : (decimateStage y s).arg0 = s.arg0 := rfl
@[simp] theorem decimateStage_tickCount (y : List Cplx) (s : State) : (decimateStage y s).tickCount = s.tickCount := rfl
@[simp] theorem decimateStage_outLen (y : List Cplx) (s : State) : (decimateStage y s).outLen = s.outLen := rfl
@[simp] theorem decimateStage_outBuf (y : List Cplx) (s : State) : (decimateStage y s).outBuf = s.outBuf := rfl
@[simp] theorem decimateStage_nextDeadline (y : List Cplx) (s : State) : (decimateStage y s).nextDeadline = s.nextDeadline := rfl
@[simp] theorem decimateStage_centerFreq (y : List Cplx) (s : State) : (decimateStage y s).centerFreq = s.centerFreq := rfl
@[simp] theorem decimateStage_gainDb (y : List Cplx) (s : State) : (decimateStage y s).gainDb = s.gainDb := rfl
@[simp] theorem decimateStage_sampleRate (y : List Cplx) (s : State) : (decimateStage y s).sampleRate = s.sampleRate := rfl
@[simp] theorem decimateStage_decim (y : List Cplx) (s : State) : (decimateStage y s).decim = s.decim := rfl
@[simp] theorem decimateStage_rateCoef (y : List Cplx) (s : State) : (decimateStage y s).rateCoef = s.rateCoef := rfl
@[simp] theorem decimateStage_noiseEn (y : List Cplx) (s : State) : (decimateStage y s).noiseEn = s.noiseEn := rfl
@[simp] theorem decimateStage_noiseSigma (y : List Cplx) (s : State) : (decimateStage y s).noiseSigma = s.noiseSigma := rfl
@[simp] theorem decimateStage_noiseTab (y : List Cplx) (s : State) : (decimateStage y s).noiseTab = s.noiseTab := rfl
@[simp] theorem decimateStage_block (y : List Cplx) (s : State) : (decimateStage y s).block = s.block := rfl
@[simp] theorem decimateStage_slots (y : List Cplx) (s : State) : (decimateStage y s).slots = s.slots := rfl
@[simp] theorem decimateStage_mixBuf (y : List Cplx) (s : State) : (decimateStage y s).mixBuf = s.mixBuf := rfl
@[simp] theorem decimateStage_old (y : List Cplx) (s : State) : (decimateStage y s).old = s.old := rfl

/-! ### gainStage -/

@[simp] theorem gainStage_par (d : List Cplx) (s : State) : (gainStage d s).par = s.par := rfl
@[simp] theorem gainStage_life (d : List Cplx) (s : State) : (gainStage d s).life = s.life := rfl
@[simp] theorem gainStage_cmdStatus (d : List Cplx) (s : State) : (gainStage d s).cmdStatus = s.cmdStatus := rfl
@[simp] theorem gainStage_warn (d : List Cplx) (s : State) : (gainStage d s).warn = s.warn := rfl
@[simp] theorem gainStage_irqEn (d : List Cplx) (s : State) : (gainStage d s).irqEn = s.irqEn := rfl
@[simp] theorem gainStage_irqPend (d : List Cplx) (s : State) : (gainStage d s).irqPend = s.irqPend := rfl
@[simp] theorem gainStage_arg0 (d : List Cplx) (s : State) : (gainStage d s).arg0 = s.arg0 := rfl
@[simp] theorem gainStage_tickCount (d : List Cplx) (s : State) : (gainStage d s).tickCount = s.tickCount := rfl
@[simp] theorem gainStage_outLen (d : List Cplx) (s : State) : (gainStage d s).outLen = s.outLen := rfl
@[simp] theorem gainStage_outBuf (d : List Cplx) (s : State) : (gainStage d s).outBuf = s.outBuf := rfl
@[simp] theorem gainStage_nextDeadline (d : List Cplx) (s : State) : (gainStage d s).nextDeadline = s.nextDeadline := rfl
@[simp] theorem gainStage_centerFreq (d : List Cplx) (s : State) : (gainStage d s).centerFreq = s.centerFreq := rfl
@[simp] theorem gainStage_gainDb (d : List Cplx) (s : State) : (gainStage d s).gainDb = s.gainDb := rfl
@[simp] theorem gainStage_sampleRate (d : List Cplx) (s : State) : (gainStage d s).sampleRate = s.sampleRate := rfl
@[simp] theorem gainStage_decim (d : List Cplx) (s : State) : (gainStage d s).decim = s.decim := rfl
@[simp] theorem gainStage_rateCoef (d : List Cplx) (s : State) : (gainStage d s).rateCoef = s.rateCoef := rfl
@[simp] theorem gainStage_noiseEn (d : List Cplx) (s : State) : (gainStage d s).noiseEn = s.noiseEn := rfl
@[simp] theorem gainStage_noiseSigma (d : List Cplx) (s : State) : (gainStage d s).noiseSigma = s.noiseSigma := rfl
@[simp] theorem gainStage_noiseTab (d : List Cplx) (s : State) : (gainStage d s).noiseTab = s.noiseTab := rfl
@[simp] theorem gainStage_block (d : List Cplx) (s : State) : (gainStage d s).block = s.block := rfl
@[simp] theorem gainStage_slots (d : List Cplx) (s : State) : (gainStage d s).slots = s.slots := rfl
@[simp] theorem gainStage_mixBuf (d : List Cplx) (s : State) : (gainStage d s).mixBuf = s.mixBuf := rfl
@[simp] theorem gainStage_old (d : List Cplx) (s : State) : (gainStage d s).old = s.old := rfl

/-! ### deliverStage -/

@[simp] theorem deliverStage_par (o : List Cplx) (s : State) : (deliverStage o s).par = s.par := rfl
@[simp] theorem deliverStage_life (o : List Cplx) (s : State) : (deliverStage o s).life = s.life := rfl
@[simp] theorem deliverStage_cmdStatus (o : List Cplx) (s : State) : (deliverStage o s).cmdStatus = s.cmdStatus := rfl
@[simp] theorem deliverStage_warn (o : List Cplx) (s : State) : (deliverStage o s).warn = s.warn := rfl
@[simp] theorem deliverStage_irqEn (o : List Cplx) (s : State) : (deliverStage o s).irqEn = s.irqEn := rfl
@[simp] theorem deliverStage_irqPend (o : List Cplx) (s : State) : (deliverStage o s).irqPend = s.irqPend ||| irqBlock := rfl
@[simp] theorem deliverStage_arg0 (o : List Cplx) (s : State) : (deliverStage o s).arg0 = s.arg0 := rfl
@[simp] theorem deliverStage_tickCount (o : List Cplx) (s : State) : (deliverStage o s).tickCount = s.tickCount + 1#32 := rfl
@[simp] theorem deliverStage_outLen (o : List Cplx) (s : State) : (deliverStage o s).outLen = o.length := rfl
@[simp] theorem deliverStage_outBuf (o : List Cplx) (s : State) : (deliverStage o s).outBuf = o.map outSample := rfl
@[simp] theorem deliverStage_nextDeadline (o : List Cplx) (s : State) : (deliverStage o s).nextDeadline = s.nextDeadline := rfl
@[simp] theorem deliverStage_centerFreq (o : List Cplx) (s : State) : (deliverStage o s).centerFreq = s.centerFreq := rfl
@[simp] theorem deliverStage_gainDb (o : List Cplx) (s : State) : (deliverStage o s).gainDb = s.gainDb := rfl
@[simp] theorem deliverStage_sampleRate (o : List Cplx) (s : State) : (deliverStage o s).sampleRate = s.sampleRate := rfl
@[simp] theorem deliverStage_decim (o : List Cplx) (s : State) : (deliverStage o s).decim = s.decim := rfl
@[simp] theorem deliverStage_rateCoef (o : List Cplx) (s : State) : (deliverStage o s).rateCoef = s.rateCoef := rfl
@[simp] theorem deliverStage_noiseEn (o : List Cplx) (s : State) : (deliverStage o s).noiseEn = s.noiseEn := rfl
@[simp] theorem deliverStage_noiseSigma (o : List Cplx) (s : State) : (deliverStage o s).noiseSigma = s.noiseSigma := rfl
@[simp] theorem deliverStage_noiseTab (o : List Cplx) (s : State) : (deliverStage o s).noiseTab = s.noiseTab := rfl
@[simp] theorem deliverStage_block (o : List Cplx) (s : State) : (deliverStage o s).block = s.block := rfl
@[simp] theorem deliverStage_slots (o : List Cplx) (s : State) : (deliverStage o s).slots = s.slots := rfl
@[simp] theorem deliverStage_mixBuf (o : List Cplx) (s : State) : (deliverStage o s).mixBuf = s.mixBuf := rfl
@[simp] theorem deliverStage_tick (o : List Cplx) (s : State) : (deliverStage o s).tick = TickPhase.idle := rfl
@[simp] theorem deliverStage_old (o : List Cplx) (s : State) : (deliverStage o s).old = s.old := rfl
@[simp] theorem deliverStage_env (o : List Cplx) (s : State) : (deliverStage o s).env = { s.env with delivered := s.env.delivered ++ [o] } := rfl

/-! ### mixStage -/

@[simp] theorem mixStage_par (s : State) : (mixStage s).par = s.par := by simp [mixStage]
@[simp] theorem mixStage_life (s : State) : (mixStage s).life = s.life := by simp [mixStage]
@[simp] theorem mixStage_cmdStatus (s : State) : (mixStage s).cmdStatus = s.cmdStatus := by simp [mixStage]
@[simp] theorem mixStage_irqEn (s : State) : (mixStage s).irqEn = s.irqEn := by simp [mixStage]
@[simp] theorem mixStage_arg0 (s : State) : (mixStage s).arg0 = s.arg0 := by simp [mixStage]
@[simp] theorem mixStage_tickCount (s : State) : (mixStage s).tickCount = s.tickCount := by simp [mixStage]
@[simp] theorem mixStage_outLen (s : State) : (mixStage s).outLen = s.outLen := by simp [mixStage]
@[simp] theorem mixStage_outBuf (s : State) : (mixStage s).outBuf = s.outBuf := by simp [mixStage]
@[simp] theorem mixStage_nextDeadline (s : State) : (mixStage s).nextDeadline = s.nextDeadline := by simp [mixStage]
@[simp] theorem mixStage_centerFreq (s : State) : (mixStage s).centerFreq = s.centerFreq := by simp [mixStage]
@[simp] theorem mixStage_gainDb (s : State) : (mixStage s).gainDb = s.gainDb := by simp [mixStage]
@[simp] theorem mixStage_sampleRate (s : State) : (mixStage s).sampleRate = s.sampleRate := by simp [mixStage]
@[simp] theorem mixStage_decim (s : State) : (mixStage s).decim = s.decim := by simp [mixStage]
@[simp] theorem mixStage_rateCoef (s : State) : (mixStage s).rateCoef = s.rateCoef := by simp [mixStage]
@[simp] theorem mixStage_noiseEn (s : State) : (mixStage s).noiseEn = s.noiseEn := by simp [mixStage]
@[simp] theorem mixStage_noiseSigma (s : State) : (mixStage s).noiseSigma = s.noiseSigma := by simp [mixStage]
@[simp] theorem mixStage_noiseTab (s : State) : (mixStage s).noiseTab = s.noiseTab := by simp [mixStage]
@[simp] theorem mixStage_block (s : State) : (mixStage s).block = s.block := by simp [mixStage]
@[simp] theorem mixStage_slots (s : State) : (mixStage s).slots = s.slots := by simp [mixStage]
@[simp] theorem mixStage_mixBuf (s : State) : (mixStage s).mixBuf = (mixer (lUp s) s.slots).1 := by simp [mixStage]
@[simp] theorem mixStage_tick (s : State) : (mixStage s).tick = TickPhase.mixed := by simp [mixStage]
@[simp] theorem mixStage_old (s : State) : (mixStage s).old = s.old := by simp [mixStage]
@[simp] theorem mixStage_env (s : State) : (mixStage s).env = s.env := by simp [mixStage]

end Sys2Proof.Machine
end

