-- ==== Sys2Proof/Laws/Step.lean ====
section
/-! SUPPORT. What one step can do, said once: the cases of `step`, and of the command it issues. -/

namespace Sys2Proof.Machine

/-- Everything a step can do. -/
theorem step_cases {s t : State} (h : step s = .next t) :
    (s.env.inbox = [] ∧ t = s) ∨
    (∃ lag rest, s.env.inbox = .fire lag :: rest ∧ t = fireTimer lag (takeEvent rest s)) ∨
    (∃ rest, s.env.inbox = .advance :: rest ∧ t = advance (takeEvent rest s)) ∨
    (∃ op rest r, s.env.inbox = .bus op :: rest ∧ busEffect op (takeEvent rest s) = .answer r ∧
      t = respond r (takeEvent rest s)) ∨
    (∃ op rest s', s.env.inbox = .bus op :: rest ∧ busEffect op (takeEvent rest s) = .store s' ∧
      t = respond writeAccepted s') ∨
    (∃ op rest w i, s.env.inbox = .bus op :: rest ∧ busEffect op (takeEvent rest s) = .command w ∧
      decode w = .ok i ∧ exec i (respond writeAccepted (takeEvent rest s)) = .next t) ∨
    (∃ op rest w e, s.env.inbox = .bus op :: rest ∧ busEffect op (takeEvent rest s) = .command w ∧
      decode w = .error e ∧ t = illegalCommand w (respond writeAccepted (takeEvent rest s))) := by
  unfold step at h
  split at h
  · rename_i he
    exact .inl ⟨he, by injection h with h; exact h.symm⟩
  · rename_i lag rest he
    exact .inr (.inl ⟨lag, rest, he, by injection h with h; exact h.symm⟩)
  · rename_i rest he
    exact .inr (.inr (.inl ⟨rest, he, by injection h with h; exact h.symm⟩))
  · rename_i op rest he
    split at h
    · rename_i r hr
      exact .inr (.inr (.inr (.inl ⟨op, rest, r, he, hr, by injection h with h; exact h.symm⟩)))
    · rename_i s' hs
      exact .inr (.inr (.inr (.inr (.inl ⟨op, rest, s', he, hs, by injection h with h; exact h.symm⟩))))
    · rename_i w hw
      unfold issueCommand at h
      split at h
      · rename_i i hi
        exact .inr (.inr (.inr (.inr (.inr (.inl ⟨op, rest, w, i, he, hw, hi, h⟩)))))
      · rename_i e hi
        exact .inr (.inr (.inr (.inr (.inr (.inr
          ⟨op, rest, w, e, he, hw, hi, by injection h with h; exact h.symm⟩)))))

/-- Everything a bus access can store: ARG0, IRQ_EN, a W1C clear, staging, or nothing (R86). -/
theorem busEffect_store_cases {op : BusOp} {s t : State} (h : busEffect op s = .store t) :
    (∃ off v, t = writeGlobal off v s) ∨ (∃ i off v, t = writeStation i off v s) := by
  unfold busEffect at h
  split at h
  · split at h <;> cases h
  · split at h
    · cases h
    · split at h
      · cases h
      · cases h; exact .inl ⟨_, _, rfl⟩
    · cases h; exact .inr ⟨_, _, _, rfl⟩
    · cases h

/-- What a write to a global register leaves behind (R60, R86). -/
theorem writeGlobal_cases (off : Nat) (v : Word32) (s : State) :
    (∃ x, writeGlobal off v s = { s with arg0 := x }) ∨ writeGlobal off v s = clearWarn v s ∨
    writeGlobal off v s = { s with irqEn := v &&& irqMask } ∨ writeGlobal off v s = clearPend v s ∨
    writeGlobal off v s = s := by
  unfold writeGlobal
  split
  · exact .inl ⟨_, rfl⟩
  · exact .inl ⟨_, rfl⟩
  · exact .inr (.inl rfl)
  · exact .inr (.inr (.inl rfl))
  · exact .inr (.inr (.inr (.inl rfl)))
  · exact .inr (.inr (.inr (.inr rfl)))

/-- What a write to a station window leaves behind: a staging register of a slot, only while UNINIT (R47, R86). -/
theorem writeStation_cases (i off : Nat) (v : Word32) (s : State) :
    (∃ sl, s.life = .uninit ∧ s.slots[i]? = some sl ∧
      writeStation i off v s = { s with slots := s.slots.set i { sl with st := writeStaging off v sl.st } }) ∨
    writeStation i off v s = s := by
  unfold writeStation
  split
  · rename_i hl
    split
    · exact .inr rfl
    · rename_i sl hsl
      exact .inl ⟨sl, hl, hsl, rfl⟩
  · exact .inr rfl

/-- What a write to staging leaves alone in a station: everything but staging (R47). -/
theorem writeStaging_frame (off : Nat) (v : Word32) (st : Station) :
    let t := writeStaging off v st
    t.status = st.status ∧ t.code = st.code ∧ t.freq = st.freq ∧ t.csN = st.csN ∧ t.psN = st.psN ∧ t.rtN = st.rtN ∧
      t.pi = st.pi ∧ t.tuning = st.tuning ∧ t.tunerPhase = st.tunerPhase ∧ t.fmPhase = st.fmPhase ∧
      t.hist = st.hist ∧ t.q12 = st.q12 ∧ t.rds = st.rds ∧ t.oobLast = st.oobLast ∧ t.out = st.out ∧
      t.tuneOld = st.tuneOld := by
  unfold writeStaging
  repeat' split
  all_goals exact ⟨rfl, rfl, rfl, rfl, rfl, rfl, rfl, rfl, rfl, rfl, rfl, rfl, rfl, rfl, rfl, rfl⟩

end Sys2Proof.Machine
end

