-- ==== Sys2Proof/Laws/Exec.lean ====
section
/-! SUPPORT. What a command can do, said once (R150, R371, R373): it raises an error and changes nothing else, it warns
and changes nothing else, or it completes with OK after its own effect. -/

namespace Sys2Proof.Machine

theorem complete_code (o : BitVec 8) (c : ResultCode) (s : State) :
    (complete o c s).cmdStatus.extractLsb' 0 8 = c.byte := by
  show (0#16 ++ o ++ c.byte).extractLsb' 0 8 = c.byte
  ext i hi
  rw [BitVec.getElem_extractLsb', BitVec.getLsbD_append]
  simp [hi]

theorem complete_irqPend_ok (o : BitVec 8) (s : State) :
    complete o .ok s = { s with cmdStatus := 0#16 ++ o ++ 0x00#8, irqPend := s.irqPend ||| 0x2#32 } := rfl

theorem raise_error (i : Instr) (c : ResultCode) (s : State) (h : c.isError = true) :
    raise i c s = { s with cmdStatus := 0#16 ++ i.opcode ++ c.byte, irqPend := s.irqPend ||| 0x6#32 } := by
  simp only [raise, complete, h, if_true]; rfl

/-- Everything a command can do: an error of three codes, a lifecycle no-op of the timer commands, or OK. -/
theorem exec_cases (i : Instr) (s : State) :
    (∃ c, (c = .configError ∨ c = .outOfRange ∨ c = .invalidValue) ∧ exec i s = .next (raise i c s)) ∨
    ((i = .start ∨ i = .stop ∨ i = .tick) ∧ exec i s = .next (lifecycleNoop i s)) ∨
    (∃ s', exec i s = .next (complete i.opcode .ok s')) := by
  cases i with
  | nop => exact .inr (.inr ⟨_, rfl⟩)
  | init =>
    simp only [exec]; unfold execInit
    split
    · exact .inl ⟨_, .inl rfl, rfl⟩
    · exact .inr (.inr ⟨_, rfl⟩)
  | start =>
    simp only [exec]; unfold execStart
    split
    · exact .inr (.inr ⟨_, rfl⟩)
    · exact .inr (.inl ⟨by decide, rfl⟩)
  | stop =>
    simp only [exec]; unfold execStop
    split
    · exact .inr (.inr ⟨_, rfl⟩)
    · exact .inr (.inl ⟨by decide, rfl⟩)
  | tick =>
    simp only [exec]; unfold execTick
    split
    · exact .inr (.inr ⟨_, rfl⟩)
    · exact .inr (.inl ⟨by decide, rfl⟩)
  | reset => exact .inr (.inr ⟨_, rfl⟩)
  | setCenterFreq =>
    simp only [exec]; unfold execSetCenterFreq
    split
    · exact .inr (.inr ⟨_, rfl⟩)
    · exact .inl ⟨_, .inr (.inl rfl), rfl⟩
  | setGain =>
    simp only [exec]; unfold execSetGain
    split
    · exact .inr (.inr ⟨_, rfl⟩)
    · exact .inl ⟨_, .inr (.inl rfl), rfl⟩
  | setSampleRate =>
    simp only [exec]; unfold execSetSampleRate
    split
    · exact .inr (.inr ⟨_, rfl⟩)
    · exact .inl ⟨_, .inr (.inr rfl), rfl⟩
  | setNoiseEnable en => exact .inr (.inr ⟨_, rfl⟩)
  | setNoiseSigma =>
    simp only [exec]; unfold execSetNoiseSigma
    split
    · exact .inr (.inr ⟨_, rfl⟩)
    · exact .inl ⟨_, .inr (.inr rfl), rfl⟩

/-- INIT's loop is one initSlot per slot, by its number (R152). -/
theorem initSlots_eq (p : Params) (cf : F64) (i : Nat) (l : List Slot) :
    initSlots p cf i l =
      ((l.mapIdx fun k sl => initSlot p cf (i + k) sl).map (·.1),
       (l.mapIdx fun k sl => initSlot p cf (i + k) sl).any (·.2)) := by
  induction l generalizing i with
  | nil => rfl
  | cons a l ih =>
    have hk : (fun k sl => initSlot p cf (i + 1 + k) sl) = fun k sl => initSlot p cf (i + (k + 1)) sl := by
      funext k sl; rw [Nat.add_assoc, Nat.add_comm 1 k]
    simp only [initSlots, ih, hk, List.mapIdx_cons, List.map_cons, List.any_cons, Nat.add_zero]

end Sys2Proof.Machine
end

