-- ==== Sys2Proof/Laws/Float.lean ====
section
/-! SUPPORT. The small lemmas of binary64 arithmetic: rounding an exact value gives it back, products with 1 and 0, and
sums with 0 (R8). -/

namespace Sys2Proof

theorem F64.mag_lt (x : F64) : x.mag < 2 ^ 63 := Nat.mod_lt _ (by decide)

theorem F64.sign_eq (x : F64) : x.sign = decide (2 ^ 63 ≤ x.bits.toNat) := by
  simp only [F64.sign, BitVec.getLsbD, Nat.testBit_eq_decide_div_mod_eq]
  have := x.bits.isLt
  congr 1
  apply propext
  constructor <;> intro h <;> omega

/-- A value is its sign and its magnitude. -/
theorem F64.ofSignMag_eta (x : F64) : F64.ofSignMag x.sign x.mag = x := by
  have := x.bits.isLt
  cases x with
  | mk b =>
    simp only [F64.ofSignMag, F64.sign_eq, F64.mag, F64.mk.injEq]
    apply BitVec.eq_of_toNat_eq
    rw [BitVec.toNat_ofNat]
    simp only at this ⊢
    by_cases h : 2 ^ 63 ≤ b.toNat
    · rw [if_pos (by simpa using h)]; omega
    · rw [if_neg (by simpa using h)]; omega

@[simp] theorem F64.mag_ofSignMag (s : Bool) (m : Nat) (h : m < 2 ^ 63) : (F64.ofSignMag s m).mag = m := by
  simp only [F64.ofSignMag, F64.mag, BitVec.toNat_ofNat]
  cases s <;> simp <;> omega

@[simp] theorem F64.sign_ofSignMag (s : Bool) (m : Nat) (h : m < 2 ^ 63) : (F64.ofSignMag s m).sign = s := by
  rw [F64.sign_eq]
  simp only [F64.ofSignMag, BitVec.toNat_ofNat]
  cases s <;> simp <;> omega

theorem rneDiv_mul (q d : Nat) (h : 0 < d) : rneDiv (q * d) d = q := by
  have hm : q * d % d = 0 := Nat.mul_mod_left q d
  simp only [rneDiv, hm, Nat.mul_div_cancel q h]
  rw [if_pos (by omega)]

/-- Rounding a magnitude that the format holds gives its pattern back. -/
theorem roundMag_units (x : F64) (h : x.isFinite = true) (d : Nat) (hd : 0 < d) :
    roundMag 52 F64.infMag (x.units * d) d = x.mag := by
  have hf : x.mag < F64.infMag := by simpa [F64.isFinite] using h
  have hinf : F64.infMag = 2047 * 2 ^ 52 := by decide
  simp only [roundMag, Nat.mul_div_cancel _ hd]
  by_cases he : x.mag / 2 ^ 52 = 0
  · have hu : x.units = x.mag := by
      simp only [F64.units, he, if_true]; omega
    have hlog : x.mag.log2 - 52 = 0 := by
      have : x.mag < 2 ^ 52 := by omega
      by_cases h0 : x.mag = 0
      · rw [h0]; decide
      · have := (Nat.log2_lt h0).2 this; omega
    rw [hu, hlog, Nat.zero_mul, Nat.zero_add, Nat.pow_zero, Nat.mul_one, rneDiv_mul _ _ hd]
    omega
  · obtain ⟨e, hee⟩ : ∃ e, x.mag / 2 ^ 52 = e + 1 := ⟨x.mag / 2 ^ 52 - 1, by omega⟩
    have hu : x.units = (2 ^ 52 + x.mag % 2 ^ 52) * 2 ^ e := by
      rw [F64.units, if_neg he, hee, Nat.add_sub_cancel]
    have hlt : x.mag % 2 ^ 52 < 2 ^ 52 := Nat.mod_lt _ (by decide)
    have hlog : x.units.log2 = 52 + e := by
      rw [hu]
      apply (Nat.log2_eq_iff (Nat.mul_ne_zero (by omega) (by positivity))).2
      constructor
      · rw [Nat.pow_add]; exact Nat.mul_le_mul_right _ (by omega)
      · rw [show 52 + e + 1 = 53 + e by omega, Nat.pow_add]
        exact Nat.mul_lt_mul_of_pos_right (by omega) (by positivity)
    rw [hlog, Nat.add_sub_cancel_left]
    have hr : rneDiv (x.units * d) (d * 2 ^ e) = 2 ^ 52 + x.mag % 2 ^ 52 := by
      rw [hu, Nat.mul_assoc, Nat.mul_comm (2 ^ e) d]
      exact rneDiv_mul _ _ (Nat.mul_pos hd (by positivity))
    rw [hr]
    omega

/-- Rounding the exact value of a finite binary64, whatever the common denominator, gives it back. -/
theorem F64.round_units (x : F64) (h : x.isFinite = true) (d : Nat) (hd : 0 < d) :
    F64.round x.sign (x.units * d) d = x := by
  rw [F64.round, roundMag_units x h d hd, F64.ofSignMag_eta]

theorem F64.isNaN_of_isFinite {x : F64} (h : x.isFinite = true) : x.isNaN = false := by
  simp only [F64.isFinite, F64.isNaN, decide_eq_true_eq, decide_eq_false_iff_not] at *; omega

theorem F64.isInf_of_isFinite {x : F64} (h : x.isFinite = true) : x.isInf = false := by
  simp only [F64.isFinite, F64.isInf, decide_eq_true_eq] at *
  rw [beq_eq_false_iff_ne]; omega

theorem roundMag_zero (d : Nat) (hd : 0 < d) : roundMag 52 F64.infMag 0 d = 0 := by
  have h : rneDiv 0 d = 0 := by simpa using rneDiv_mul 0 d hd
  simp [roundMag, h]

/-- A zero of either sign. -/
def F64.isZero (x : F64) : Bool := x.mag == 0

theorem F64.unitsOne_pos : 0 < F64.unitsOne := by unfold F64.unitsOne; positivity

theorem F64.units_of_isZero {x : F64} (h : x.isZero = true) : x.units = 0 := by
  simp only [F64.isZero, beq_iff_eq] at h; simp [F64.units, h]

theorem F64.isFinite_of_isZero {x : F64} (h : x.isZero = true) : x.isFinite = true := by
  simp only [F64.isZero, beq_iff_eq] at h; simp [F64.isFinite, h, F64.infMag]

/-- A finite value times a zero is a zero, of the product's sign. -/
theorem F64.mul_zero_right (a b : F64) (ha : a.isFinite = true) (hb : b.isZero = true) :
    a.mul b = F64.ofSignMag (a.sign != b.sign) 0 := by
  have hbf := F64.isFinite_of_isZero hb
  simp only [F64.mul, F64.isNaN_of_isFinite ha, F64.isNaN_of_isFinite hbf, F64.isInf_of_isFinite ha,
    F64.isInf_of_isFinite hbf, Bool.or_self, Bool.false_eq_true, if_false, F64.units_of_isZero hb, Nat.mul_zero,
    F64.round]
  rw [roundMag_zero _ F64.unitsOne_pos]

theorem F64.units_one : F64.one.units = F64.unitsOne := by decide +kernel

/-- `a · 1.0 = a` for a finite a. -/
theorem F64.mul_one_right (a : F64) (ha : a.isFinite = true) : a.mul F64.one = a := by
  have h1 : F64.one.isFinite = true := by decide
  have hs : (a.sign != F64.one.sign) = a.sign := by
    rw [show F64.one.sign = false by decide]; cases a.sign <;> rfl
  simp only [F64.mul, F64.isNaN_of_isFinite ha, F64.isNaN_of_isFinite h1, F64.isInf_of_isFinite ha,
    F64.isInf_of_isFinite h1, Bool.or_self, Bool.false_eq_true, if_false, hs, F64.units_one]
  exact F64.round_units a ha _ F64.unitsOne_pos

/-- `+0.0 + a` is a, but for a = −0.0, where it is `+0.0`. -/
theorem F64.zero_add (a : F64) (ha : a.isFinite = true) :
    F64.zero.add a = if a.isZero then F64.zero else a := by
  have h0 : F64.zero.isFinite = true := by decide
  have hu0 : F64.zero.units = 0 := by decide
  have hs0 : F64.zero.sign = false := by decide
  have hr := F64.round_units a ha 1 (by decide)
  rw [Nat.mul_one] at hr
  simp only [F64.add, F64.isNaN_of_isFinite ha, F64.isNaN_of_isFinite h0, F64.isInf_of_isFinite ha,
    F64.isInf_of_isFinite h0, Bool.or_self, Bool.false_eq_true, if_false, hu0, hs0, Nat.zero_add, Nat.sub_zero,
    Nat.not_lt_zero]
  by_cases hz : a.isZero = true
  · have hau := F64.units_of_isZero hz
    rw [if_pos hz]
    by_cases hs : false = a.sign
    · rw [if_pos hs, hau]; decide
    · rw [if_neg hs, hau, if_neg (by decide)]
  · rw [if_neg hz]
    by_cases hs : false = a.sign
    · rw [if_pos hs, hs, hr]
    · have hpos : 0 < a.units := by
        simp only [F64.isZero, beq_iff_eq] at hz
        simp only [F64.units]
        split
        · omega
        · exact Nat.mul_pos (by omega) (Nat.pow_pos (by decide))
      rw [if_neg hs, if_pos hpos, hr]

end Sys2Proof
end

