-- ==== Sys2Proof/Laws/Tick.lean ====
section
/-! SUPPORT. What a tick can change, said once: the station run, the stages, and the tick run to its delivery. -/

namespace Sys2Proof.Machine

/-! ## Reading a shared resource (R96) -/

/-- Where nothing was replaced, a tick reads the value that stands, and draws nothing. -/
@[simp] theorem readShared_nil {α : Type} (now : α) (e : Env) : readShared now [] e = (now, e) := rfl

/-- A tick reads the value that stands or one that was replaced. -/
theorem readShared_mem {α : Type} (now : α) (olds : List α) (e : Env) : (readShared now olds e).1 ∈ now :: olds := by
  cases olds with
  | nil => simp
  | cons o os =>
    have hlt : (drawPick e).1 % ((o :: os).length + 1) < (now :: o :: os).length := Nat.mod_lt _ (by simp)
    simp only [readShared, List.getD_eq_getElem?_getD, List.getElem?_eq_getElem hlt, Option.getD_some]
    exact List.getElem_mem hlt

/-- A free choice changes nothing but the choices still to come. -/
theorem drawPick_env (e : Env) :
    ∃ ps n, (drawPick e).2 = { e with picks := ps, pickDraws := n } := by
  unfold drawPick
  split <;> exact ⟨_, _, rfl⟩

/-- Reading a shared resource changes nothing but the choices still to come. -/
theorem readShared_env {α : Type} (now : α) (olds : List α) (e : Env) :
    ∃ ps n, (readShared now olds e).2 = { e with picks := ps, pickDraws := n } := by
  cases olds with
  | nil => exact ⟨_, _, rfl⟩
  | cons o os => exact drawPick_env e

@[simp] theorem drawPick_inbox (e : Env) : (drawPick e).2.inbox = e.inbox := by
  obtain ⟨_, _, h⟩ := drawPick_env e; rw [h]
@[simp] theorem readShared_inbox {α : Type} (now : α) (olds : List α) (e : Env) :
    (readShared now olds e).2.inbox = e.inbox := by
  obtain ⟨_, _, h⟩ := readShared_env now olds e; rw [h]
@[simp] theorem readShared_starts {α : Type} (now : α) (olds : List α) (e : Env) :
    (readShared now olds e).2.starts = e.starts := by
  obtain ⟨_, _, h⟩ := readShared_env now olds e; rw [h]
@[simp] theorem readShared_delivered {α : Type} (now : α) (olds : List α) (e : Env) :
    (readShared now olds e).2.delivered = e.delivered := by
  obtain ⟨_, _, h⟩ := readShared_env now olds e; rw [h]
@[simp] theorem readShared_busResp {α : Type} (now : α) (olds : List α) (e : Env) :
    (readShared now olds e).2.busResp = e.busResp := by
  obtain ⟨_, _, h⟩ := readShared_env now olds e; rw [h]

/-! ## Station run -/

/-- What a station run never writes (R303): staging, what INIT recorded, the identity, the tuning. -/
structure StationFrame (a b : Station) : Prop where
  desc : b.desc = a.desc
  dfreq : b.dfreq = a.dfreq
  lens : b.csLen = a.csLen ∧ b.psLen = a.psLen ∧ b.rtLen = a.rtLen
  bufs : b.csBuf = a.csBuf ∧ b.psBuf = a.psBuf ∧ b.rtBuf = a.rtBuf
  status : b.status = a.status
  code : b.code = a.code
  freq : b.freq = a.freq
  texts : b.csN = a.csN ∧ b.psN = a.psN ∧ b.rtN = a.rtN
  pi : b.pi = a.pi
  tuning : b.tuning = a.tuning
  tuneOld : b.tuneOld = a.tuneOld

theorem StationFrame.refl (a : Station) : StationFrame a a :=
  ⟨rfl, rfl, ⟨rfl, rfl, rfl⟩, ⟨rfl, rfl, rfl⟩, rfl, rfl, rfl, ⟨rfl, rfl, rfl⟩, rfl, rfl, rfl⟩

/-- The MPX loop writes the RDS state and Q12 of the station, and nothing else of it. -/
theorem mpxRun_station (p : Params) (i : Nat) (xs : List AudioPair) (sl : Slot) :
    ∃ r q, (mpxRun p i xs sl).2.st = { sl.st with rds := r, q12 := q } := by
  induction xs generalizing sl with
  | nil => exact ⟨_, _, rfl⟩
  | cons a as ih =>
    obtain ⟨r, q, h⟩ := ih { st := { sl.st with rds := (rdsSample p i sl.st sl.feed).2.1,
                                                q12 := (sl.st.q12 + 1) % 12 },
                             feed := (rdsSample p i sl.st sl.feed).2.2 }
    exact ⟨r, q, by simp only [mpxRun, h]⟩

theorem stationRun_frame (p : Params) (i n : Nat) (tn : Tuning) (sl : Slot) :
    StationFrame sl.st (stationRun p i n tn sl).1.st := by
  unfold stationRun
  split
  · exact ⟨rfl, rfl, ⟨rfl, rfl, rfl⟩, ⟨rfl, rfl, rfl⟩, rfl, rfl, rfl, ⟨rfl, rfl, rfl⟩, rfl, rfl, rfl⟩
  · dsimp only
    split
    · exact ⟨rfl, rfl, ⟨rfl, rfl, rfl⟩, ⟨rfl, rfl, rfl⟩, rfl, rfl, rfl, ⟨rfl, rfl, rfl⟩, rfl, rfl, rfl⟩
    · rename_i xs hx
      obtain ⟨r, q, h⟩ := mpxRun_station p i xs
        { st := { sl.st with oobLast := false }, feed := (audioPull i n sl.feed).2 }
      simp only [stationSignal]
      rw [h]
      exact ⟨rfl, rfl, ⟨rfl, rfl, rfl⟩, ⟨rfl, rfl, rfl⟩, rfl, rfl, rfl, ⟨rfl, rfl, rfl⟩, rfl, rfl, rfl⟩

/-! ## Lengths (R306, R325, R330, R335, R345) -/

@[simp] theorem audioBlock_length (i k n : Nat) (xs : List AudioPair) : (audioBlock i k n xs).length = n := by
  simp [audioBlock]

theorem audioPull_length {i n : Nat} {f : Feed} {xs : List AudioPair} (h : (audioPull i n f).1 = some xs) :
    xs.length = n := by
  unfold audioPull at h
  split at h
  · dsimp only at h
    split at h
    · cases h
    · cases h; simp
  · cases h
  · cases h; simp

@[simp] theorem mpxRun_length (p : Params) (i : Nat) (xs : List AudioPair) (sl : Slot) :
    (mpxRun p i xs sl).1.length = xs.length := by
  induction xs generalizing sl with
  | nil => rfl
  | cons a as ih => simp [mpxRun, ih]

@[simp] theorem fmRun_length (p : Params) (ph : F64) (xs : List F64) : (fmRun p ph xs).1.length = xs.length := by
  induction xs generalizing ph with
  | nil => rfl
  | cons a as ih => simp [fmRun, ih]

@[simp] theorem bank_length (p : Params) (h : Vector (Cplx × Cplx) 10) (xs : List Cplx) :
    (bank p h xs).1.length = phases * xs.length := by
  induction xs generalizing h with
  | nil => rfl
  | cons a as ih => simp [bank, ih, phases]; omega

@[simp] theorem tunerMix_length (inc ph : Cplx) (up : List Cplx) : (tunerMix inc ph up).length = up.length := by
  induction up generalizing ph with
  | nil => rfl
  | cons a as ih => simp [tunerMix, ih]

@[simp] theorem rateFilterFrom_length (c : List F64) (past mix : List Cplx) :
    (rateFilterFrom c past mix).length = mix.length := by
  induction mix generalizing past with
  | nil => rfl
  | cons a as ih => simp [rateFilterFrom, ih]

@[simp] theorem rateFilter_length (c : List F64) (mix : List Cplx) : (rateFilter c mix).length = mix.length :=
  rateFilterFrom_length c [] mix

@[simp] theorem noiseAdd_length (n : Nat) (tab mix : List Cplx) : (noiseAdd n tab mix).length = mix.length := by
  simp [noiseAdd]

@[simp] theorem decimate_length (n : Nat) (y : List Cplx) : (decimate n y).length = decimatedLen y.length n := by
  simp [decimate]

@[simp] theorem gainApply_length (p : Params) (g : F64) (d : List Cplx) : (gainApply p g d).length = d.length := by
  simp [gainApply]

theorem mixer_fold_length (len : Nat) (slots : List Slot) (acc : List Cplx × Bool) (h : acc.1.length = len) :
    (slots.foldl (mixInto len) acc).1.length = len := by
  induction slots generalizing acc with
  | nil => exact h
  | cons sl sls ih =>
    apply ih
    unfold mixInto
    split
    · split
      · exact h
      · rename_i hl
        simp only [ne_eq, not_not] at hl
        simp [h, hl]
    · exact h

@[simp] theorem mixer_length (len : Nat) (slots : List Slot) : (mixer len slots).1.length = len :=
  mixer_fold_length len slots _ (by simp)

/-- Decimation never lengthens a block. -/
theorem decimatedLen_le (len n : Nat) : decimatedLen len n ≤ len := by
  unfold decimatedLen
  rcases Nat.eq_zero_or_pos n with rfl | hn
  · simp
  · rcases Nat.eq_zero_or_pos len with rfl | hl
    · rw [Nat.div_eq_of_lt (by omega)]
    · apply Nat.lt_succ_iff.mp
      rw [Nat.div_lt_iff_lt_mul hn, Nat.succ_mul]
      have := Nat.le_mul_of_pos_right len hn
      omega

/-- Every station block has length L_UP, in band, out of band and on a fault (R306). -/
theorem stationRun_out_length (p : Params) (i n : Nat) (tn : Tuning) (sl : Slot) :
    (stationRun p i n tn sl).1.st.out.length = phases * n := by
  unfold stationRun
  split
  · simp [silence]
  · dsimp only
    split
    · simp [silence]
    · rename_i xs hx
      simp [stationSignal, tunerRun, audioPull_length hx]

/-! ## The stages -/

/-- What no stage of a tick writes. -/
structure TickFrame (s t : State) : Prop where
  par : t.par = s.par
  life : t.life = s.life
  cmdStatus : t.cmdStatus = s.cmdStatus
  irqEn : t.irqEn = s.irqEn
  arg0 : t.arg0 = s.arg0
  nextDeadline : t.nextDeadline = s.nextDeadline
  centerFreq : t.centerFreq = s.centerFreq
  gainDb : t.gainDb = s.gainDb
  sampleRate : t.sampleRate = s.sampleRate
  decim : t.decim = s.decim
  rateCoef : t.rateCoef = s.rateCoef
  noiseEn : t.noiseEn = s.noiseEn
  noiseSigma : t.noiseSigma = s.noiseSigma
  noiseTab : t.noiseTab = s.noiseTab
  block : t.block = s.block
  nSlots : t.slots.length = s.slots.length
  inbox : t.env.inbox = s.env.inbox
  starts : t.env.starts = s.env.starts

theorem TickFrame.refl (s : State) : TickFrame s s :=
  ⟨rfl, rfl, rfl, rfl, rfl, rfl, rfl, rfl, rfl, rfl, rfl, rfl, rfl, rfl, rfl, rfl, rfl, rfl⟩

theorem TickFrame.trans {a b c : State} (h : TickFrame a b) (k : TickFrame b c) : TickFrame a c :=
  ⟨k.par.trans h.par, k.life.trans h.life, k.cmdStatus.trans h.cmdStatus, k.irqEn.trans h.irqEn,
   k.arg0.trans h.arg0, k.nextDeadline.trans h.nextDeadline, k.centerFreq.trans h.centerFreq,
   k.gainDb.trans h.gainDb, k.sampleRate.trans h.sampleRate, k.decim.trans h.decim, k.rateCoef.trans h.rateCoef,
   k.noiseEn.trans h.noiseEn, k.noiseSigma.trans h.noiseSigma, k.noiseTab.trans h.noiseTab, k.block.trans h.block,
   k.nSlots.trans h.nSlots, k.inbox.trans h.inbox, k.starts.trans h.starts⟩

/-- What a station unit leaves behind: its slot run, choices drawn, and a warning on a fault. -/
theorem runSlot_cases (s : State) (i : Nat) :
    runSlot s i = s ∨
    ∃ sl tn c e, s.slots[i]? = some sl ∧ tn ∈ sl.st.tuning :: sl.st.tuneOld ∧
      (∃ ps n, e = { s.env with picks := ps, pickDraws := n }) ∧
      c = (stationRun s.par i s.block tn sl).2 ∧
      runSlot s i = setWarnIf c warnStationFault
        { s with slots := s.slots.set i (stationRun s.par i s.block tn sl).1, env := e } := by
  unfold runSlot
  split
  · exact .inl rfl
  · rename_i sl hsl
    exact .inr ⟨sl, _, _, _, hsl, readShared_mem _ _ _, readShared_env _ _ _, rfl, rfl⟩

theorem setWarnIf_frame (c : Bool) (b : Word32) (s : State) : TickFrame s (setWarnIf c b s) := by
  constructor <;> simp

theorem runSlot_frame (s : State) (i : Nat) : TickFrame s (runSlot s i) := by
  rcases runSlot_cases s i with h | ⟨sl, tn, c, e, _, _, ⟨ps, n, rfl⟩, _, h⟩
  · rw [h]; exact TickFrame.refl s
  · rw [h]
    refine TickFrame.trans ?_ (setWarnIf_frame _ _ _)
    constructor <;> simp

/-- A station unit keeps the tick's stage and the engine's buffers. -/
theorem runSlot_engine (s : State) (i : Nat) :
    (runSlot s i).tick = s.tick ∧ (runSlot s i).mixBuf = s.mixBuf ∧ (runSlot s i).outBuf = s.outBuf ∧
      (runSlot s i).outLen = s.outLen ∧ (runSlot s i).tickCount = s.tickCount ∧ (runSlot s i).old = s.old ∧
      (runSlot s i).env.delivered = s.env.delivered ∧ (runSlot s i).env.busResp = s.env.busResp ∧
      (runSlot s i).warn &&& ~~~warnStationFault = s.warn &&& ~~~warnStationFault := by
  rcases runSlot_cases s i with h | ⟨sl, tn, c, e, _, _, ⟨ps, n, rfl⟩, _, h⟩
  · rw [h]; simp
  · rw [h]
    refine ⟨by simp, by simp, by simp, by simp, by simp, by simp, by simp, by simp, ?_⟩
    cases c
    · simp
    · simp only [setWarnIf_warn, if_true]
      ext k hk
      simp only [BitVec.getElem_and, BitVec.getElem_or, BitVec.getElem_not]
      cases s.warn[k] <;> cases warnStationFault[k] <;> rfl

theorem backStage_frame (s : State) : TickFrame s (backStage s) := by
  unfold backStage
  split
  · exact TickFrame.refl s
  · constructor <;> simp [mixStage, setWarnIf_env]
  · constructor <;> simp [noiseStage]
  · constructor <;> simp [filterStage]
  · constructor <;> simp [decimateStage]
  · constructor <;> simp [gainStage]
  · constructor <;> simp

theorem foldl_runSlot_frame (l : List Nat) (s : State) : TickFrame s (l.foldl runSlot s) := by
  induction l generalizing s with
  | nil => exact TickFrame.refl s
  | cons i is ih => exact (runSlot_frame s i).trans (ih _)

theorem withTick_frame (ph : TickPhase) (s : State) : TickFrame s { s with tick := ph } := by
  constructor <;> rfl

theorem finishStations_frame (s : State) : TickFrame s (finishStations s) := by
  unfold finishStations
  split
  · exact (foldl_runSlot_frame _ s).trans (withTick_frame _ _)
  · exact TickFrame.refl s

theorem finishTick_frame (s : State) : TickFrame s (finishTick s) :=
  (finishStations_frame s).trans <| (backStage_frame _).trans <| (backStage_frame _).trans <|
    (backStage_frame _).trans <| (backStage_frame _).trans <| (backStage_frame _).trans (backStage_frame _)

theorem beginTick_frame (s : State) : TickFrame s (beginTick s) := by
  constructor <;> simp [beginTick]

theorem advance_frame (s : State) : TickFrame s (advance s) := by
  unfold advance
  split
  · rename_i t ts ht
    obtain ⟨a, b, h⟩ := drawPick_env s.env
    refine TickFrame.trans (b := { s with env := (drawPick s.env).2 }) ?_
      ((runSlot_frame _ _).trans (withTick_frame _ _))
    constructor <;> simp [h]
  · exact backStage_frame s

/-- A tick run to its delivery is over. -/
theorem finishTick_tick (s : State) : (finishTick s).tick = .idle := by
  unfold finishTick
  have back_idle : ∀ t : State, t.tick = .idle → backStage t = t := by
    intro t h; unfold backStage; rw [h]
  have h6 : ∀ t : State, (∃ o, t.tick = .gained o) → (backStage t).tick = .idle := by
    rintro t ⟨o, h⟩; unfold backStage; rw [h]; rfl
  have h5 : ∀ t : State, (∃ o, t.tick = .decimated o) → ∃ o, (backStage t).tick = .gained o := by
    rintro t ⟨o, h⟩; unfold backStage; rw [h]; exact ⟨_, rfl⟩
  have h4 : ∀ t : State, (∃ o, t.tick = .filtered o) → ∃ o, (backStage t).tick = .decimated o := by
    rintro t ⟨o, h⟩; unfold backStage; rw [h]; exact ⟨_, rfl⟩
  have h3 : ∀ t : State, t.tick = .noised → ∃ o, (backStage t).tick = .filtered o := by
    rintro t h; unfold backStage; rw [h]; exact ⟨_, rfl⟩
  have h2 : ∀ t : State, t.tick = .mixed → (backStage t).tick = .noised := by
    rintro t h; unfold backStage; rw [h]; rfl
  have h1 : ∀ t : State, t.tick = .stations [] → (backStage t).tick = .mixed := by
    rintro t h; unfold backStage; rw [h]; simp
  have hi : ∀ t : State, t.tick = .idle → (backStage t).tick = .idle := by
    intro t h; rw [back_idle t h, h]
  unfold finishStations
  split
  · exact h6 _ (h5 _ (h4 _ (h3 _ (h2 _ (h1 _ rfl)))))
  · rename_i hne
    cases ht : s.tick with
    | idle => exact hi _ (hi _ (hi _ (hi _ (hi _ (hi _ ht)))))
    | stations todo => exact absurd ht (hne todo)
    | mixed => exact hi _ (h6 _ (h5 _ (h4 _ (h3 _ (h2 _ ht)))))
    | noised => exact hi _ (hi _ (h6 _ (h5 _ (h4 _ (h3 _ ht)))))
    | filtered y => exact hi _ (hi _ (hi _ (h6 _ (h5 _ (h4 _ ⟨_, ht⟩)))))
    | decimated d => exact hi _ (hi _ (hi _ (hi _ (h6 _ (h5 _ ⟨_, ht⟩)))))
    | gained o => exact hi _ (hi _ (hi _ (hi _ (hi _ (h6 _ ⟨_, ht⟩)))))

end Sys2Proof.Machine
end

