-- ==== Sys2Proof/Laws/Kept.lean ====
section
/-! SUPPORT. What a tick keeps of every station, slot by slot (R303). -/

namespace Sys2Proof.Machine

/-- What a tick keeps of every slot, in slot order. -/
abbrev keptOf (s : State) := s.slots.map fun sl => sl.st.kept

theorem StationFrame.kept {a b : Station} (h : StationFrame a b) : b.kept = a.kept := by
  simp only [Station.kept, h.desc, h.dfreq, h.lens.1, h.lens.2.1, h.lens.2.2, h.bufs.1, h.bufs.2.1, h.bufs.2.2, h.status,
    h.code, h.freq, h.texts.1, h.texts.2.1, h.texts.2.2, h.pi, h.tuning]

theorem keptOf_set (s : State) (i : Nat) (sl sl' : Slot) (hs : s.slots[i]? = some sl) (h : sl'.st.kept = sl.st.kept) :
    (s.slots.set i sl').map (fun x => x.st.kept) = keptOf s := by
  apply List.ext_getElem?
  intro k
  simp only [List.getElem?_map]
  by_cases hk : i = k
  · have hi := (List.getElem?_eq_some_iff.1 hs).1
    rw [← hk, List.getElem?_set_self hi, hs, Option.map_some, Option.map_some, h]
  · rw [List.getElem?_set_ne hk]

theorem runSlot_kept (s : State) (i : Nat) : keptOf (runSlot s i) = keptOf s := by
  rcases runSlot_cases s i with h | ⟨sl, tn, c, e, hsl, _, _, _, h⟩
  · rw [h]
  · show (runSlot s i).slots.map _ = _
    rw [h, setWarnIf_slots]
    exact keptOf_set s i sl _ hsl (stationRun_frame _ _ _ _ _).kept

theorem foldl_runSlot_kept (l : List Nat) (s : State) : keptOf (l.foldl runSlot s) = keptOf s := by
  induction l generalizing s with
  | nil => rfl
  | cons i is ih => exact (ih _).trans (runSlot_kept s i)

theorem backStage_kept (s : State) : keptOf (backStage s) = keptOf s := by
  unfold backStage
  split <;> simp [keptOf, mixStage, noiseStage, filterStage, decimateStage, gainStage]

theorem finishStations_kept (s : State) : keptOf (finishStations s) = keptOf s := by
  unfold finishStations
  split
  · exact foldl_runSlot_kept _ s
  · rfl

theorem finishTick_kept (s : State) : keptOf (finishTick s) = keptOf s := by
  unfold finishTick
  rw [backStage_kept, backStage_kept, backStage_kept, backStage_kept, backStage_kept, backStage_kept,
    finishStations_kept]

theorem beginTick_kept (s : State) : keptOf (beginTick s) = keptOf s := by
  simp [keptOf, beginTick, Station.kept]

end Sys2Proof.Machine
end

