-- ==== Sys2Proof/Laws/Memory.lean ====
section
/-! SUPPORT. OUT_BUF stays in its canonical form: it holds OUT_LEN samples (R38, log 13). Delivery and RESET are the only
writers; every other operation leaves it as it was. -/

namespace Sys2Proof.Machine

theorem Memory.wf_of_eq {s t : State} (hb : t.outBuf = s.outBuf) (hl : t.outLen = s.outLen) (h : Memory.wf s = true) :
    Memory.wf t = true := by
  unfold Memory.wf at *; rw [hb, hl]; exact h

/-- Delivery establishes the form. -/
theorem deliver_wf (o : List Cplx) (s : State) : Memory.wf (deliver o s) = true := by
  simp [Memory.wf, deliver]

theorem reset_wf (p : Params) (slots : List Slot) (env : Env) : Memory.wf (State.resetWith p slots env) = true := rfl

theorem State.reset_memory_wf : Memory.wf State.reset = true := rfl

theorem runSlot_wf {s : State} (i : Nat) (h : Memory.wf s = true) : Memory.wf (runSlot s i) = true :=
  Memory.wf_of_eq (runSlot_engine s i).2.2.1 (runSlot_engine s i).2.2.2.1 h

theorem foldl_runSlot_wf (l : List Nat) {s : State} (h : Memory.wf s = true) : Memory.wf (l.foldl runSlot s) = true := by
  induction l generalizing s with
  | nil => exact h
  | cons i is ih => exact ih (runSlot_wf i h)

theorem backStage_wf {s : State} (h : Memory.wf s = true) : Memory.wf (backStage s) = true := by
  unfold backStage
  split
  · exact h
  · exact Memory.wf_of_eq (by simp [mixStage]) (by simp [mixStage]) h
  · exact Memory.wf_of_eq (by simp [noiseStage]) (by simp [noiseStage]) h
  · exact Memory.wf_of_eq (by simp [filterStage]) (by simp [filterStage]) h
  · exact Memory.wf_of_eq (by simp [decimateStage]) (by simp [decimateStage]) h
  · exact Memory.wf_of_eq (by simp [gainStage]) (by simp [gainStage]) h
  · rename_i o _; exact Memory.wf_of_eq rfl rfl (deliver_wf o s)

theorem finishStations_wf {s : State} (h : Memory.wf s = true) : Memory.wf (finishStations s) = true := by
  unfold finishStations
  split
  · exact Memory.wf_of_eq rfl rfl (foldl_runSlot_wf _ h)
  · exact h

theorem finishTick_wf {s : State} (h : Memory.wf s = true) : Memory.wf (finishTick s) = true :=
  backStage_wf (backStage_wf (backStage_wf (backStage_wf (backStage_wf (backStage_wf (finishStations_wf h))))))

theorem advance_wf {s : State} (h : Memory.wf s = true) : Memory.wf (advance s) = true := by
  unfold advance
  split
  · exact Memory.wf_of_eq rfl rfl (runSlot_wf _ (Memory.wf_of_eq rfl rfl h))
  · exact backStage_wf h

theorem fireTimer_wf (lag : Bool) {s : State} (h : Memory.wf s = true) : Memory.wf (fireTimer lag s) = true := by
  unfold fireTimer
  split
  · exact Memory.wf_of_eq (by simp [beginTick, rearmTimer]) (by simp [beginTick, rearmTimer]) h
  · exact h

theorem exec_wf {i : Instr} {s t : State} (h : Memory.wf s = true) (he : exec i s = .next t) : Memory.wf t = true := by
  have hc : ∀ o c (u : State), Memory.wf u = true → Memory.wf (complete o c u) = true :=
    fun _ _ u hu => Memory.wf_of_eq rfl rfl hu
  have hn : Memory.wf (setWarn warnLifecycle s) = true := Memory.wf_of_eq rfl rfl h
  have hf : Memory.wf (stopTimer s) = true := Memory.wf_of_eq rfl rfl (finishTick_wf h)
  cases i with
  | nop => injection he with he; subst he; exact hc _ _ _ h
  | init =>
    simp only [exec, execInit] at he; injection he with he; subst he
    split
    · exact hc _ _ _ h
    · exact hc _ _ _ (Memory.wf_of_eq (by simp [initBody]) (by simp [initBody]) h)
  | start =>
    simp only [exec, execStart] at he; injection he with he; subst he
    split
    · exact hc _ _ _ (Memory.wf_of_eq rfl rfl h)
    · exact hc _ _ _ hn
  | stop =>
    simp only [exec, execStop] at he; injection he with he; subst he
    split
    · exact hc _ _ _ (Memory.wf_of_eq rfl rfl hf)
    · exact hc _ _ _ hn
  | tick =>
    simp only [exec, execTick] at he; injection he with he; subst he
    split
    · exact hc _ _ _ (finishTick_wf (Memory.wf_of_eq rfl rfl h))
    · exact hc _ _ _ hn
  | reset => injection he with he; subst he; rfl
  | setCenterFreq =>
    simp only [exec, execSetCenterFreq] at he; injection he with he; subst he
    split <;> exact hc _ _ _ (Memory.wf_of_eq rfl rfl h)
  | setGain =>
    simp only [exec, execSetGain] at he; injection he with he; subst he
    split
    · exact hc _ _ _ (Memory.wf_of_eq (by simp) (by simp) h)
    · exact hc _ _ _ h
  | setSampleRate =>
    simp only [exec, execSetSampleRate] at he; injection he with he; subst he
    split
    · exact hc _ _ _ (Memory.wf_of_eq (by simp) (by simp) h)
    · exact hc _ _ _ h
  | setNoiseEnable en =>
    injection he with he; subst he; exact hc _ _ _ (Memory.wf_of_eq (by simp) (by simp) h)
  | setNoiseSigma =>
    simp only [exec, execSetNoiseSigma] at he; injection he with he; subst he
    split
    · split
      · exact hc _ _ _ h
      · exact hc _ _ _ (Memory.wf_of_eq (by simp [regenerateNoise]) (by simp [regenerateNoise]) h)
    · exact hc _ _ _ h

/-- Every step keeps the form. -/
theorem step_wf {s t : State} (h : Memory.wf s = true) (hs : step s = .next t) : Memory.wf t = true := by
  rcases step_cases hs with ⟨_, rfl⟩ | ⟨lag, rest, _, rfl⟩ | ⟨rest, _, rfl⟩ | ⟨op, rest, r, _, _, rfl⟩ |
    ⟨op, rest, s', _, he, rfl⟩ | ⟨op, rest, w, i, _, _, _, he⟩ | ⟨op, rest, w, e, _, _, _, rfl⟩
  · exact h
  · exact fireTimer_wf lag (Memory.wf_of_eq rfl rfl h)
  · exact advance_wf (Memory.wf_of_eq rfl rfl h)
  · exact Memory.wf_of_eq rfl rfl h
  · rcases busEffect_store_cases he with ⟨off, v, rfl⟩ | ⟨i, off, v, rfl⟩
    · rcases writeGlobal_cases off v (takeEvent rest s) with ⟨x, hx⟩ | hx | hx | hx | hx <;> rw [hx] <;>
        exact Memory.wf_of_eq rfl rfl h
    · rcases writeStation_cases i off v (takeEvent rest s) with ⟨sl, _, _, hx⟩ | hx <;> rw [hx] <;>
        exact Memory.wf_of_eq rfl rfl h
  · exact exec_wf (s := respond writeAccepted (takeEvent rest s)) (Memory.wf_of_eq (s := s) rfl rfl h) he
  · exact Memory.wf_of_eq rfl rfl h

end Sys2Proof.Machine
end

