-- ==== Sys2Proof/Laws/Params.lean ====
section
/-! SUPPORT. The block's configuration is admissible (R5), and the sample-rate choice stays among the valid rates (R162). -/

namespace Sys2Proof

theorem Params.least_wf : Params.least.wf = true := by decide +kernel

/-- Whatever the opaque configuration is, the block's parameters are admissible (log 5). -/
theorem Config.params_wf : Config.params.wf = true := by
  unfold Config.params
  split
  · assumption
  · exact Params.least_wf

namespace Machine

theorem rateDivisors_dvd : ∀ d ∈ rateDivisors, d * (maxRate / d) = maxRate := by decide +kernel

theorem maxRate_mem : maxRate ∈ rateDivisors := by decide +kernel

theorem mem_rateDivisors : ∀ d, d ∈ rateDivisors → d ∣ maxRate :=
  fun d hd => ⟨maxRate / d, (rateDivisors_dvd d hd).symm⟩

theorem Params.minRate_le {p : Params} (h : p.wf = true) : p.minRate ≤ maxRate := by
  simp only [Params.wf, Bool.and_eq_true, decide_eq_true_eq] at h
  exact h.1.1.1.1.1.1.1.1.1.2

theorem maxRate_valid {p : Params} (h : p.wf = true) : maxRate ∈ validRates p :=
  List.mem_filter.2 ⟨maxRate_mem, by simpa using Params.minRate_le h⟩

/-- The chosen rate is a valid rate. -/
theorem nearestRate_mem {p : Params} (h : p.wf = true) (r : F64) : nearestRate p r ∈ validRates p := by
  have key : ∀ (l : List Nat) (b : Nat), b ∈ validRates p → (∀ d ∈ l, d ∈ validRates p) →
      l.foldl (fun best d => if rateBetter r d best then d else best) b ∈ validRates p := by
    intro l
    induction l with
    | nil => intro b hb _; exact hb
    | cons d l ih =>
      intro b hb hl
      refine ih _ ?_ fun x hx => hl x (List.mem_cons_of_mem _ hx)
      show (if rateBetter r d b then d else b) ∈ validRates p
      split
      · exact hl d List.mem_cons_self
      · exact hb
  exact key _ _ (maxRate_valid h) fun d hd => hd

theorem mem_powers {b n k : Nat} (h : k < n) : b ^ k ∈ powers b n :=
  List.mem_map.2 ⟨k, List.mem_range.2 h, rfl⟩

/-- Every divisor of MAX_RATE is in the list. -/
theorem mem_rateDivisors_of_dvd {d : Nat} (h : d ∣ maxRate) : d ∈ rateDivisors := by
  have hm : maxRate = 2 ^ 6 * (3 ^ 1 * (5 ^ 4 * 19 ^ 1)) := by decide
  rw [hm] at h
  obtain ⟨a, y, ha, hy, rfl⟩ := (Nat.dvd_mul).1 h
  obtain ⟨b, z, hb, hz, rfl⟩ := (Nat.dvd_mul).1 hy
  obtain ⟨c, e, hc, he, rfl⟩ := (Nat.dvd_mul).1 hz
  obtain ⟨i, hi, rfl⟩ := (Nat.dvd_prime_pow Nat.prime_two).1 ha
  obtain ⟨j, hj, rfl⟩ := (Nat.dvd_prime_pow Nat.prime_three).1 hb
  obtain ⟨k, hk, rfl⟩ := (Nat.dvd_prime_pow Nat.prime_five).1 hc
  obtain ⟨l, hl, rfl⟩ := (Nat.dvd_prime_pow (by norm_num : Nat.Prime 19)).1 he
  refine List.mem_flatMap.2 ⟨2 ^ i, mem_powers (by omega), List.mem_flatMap.2 ⟨3 ^ j, mem_powers (by omega),
    List.mem_flatMap.2 ⟨5 ^ k, mem_powers (by omega), List.mem_map.2 ⟨19 ^ l, mem_powers (by omega), by ring⟩⟩⟩⟩

theorem rateBetter_trans {r : F64} {a b c : Nat} (hb : rateBetter r b a = false) (hc : rateBetter r c b = false) :
    rateBetter r c a = false := by
  simp only [rateBetter, Bool.or_eq_false_iff, Bool.and_eq_false_iff, decide_eq_false_iff_not, beq_eq_false_iff_ne] at *
  omega

theorem rateBetter_asymm {r : F64} {a b : Nat} (h : rateBetter r a b = true) : rateBetter r b a = false := by
  simp only [rateBetter, Bool.or_eq_true, Bool.and_eq_true, decide_eq_true_eq, beq_iff_eq, Bool.or_eq_false_iff,
    Bool.and_eq_false_iff, decide_eq_false_iff_not, beq_eq_false_iff_ne] at *
  omega

/-- No valid rate is chosen before the chosen one: none is nearer, and none as near is larger (R162). -/
theorem nearestRate_best {p : Params} (r : F64) : ∀ d ∈ validRates p, rateBetter r d (nearestRate p r) = false := by
  have key : ∀ (l : List Nat) (b : Nat),
      rateBetter r b (l.foldl (fun best d => if rateBetter r d best then d else best) b) = false ∧
      ∀ d ∈ l, rateBetter r d (l.foldl (fun best d => if rateBetter r d best then d else best) b) = false := by
    intro l
    induction l with
    | nil => intro b; exact ⟨by simp [rateBetter], by simp⟩
    | cons d l ih =>
      intro b
      simp only [List.foldl_cons]
      by_cases hd : rateBetter r d b = true
      · rw [if_pos hd]
        refine ⟨rateBetter_trans (ih d).1 (rateBetter_asymm hd), fun x hx => ?_⟩
        rcases List.mem_cons.1 hx with rfl | hx
        · exact (ih x).1
        · exact (ih d).2 x hx
      · rw [if_neg hd]
        have hd' : rateBetter r d b = false := by simpa using hd
        refine ⟨(ih b).1, fun x hx => ?_⟩
        rcases List.mem_cons.1 hx with rfl | hx
        · exact rateBetter_trans (ih b).1 hd'
        · exact (ih b).2 x hx
  exact (key _ _).2

end Machine
end Sys2Proof
end

