-- ==== Sys2Proof/Laws/PerInstr.lean ====
section
/-! SUPPORT. Laws of every command as syntax, one lemma per constructor. -/

namespace Sys2Proof.Laws

/-- The form of a command's word (R121 to R123): its opcode in bits 7..0, bits 31..9 all 0, bit 8 set for
SET_NOISE_ENABLE with EN = 1 alone. -/
def EncodeFormat.Statement (i : Instr) : Prop :=
  (encode i).extractLsb' 0 8 = i.opcode ∧ (encode i).extractLsb' 9 23 = 0#23 ∧
    ((encode i).getLsbD 8 = true ↔ i = .setNoiseEnable true)

theorem EncodeFormat.nop : EncodeFormat.Statement .nop := by unfold EncodeFormat.Statement; decide
theorem EncodeFormat.init : EncodeFormat.Statement .init := by unfold EncodeFormat.Statement; decide
theorem EncodeFormat.start : EncodeFormat.Statement .start := by unfold EncodeFormat.Statement; decide
theorem EncodeFormat.stop : EncodeFormat.Statement .stop := by unfold EncodeFormat.Statement; decide
theorem EncodeFormat.tick : EncodeFormat.Statement .tick := by unfold EncodeFormat.Statement; decide
theorem EncodeFormat.reset : EncodeFormat.Statement .reset := by unfold EncodeFormat.Statement; decide
theorem EncodeFormat.setCenterFreq : EncodeFormat.Statement .setCenterFreq := by
  unfold EncodeFormat.Statement; decide
theorem EncodeFormat.setGain : EncodeFormat.Statement .setGain := by unfold EncodeFormat.Statement; decide
theorem EncodeFormat.setSampleRate : EncodeFormat.Statement .setSampleRate := by
  unfold EncodeFormat.Statement; decide
theorem EncodeFormat.setNoiseEnable (en : Bool) : EncodeFormat.Statement (.setNoiseEnable en) := by
  unfold EncodeFormat.Statement; revert en; decide
theorem EncodeFormat.setNoiseSigma : EncodeFormat.Statement .setNoiseSigma := by
  unfold EncodeFormat.Statement; decide

end Sys2Proof.Laws
end

