-- ==== Sys2Proof/Laws/Rounding.lean ====
section
/-! SUPPORT. Rounding, said once (R8): its form, its error, its order; what a binary64 sum, product and quotient can be
against the exact one; the comparisons on exact values. -/

namespace Sys2Proof

/-! ## Rounding: the error, and its order -/

/-- The nearest integer is within a half. -/
theorem rneDiv_err (n d : Nat) (hd : 0 < d) : 2 * |((rneDiv n d * d : Nat) : Int) - n| ≤ d := by
  have hm := Nat.div_add_mod n d
  have hlt := Nat.mod_lt n hd
  have e : ∀ q : Nat, ((q * d : Nat) : Int) - n = ((q : Int) - (n / d : Nat)) * d - (n % d : Nat) := by
    intro q
    have h : (n : Int) = d * ((n / d : Nat) : Int) + ((n % d : Nat) : Int) := by exact_mod_cast hm.symm
    generalize n / d = a at *
    generalize n % d = b at *
    rw [h]; push_cast; ring
  unfold rneDiv
  split
  · rw [e, sub_self, zero_mul, zero_sub, abs_neg, abs_of_nonneg (by positivity)]; omega
  · split
    · rw [e, show (((n / d + 1 : Nat) : Int) - (n / d : Nat)) = 1 by push_cast; ring, one_mul,
        abs_of_nonneg (by omega)]; omega
    · rw [e, show (((n / d + n / d % 2 : Nat) : Int) - (n / d : Nat)) = (n / d % 2 : Nat) by push_cast; ring]
      rcases Nat.mod_two_eq_zero_or_one (n / d) with h | h <;> rw [h]
      · rw [Nat.cast_zero, zero_mul, zero_sub, abs_neg, abs_of_nonneg (by positivity)]; omega
      · rw [Nat.cast_one, one_mul, abs_of_nonneg (by omega)]; omega

/-- The units of the pattern `k·2^52 + r`, for a significand `r` of 53 bits (fewer where k is 0), or 2^53. -/
theorem F64.units_pattern (s : Bool) (k r : Nat) (hr : r ≤ 2 ^ 53) (hk : k = 0 ∨ 2 ^ 52 ≤ r)
    (hi : k * 2 ^ 52 + r < F64.infMag) : (F64.ofSignMag s (k * 2 ^ 52 + r)).units = r * 2 ^ k := by
  have hinf : F64.infMag = 2047 * 2 ^ 52 := by decide
  rw [F64.units, F64.mag_ofSignMag _ _ (by omega)]
  rcases Nat.lt_or_ge r (2 ^ 52) with h1 | h1
  · obtain rfl : k = 0 := by omega
    rw [Nat.zero_mul, Nat.zero_add, if_pos (by omega), Nat.pow_zero]; omega
  · rcases Nat.lt_or_ge r (2 ^ 53) with h2 | h2
    · have hd : (k * 2 ^ 52 + r) / 2 ^ 52 = k + 1 := by omega
      rw [hd, if_neg (by omega), Nat.add_sub_cancel]
      congr 1; omega
    · obtain rfl : r = 2 ^ 53 := by omega
      have hd : (k * 2 ^ 52 + 2 ^ 53) / 2 ^ 52 = k + 2 := by omega
      have h0 : (k * 2 ^ 52 + 2 ^ 53) % 2 ^ 52 = 0 := by omega
      rw [hd, if_neg (by omega), h0, show k + 2 - 1 = k + 1 by omega, pow_succ 2 k]
      ring

/-- The nearest integer to `n / D` keeps within integer bounds of it. -/
theorem rneDiv_le (n D b : Nat) (hD : 0 < D) (h : n ≤ b * D) : rneDiv n D ≤ b := by
  have herr := rneDiv_err n D hD
  by_contra hc
  have h1 : (b + 1) * D ≤ rneDiv n D * D := Nat.mul_le_mul_right _ (by omega)
  rw [Nat.succ_mul] at h1
  have := abs_le.1 (show |((rneDiv n D * D : Nat) : Int) - n| ≤ D / 2 by omega)
  omega

theorem le_rneDiv (n D b : Nat) (hD : 0 < D) (h : b * D ≤ n) : b ≤ rneDiv n D := by
  have herr := rneDiv_err n D hD
  by_contra hc
  have h1 : (rneDiv n D + 1) * D ≤ b * D := Nat.mul_le_mul_right _ (by omega)
  rw [Nat.succ_mul] at h1
  have := abs_le.1 (show |((rneDiv n D * D : Nat) : Int) - n| ≤ D / 2 by omega)
  omega

/-- What `F64.round` gives below the overflow threshold: finite, of the sign asked for, `r·2^k` units with `r` the nearest
integer to `n / (d·2^k)`. -/
theorem F64.round_form (s : Bool) (n d : Nat) (hd : 0 < d) (hn : (n / d).log2 < 2090) :
    ∃ k, (F64.round s n d).isFinite = true ∧ (F64.round s n d).sign = s ∧
      (F64.round s n d).units = rneDiv n (d * 2 ^ k) * 2 ^ k ∧ (k = 0 ∨ 2 ^ (52 + k) * d ≤ n) := by
  have hinf : F64.infMag = 2047 * 2 ^ 52 := by decide
  obtain ⟨k, hk⟩ : ∃ k, (n / d).log2 - 52 = k := ⟨_, rfl⟩
  refine ⟨k, ?_⟩
  have hD : 0 < d * 2 ^ k := Nat.mul_pos hd (Nat.pow_pos (by decide))
  have hup : n / d < 2 ^ (53 + k) :=
    Nat.lt_of_lt_of_le Nat.lt_log2_self (Nat.pow_le_pow_right (by decide) (by omega))
  have hlo : k = 0 ∨ 2 ^ (52 + k) * d ≤ n := by
    rcases Nat.eq_zero_or_pos k with h | h
    · exact .inl h
    · refine .inr ((Nat.le_div_iff_mul_le hd).1 ?_)
      have h0 : n / d ≠ 0 := by intro h0; rw [h0, Nat.log2_zero] at hk; omega
      have h1 := Nat.log2_self_le h0
      rwa [show (n / d).log2 = 52 + k by omega] at h1
  have hnD : n ≤ 2 ^ 53 * (d * 2 ^ k) := by
    have h := (Nat.div_lt_iff_lt_mul hd).1 hup
    rw [Nat.pow_add] at h
    linarith [show 2 ^ 53 * 2 ^ k * d = 2 ^ 53 * (d * 2 ^ k) by ring]
  have hr1 : rneDiv n (d * 2 ^ k) ≤ 2 ^ 53 := rneDiv_le _ _ _ hD hnD
  have hr2 : k = 0 ∨ 2 ^ 52 ≤ rneDiv n (d * 2 ^ k) := by
    refine hlo.imp id fun h => le_rneDiv _ _ _ hD ?_
    rw [Nat.pow_add] at h
    linarith [show 2 ^ 52 * 2 ^ k * d = 2 ^ 52 * (d * 2 ^ k) by ring]
  have hm : roundMag 52 F64.infMag n d = min F64.infMag (k * 2 ^ 52 + rneDiv n (d * 2 ^ k)) := by
    rw [roundMag, hk]
  generalize rneDiv n (d * 2 ^ k) = r at *
  have hlt : k * 2 ^ 52 + r < F64.infMag := by omega
  rw [Nat.min_eq_right hlt.le] at hm
  rw [F64.round, hm]
  refine ⟨?_, F64.sign_ofSignMag _ _ (by omega), F64.units_pattern s k r hr1 hr2 hlt, hlo⟩
  rw [F64.isFinite, F64.mag_ofSignMag _ _ (by omega)]
  exact decide_eq_true hlt

/-- Rounding is within half a unit or within 2⁻⁵³ of the exact value. -/
theorem F64.round_err (s : Bool) (n d : Nat) (hd : 0 < d) (hn : (n / d).log2 < 2090) :
    (F64.round s n d).isFinite = true ∧ (F64.round s n d).sign = s ∧
      (2 * |(((F64.round s n d).units * d : Nat) : Int) - n| ≤ d ∨
        2 ^ 53 * |(((F64.round s n d).units * d : Nat) : Int) - n| ≤ n) := by
  obtain ⟨k, hf, hs, hu, hk⟩ := F64.round_form s n d hd hn
  refine ⟨hf, hs, ?_⟩
  have herr := rneDiv_err n (d * 2 ^ k) (Nat.mul_pos hd (by positivity))
  rw [show (F64.round s n d).units * d = rneDiv n (d * 2 ^ k) * (d * 2 ^ k) by rw [hu]; ring]
  rcases hk with rfl | hk
  · left; simpa using herr
  · right
    rw [Nat.pow_add] at hk
    have h2 : 2 ^ 52 * 2 ^ k * d = 2 ^ 52 * (d * 2 ^ k) := by ring
    generalize |((rneDiv n (d * 2 ^ k) * (d * 2 ^ k) : Nat) : Int) - n| = e at *
    generalize d * 2 ^ k = D at *
    omega

/-- The units of a finite value are a multiple of `2^k` from `2^(52+k)` on. -/
theorem F64.units_dvd (y : F64) (k : Nat) (h : 2 ^ (52 + k) ≤ y.units) : 2 ^ k ∣ y.units := by
  have hlt : y.mag % 2 ^ 52 < 2 ^ 52 := Nat.mod_lt _ (by decide)
  unfold F64.units at *
  split at h
  · have : 2 ^ 52 ≤ 2 ^ (52 + k) := Nat.pow_le_pow_right (by decide) (by omega)
    omega
  · rename_i he
    rw [if_neg he]
    generalize y.mag / 2 ^ 52 - 1 = e at *
    have hke : k ≤ e := by
      by_contra hc
      have h1 : (2 ^ 52 + y.mag % 2 ^ 52) * 2 ^ e < 2 ^ 53 * 2 ^ e :=
        Nat.mul_lt_mul_of_pos_right (by omega) (by positivity)
      have h2 : 2 ^ 53 * 2 ^ e ≤ 2 ^ (52 + k) := by rw [← Nat.pow_add]; exact Nat.pow_le_pow_right (by decide) (by omega)
      omega
    exact Dvd.dvd.mul_left (Nat.pow_dvd_pow 2 hke) _

/-- Rounding does not pass a value that the format holds. -/
theorem F64.round_le (s : Bool) (n d : Nat) (hd : 0 < d) (y : F64) (hy : y.units.log2 < 2090) (hn : n ≤ y.units * d) :
    (F64.round s n d).units ≤ y.units := by
  have hb : (n / d).log2 < 2090 :=
    by
    rw [Nat.log2_eq_log_two] at hy ⊢
    exact Nat.lt_of_le_of_lt (Nat.log_mono_right (Nat.div_le_of_le_mul (by rw [Nat.mul_comm]; exact hn))) hy
  obtain ⟨k, _, _, hu, hk⟩ := F64.round_form s n d hd hb
  have hD : 0 < d * 2 ^ k := Nat.mul_pos hd (by positivity)
  have hdvd : 2 ^ k ∣ y.units := by
    rcases hk with rfl | hk
    · simp
    · exact F64.units_dvd y k (Nat.le_of_mul_le_mul_right (hk.trans hn) hd)
  obtain ⟨z, hz⟩ := hdvd
  rw [hu, hz, Nat.mul_comm (2 ^ k)]
  refine Nat.mul_le_mul_right _ (rneDiv_le _ _ _ hD ?_)
  rw [hz] at hn
  linarith [show 2 ^ k * z * d = z * (d * 2 ^ k) by ring]

/-! ## The exact value of a finite binary64, in units -/

/-- The exact value of a finite value, in units of 2⁻¹⁰⁷⁴. -/
def F64.int (x : F64) : Int := if x.sign then -(x.units : Int) else (x.units : Int)

theorem F64.int_natAbs (x : F64) : x.int.natAbs = x.units := by
  unfold F64.int; split <;> simp

theorem F64.neg_sign (x : F64) : x.neg.sign = !x.sign := by
  simp [F64.neg, F64.sign]

theorem F64.neg_mag (x : F64) : x.neg.mag = x.mag := by
  have h := x.bits.isLt
  have hb : x.neg.bits.toNat % 2 ^ 63 = x.bits.toNat % 2 ^ 63 := by
    rw [F64.neg, ← BitVec.toNat_setWidth (i := 63), ← BitVec.toNat_setWidth (i := 63)]
    congr 1
    ext i hi
    simp
  exact hb

@[simp] theorem F64.neg_units (x : F64) : x.neg.units = x.units := by simp only [F64.units, F64.neg_mag]

@[simp] theorem F64.neg_isFinite (x : F64) : x.neg.isFinite = x.isFinite := by simp only [F64.isFinite, F64.neg_mag]

@[simp] theorem F64.neg_int (x : F64) : x.neg.int = -x.int := by
  unfold F64.int; rw [F64.neg_sign, F64.neg_units]; cases x.sign <;> simp

theorem F64.int_nonneg {x : F64} (h : x.sign = false) : x.int = x.units := by simp [F64.int, h]
theorem F64.int_neg {x : F64} (h : x.sign = true) : x.int = -(x.units : Int) := by simp [F64.int, h]

theorem F64.round_zero (s : Bool) (d : Nat) (hd : 0 < d) : F64.round s 0 d = F64.ofSignMag s 0 := by
  rw [F64.round, roundMag_zero d hd]

/-- A sum of finite values is its exact value, rounded once (R8). -/
theorem F64.add_form (a b : F64) (ha : a.isFinite = true) (hb : b.isFinite = true) :
    ∃ s, a.add b = F64.round s (a.int + b.int).natAbs 1 ∧ (s = true → a.int + b.int ≤ 0) ∧
      (s = false → 0 ≤ a.int + b.int) := by
  have hsel : a.add b = if a.sign = b.sign then F64.round a.sign (a.units + b.units) 1
      else if b.units < a.units then F64.round a.sign (a.units - b.units) 1
      else if a.units < b.units then F64.round b.sign (b.units - a.units) 1
      else F64.zero := by
    simp [F64.add, F64.isNaN_of_isFinite ha, F64.isNaN_of_isFinite hb, F64.isInf_of_isFinite ha,
      F64.isInf_of_isFinite hb]
  rw [hsel]
  have hz : F64.zero = F64.round false 0 1 := by rw [F64.round_zero _ _ (by decide)]; decide
  cases hsa : a.sign <;> cases hsb : b.sign <;>
    simp only [F64.int, hsa, hsb, if_true, if_false, Bool.false_eq_true, Bool.true_eq_false]
  · exact ⟨false, by congr 1, by simp, by omega⟩
  · split
    · exact ⟨false, by congr 1; omega, by simp, by omega⟩
    · split
      · exact ⟨true, by congr 1; omega, by omega, by simp⟩
      · exact ⟨false, by rw [hz]; congr 1; omega, by simp, by omega⟩
  · split
    · exact ⟨true, by congr 1; omega, by omega, by simp⟩
    · split
      · exact ⟨false, by congr 1; omega, by simp, by omega⟩
      · exact ⟨false, by rw [hz]; congr 1; omega, by simp, by omega⟩
  · exact ⟨true, by congr 1; omega, by omega, by simp⟩

/-- A finite sum below the overflow threshold is within 2⁻⁵³ of the exact one, and never passes a value of the format. -/
theorem F64.add_err (a b : F64) (ha : a.isFinite = true) (hb : b.isFinite = true)
    (h : (a.int + b.int).natAbs.log2 < 2090) :
    (a.add b).isFinite = true ∧ 2 ^ 53 * |(a.add b).int - (a.int + b.int)| ≤ |a.int + b.int| ∧
      ∀ y : F64, y.units.log2 < 2090 → |a.int + b.int| ≤ y.units → |(a.add b).int| ≤ y.units := by
  obtain ⟨s, hs, hs1, hs2⟩ := F64.add_form a b ha hb
  obtain ⟨hf, hsg, he⟩ := F64.round_err s (a.int + b.int).natAbs 1 (by decide) (by simpa using h)
  rw [hs]
  refine ⟨hf, ?_, ?_⟩
  · rw [Nat.mul_one] at he
    generalize a.int + b.int = e at *
    cases s
    · rw [F64.int_nonneg hsg, abs_of_nonneg (hs2 rfl)]
      have h1 : (e.natAbs : Int) = e := Int.natAbs_of_nonneg (hs2 rfl)
      rw [h1] at he
      omega
    · rw [F64.int_neg hsg, abs_of_nonpos (hs1 rfl)]
      have h1 : (e.natAbs : Int) = -e := by have := hs1 rfl; omega
      rw [h1] at he
      rw [show -((F64.round true e.natAbs 1).units : Int) - e = -(((F64.round true e.natAbs 1).units : Int) - -e) by ring,
        abs_neg]
      omega
  · intro y hy hle
    rw [Int.abs_eq_natAbs] at hle ⊢
    rw [F64.int_natAbs]
    exact_mod_cast F64.round_le s (a.int + b.int).natAbs 1 (by decide) y hy (by omega)

theorem F64.sub_eq_add_neg (a b : F64) (hb : b.isFinite = true) : a.sub b = a.add b.neg := by
  simp [F64.sub, F64.isNaN_of_isFinite hb]

/-- A finite product below the overflow threshold is within half a unit or 2⁻⁵³ of the exact one. -/
theorem F64.mul_err (a b : F64) (ha : a.isFinite = true) (hb : b.isFinite = true)
    (h : (a.units * b.units / F64.unitsOne).log2 < 2090) :
    (a.mul b).isFinite = true ∧ (a.mul b).sign = (a.sign != b.sign) ∧
      (2 * |(((a.mul b).units * F64.unitsOne : Nat) : Int) - (a.units * b.units : Nat)| ≤ F64.unitsOne ∨
        2 ^ 53 * |(((a.mul b).units * F64.unitsOne : Nat) : Int) - (a.units * b.units : Nat)| ≤
          (a.units * b.units : Nat)) := by
  have hsel : a.mul b = F64.round (a.sign != b.sign) (a.units * b.units) F64.unitsOne := by
    simp [F64.mul, F64.isNaN_of_isFinite ha, F64.isNaN_of_isFinite hb, F64.isInf_of_isFinite ha,
      F64.isInf_of_isFinite hb]
  rw [hsel]
  exact F64.round_err _ _ _ F64.unitsOne_pos h

/-- A finite quotient below the overflow threshold is within half a unit or 2⁻⁵³ of the exact one. -/
theorem F64.div_err (a b : F64) (ha : a.isFinite = true) (hb : b.isFinite = true) (h0 : 0 < b.units)
    (h : (a.units * F64.unitsOne / b.units).log2 < 2090) :
    (a.div b).isFinite = true ∧ (a.div b).sign = (a.sign != b.sign) ∧
      (2 * |(((a.div b).units * b.units : Nat) : Int) - (a.units * F64.unitsOne : Nat)| ≤ b.units ∨
        2 ^ 53 * |(((a.div b).units * b.units : Nat) : Int) - (a.units * F64.unitsOne : Nat)| ≤
          (a.units * F64.unitsOne : Nat)) := by
  have hsel : a.div b = F64.round (a.sign != b.sign) (a.units * F64.unitsOne) b.units := by
    simp [F64.div, F64.isNaN_of_isFinite ha, F64.isNaN_of_isFinite hb, F64.isInf_of_isFinite ha,
      F64.isInf_of_isFinite hb, Nat.pos_iff_ne_zero.1 h0]
  rw [hsel]
  exact F64.round_err _ _ _ h0 h

/-! ## The comparisons, on exact values -/

theorem F64.units_lt_iff (x y : F64) : x.units < y.units ↔ x.mag < y.mag := by
  have key : ∀ a b : F64, a.mag < b.mag → a.units < b.units := by
    intro a b h
    have ha : a.mag % 2 ^ 52 < 2 ^ 52 := Nat.mod_lt _ (by decide)
    have hle : a.mag / 2 ^ 52 ≤ b.mag / 2 ^ 52 := Nat.div_le_div_right h.le
    unfold F64.units
    split
    · split
      · omega
      · have : 2 ^ 52 * 1 ≤ (2 ^ 52 + b.mag % 2 ^ 52) * 2 ^ (b.mag / 2 ^ 52 - 1) :=
          Nat.mul_le_mul (by omega) Nat.one_le_two_pow
        omega
    · rw [if_neg (by omega)]
      rcases Nat.lt_or_eq_of_le hle with h1 | h1
      · obtain ⟨j, hj⟩ : ∃ j, b.mag / 2 ^ 52 - 1 = (a.mag / 2 ^ 52 - 1) + 1 + j := ⟨b.mag / 2 ^ 52 - a.mag / 2 ^ 52 - 1, by omega⟩
        rw [hj, pow_add, pow_succ]
        have hp : 0 < 2 ^ (a.mag / 2 ^ 52 - 1) := Nat.pow_pos (by decide)
        calc (2 ^ 52 + a.mag % 2 ^ 52) * 2 ^ (a.mag / 2 ^ 52 - 1)
            < 2 ^ 53 * 2 ^ (a.mag / 2 ^ 52 - 1) := Nat.mul_lt_mul_of_pos_right (by omega) hp
          _ = 2 ^ 52 * (2 ^ (a.mag / 2 ^ 52 - 1) * 2 * 1) := by ring
          _ ≤ _ := Nat.mul_le_mul (by omega) (Nat.mul_le_mul_left _ Nat.one_le_two_pow)
      · rw [h1]
        exact Nat.mul_lt_mul_of_pos_right (by omega) (Nat.pow_pos (by decide))
  refine ⟨fun h => ?_, key x y⟩
  by_contra hc
  rcases Nat.lt_or_eq_of_le (Nat.le_of_not_lt hc) with h1 | h1
  · exact absurd (key y x h1) (by omega)
  · rw [F64.units, F64.units, h1] at h; omega

theorem F64.key_lt_iff (a b : F64) : a.key < b.key ↔ a.int < b.int := by
  have h1 := F64.units_lt_iff a b
  have h2 := F64.units_lt_iff b a
  have h3 : a.units = 0 ↔ a.mag = 0 := by
    have := F64.units_lt_iff F64.zero a
    rw [show F64.zero.units = 0 by decide, show F64.zero.mag = 0 by decide] at this; omega
  have h4 : b.units = 0 ↔ b.mag = 0 := by
    have := F64.units_lt_iff F64.zero b
    rw [show F64.zero.units = 0 by decide, show F64.zero.mag = 0 by decide] at this; omega
  unfold F64.key F64.int
  cases a.sign <;> cases b.sign <;> simp only [if_true, if_false, Bool.false_eq_true] <;> omega

theorem F64.lt_iff (a b : F64) (ha : a.isFinite = true) (hb : b.isFinite = true) :
    a.lt b = true ↔ a.int < b.int := by
  simp [F64.lt, F64.isNaN_of_isFinite ha, F64.isNaN_of_isFinite hb, F64.key_lt_iff]

theorem F64.le_iff (a b : F64) (ha : a.isFinite = true) (hb : b.isFinite = true) :
    a.le b = true ↔ a.int ≤ b.int := by
  have := F64.key_lt_iff b a
  simp [F64.le, F64.isNaN_of_isFinite ha, F64.isNaN_of_isFinite hb]
  omega

end Sys2Proof
end

