-- ==== Sys2Proof/Laws/Slots.lean ====
section
/-! SUPPORT. Properties of the station slots, packaged once: what holds of every slot and is kept by the few operations
that write a slot is kept by every step. And what no step writes: the parameters and the number of slots. -/

namespace Sys2Proof.Machine

/-- A property of slots that every operation writing a slot keeps. -/
structure SlotInvariant (p : Params) (P : Slot → Prop) : Prop where
  run : ∀ i n tn sl, P sl → P (stationRun p i n tn sl).1
  init : ∀ cf i sl, P sl → P (initSlot p cf i sl).1
  staging : ∀ off v sl, P sl → P { sl with st := writeStaging off v sl.st }
  retune : ∀ busy f sl, P sl → P (retuneSlot p busy f sl)
  fresh : ∀ sl : Slot, P { sl with st := Station.fresh p }
  clear : ∀ sl : Slot, P sl → P { sl with st := { sl.st with tuneOld := [] } }

/-- Every slot has the property. -/
abbrev AllSlots (P : Slot → Prop) (s : State) : Prop := ∀ sl ∈ s.slots, P sl

variable {p : Params} {P : Slot → Prop}

theorem AllSlots.of_eq {s t : State} (h : t.slots = s.slots) (hs : AllSlots P s) : AllSlots P t := by
  intro sl hsl; rw [h] at hsl; exact hs sl hsl

theorem AllSlots.set {s : State} (hs : AllSlots P s) (i : Nat) (sl : Slot) (h : P sl) :
    ∀ x ∈ s.slots.set i sl, P x := by
  intro x hx
  rcases List.mem_or_eq_of_mem_set hx with hx | rfl
  · exact hs x hx
  · exact h

theorem runSlot_all (hP : SlotInvariant p P) {s : State} (hp : s.par = p) (i : Nat) (hs : AllSlots P s) :
    AllSlots P (runSlot s i) := by
  subst hp
  rcases runSlot_cases s i with h | ⟨sl, tn, c, e, hsl, _, _, _, h⟩
  · rw [h]; exact hs
  · rw [h]
    refine AllSlots.of_eq (s := { s with slots := _ }) (by simp; rfl) ?_
    exact hs.set i _ (hP.run _ _ _ _ (hs sl (List.mem_of_getElem? hsl)))

theorem foldl_runSlot_all (hP : SlotInvariant p P) (l : List Nat) {s : State} (hp : s.par = p) (hs : AllSlots P s) :
    AllSlots P (l.foldl runSlot s) := by
  induction l generalizing s with
  | nil => exact hs
  | cons i is ih => exact ih ((runSlot_frame s i).par.trans hp) (runSlot_all hP hp i hs)

theorem backStage_slots (s : State) : (backStage s).slots = s.slots := by
  unfold backStage; split <;> simp

theorem finishStations_all (hP : SlotInvariant p P) {s : State} (hp : s.par = p) (hs : AllSlots P s) :
    AllSlots P (finishStations s) := by
  unfold finishStations
  split
  · exact foldl_runSlot_all hP _ hp hs
  · exact hs

theorem finishTick_slots (s : State) : (finishTick s).slots = (finishStations s).slots := by
  simp only [finishTick, backStage_slots]

theorem finishTick_all (hP : SlotInvariant p P) {s : State} (hp : s.par = p) (hs : AllSlots P s) :
    AllSlots P (finishTick s) :=
  AllSlots.of_eq (finishTick_slots s) (finishStations_all hP hp hs)

theorem advance_all (hP : SlotInvariant p P) {s : State} (hp : s.par = p) (hs : AllSlots P s) :
    AllSlots P (advance s) := by
  unfold advance
  split
  · rename_i t ts _
    exact AllSlots.of_eq (s := runSlot { s with env := (drawPick s.env).2 }
      ((t :: ts).getD ((drawPick s.env).1 % (ts.length + 1)) t)) rfl (runSlot_all hP (s := { s with env := (drawPick s.env).2 }) hp _ hs)
  · exact AllSlots.of_eq (backStage_slots s) hs

theorem beginTick_all (hP : SlotInvariant p P) {s : State} (hs : AllSlots P s) : AllSlots P (beginTick s) := by
  intro sl hsl
  obtain ⟨x, hx, rfl⟩ := List.mem_map.mp hsl
  exact hP.clear x (hs x hx)

theorem fireTimer_all (hP : SlotInvariant p P) (lag : Bool) {s : State} (hs : AllSlots P s) :
    AllSlots P (fireTimer lag s) := by
  unfold fireTimer
  split
  · exact beginTick_all hP (AllSlots.of_eq (by simp) hs)
  · exact hs

theorem initSlots_forall (hP : SlotInvariant p P) (cf : F64) (i : Nat) (l : List Slot) (h : ∀ sl ∈ l, P sl) :
    ∀ sl ∈ (initSlots p cf i l).1, P sl := by
  induction l generalizing i with
  | nil => simp [initSlots]
  | cons a as ih =>
    intro sl hsl
    simp only [initSlots, List.mem_cons] at hsl
    rcases hsl with rfl | hsl
    · exact hP.init _ _ _ (h a (by simp))
    · exact ih (i + 1) (fun x hx => h x (by simp [hx])) sl hsl

theorem initSlots_length (p : Params) (cf : F64) (i : Nat) (l : List Slot) :
    (initSlots p cf i l).1.length = l.length := by
  induction l generalizing i with
  | nil => rfl
  | cons a as ih => simp [initSlots, ih]

theorem resetAll_all (hP : SlotInvariant p P) {s : State} (hp : s.par = p) : AllSlots P (resetAll s) := by
  intro sl hsl
  subst hp
  simp only [resetAll, State.resetWith, List.mem_map] at hsl
  obtain ⟨x, _, rfl⟩ := hsl
  exact hP.fresh x

/-- Every command keeps a slot invariant. -/
theorem exec_all (hP : SlotInvariant p P) {i : Instr} {s t : State} (hp : s.par = p) (hs : AllSlots P s)
    (h : exec i s = .next t) : AllSlots P t := by
  cases i <;> simp only [exec, execNop, execInit, execStart, execStop, execTick, execReset, execSetCenterFreq,
    execSetGain, execSetSampleRate, execSetNoiseEnable, execSetNoiseSigma, Host.Outcome.next.injEq] at h <;> subst h
  case nop => exact AllSlots.of_eq (by simp) hs
  case init =>
    split
    · exact AllSlots.of_eq (by simp) hs
    · intro sl hsl
      simp only [complete_slots, initBody, setWarnIf_slots] at hsl
      subst hp
      exact initSlots_forall hP _ _ _ hs sl hsl
  case start =>
    split
    · exact AllSlots.of_eq (by simp) hs
    · exact AllSlots.of_eq (by simp) hs
  case stop =>
    split
    · exact AllSlots.of_eq (by simp [stopTimer]) (finishTick_all hP hp hs)
    · exact AllSlots.of_eq (by simp) hs
  case tick =>
    split
    · exact AllSlots.of_eq (by simp [tickBody])
        (finishTick_all hP (s := beginTick s) (by simpa using hp) (beginTick_all hP hs))
    · exact AllSlots.of_eq (by simp) hs
  case reset =>
    refine AllSlots.of_eq (complete_slots _ _ _) (resetAll_all hP ?_)
    split
    · simpa [stopTimer, (finishTick_frame s).par] using hp
    · exact hp
  case setCenterFreq =>
    split
    · intro sl hsl
      simp only [complete_slots, retuneAll_slots, List.mem_map] at hsl
      obtain ⟨x, hx, rfl⟩ := hsl
      subst hp
      exact hP.retune _ _ _ (hs x hx)
    · exact AllSlots.of_eq (by simp) hs
  case setGain => split <;> exact AllSlots.of_eq (by simp) hs
  case setSampleRate => split <;> exact AllSlots.of_eq (by simp) hs
  case setNoiseEnable en => exact AllSlots.of_eq (by simp) hs
  case setNoiseSigma =>
    split
    · split
      · exact AllSlots.of_eq (by simp) hs
      · exact AllSlots.of_eq (by simp [regenerateNoise]) hs
    · exact AllSlots.of_eq (by simp) hs

/-- Every step keeps a slot invariant. -/
theorem step_all (hP : SlotInvariant p P) {s t : State} (hp : s.par = p) (hs : AllSlots P s)
    (h : step s = .next t) : AllSlots P t := by
  rcases step_cases h with ⟨_, rfl⟩ | ⟨lag, rest, _, rfl⟩ | ⟨rest, _, rfl⟩ | ⟨op, rest, r, _, _, rfl⟩ |
    ⟨op, rest, s', _, hst, rfl⟩ | ⟨op, rest, w, i, _, _, _, he⟩ | ⟨op, rest, w, e, _, _, _, rfl⟩
  · exact hs
  · exact fireTimer_all hP lag (AllSlots.of_eq (by simp) hs)
  · exact advance_all hP (by simpa using hp) (AllSlots.of_eq (by simp) hs)
  · exact AllSlots.of_eq (by simp) hs
  · refine AllSlots.of_eq (respond_slots _ _) ?_
    rcases busEffect_store_cases hst with ⟨off, v, rfl⟩ | ⟨i, off, v, rfl⟩
    · rcases writeGlobal_cases off v (takeEvent rest s) with ⟨x, h⟩ | h | h | h | h <;>
        rw [h] <;> exact AllSlots.of_eq (by simp) hs
    · rcases writeStation_cases i off v (takeEvent rest s) with ⟨sl, _, hsl, h⟩ | h
      · rw [h]
        exact (AllSlots.of_eq (s := s) (t := takeEvent rest s) (by simp) hs).set i _
          (hP.staging _ _ _ (hs sl (by simpa using List.mem_of_getElem? hsl)))
      · rw [h]; exact AllSlots.of_eq (by simp) hs
  · exact exec_all hP (by simpa using hp) (AllSlots.of_eq (by simp) hs) he
  · exact AllSlots.of_eq (by simp) hs

/-- No command writes the parameters or changes the number of slots (R5, log 4). -/
theorem exec_par {i : Instr} {s t : State} (h : exec i s = .next t) :
    t.par = s.par ∧ t.slots.length = s.slots.length := by
  cases i <;> simp only [exec, execNop, execInit, execStart, execStop, execTick, execReset, execSetCenterFreq,
    execSetGain, execSetSampleRate, execSetNoiseEnable, execSetNoiseSigma, Host.Outcome.next.injEq] at h <;> subst h
  case nop => simp
  case init => split <;> simp [initBody, initSlots_length]
  case start => split <;> simp
  case stop =>
    split
    · simp [stopTimer, (finishTick_frame s).par, (finishTick_frame s).nSlots]
    · simp
  case tick =>
    split
    · have h := (beginTick_frame s).trans (finishTick_frame (beginTick s))
      simp [tickBody, h.par, h.nSlots]
    · simp
  case reset =>
    split
    · simp [resetAll, State.resetWith, stopTimer, (finishTick_frame s).par, (finishTick_frame s).nSlots]
    · simp [resetAll, State.resetWith]
  case setCenterFreq => split <;> simp
  case setGain => split <;> simp
  case setSampleRate => split <;> simp
  case setNoiseEnable en => simp
  case setNoiseSigma => split <;> (try split) <;> simp [regenerateNoise]

end Sys2Proof.Machine
end

