-- ==== Sys2Proof/Tests/Slice0.lean ====
section
/-! SUPPORT. Tests: ill-formed terms refused, words decoded, vectors of 95_test_vectors.md, and for every obligation with
hypotheses a state and operands that meet them. Expected values are the specification's. -/

namespace Sys2Proof.Machine.Slice0

set_option Elab.async false

/-! ## Helpers: the common configuration of 95_test_vectors.md section 8, and small states -/

def f100e6 : F64 := ⟨0x4197D78400000000#64⟩
def f1001e5 : F64 := ⟨0x4197DD9E80000000#64⟩
def f102e6 : F64 := ⟨0x4198519600000000#64⟩
def f80e6 : F64 := F64.ofNat 80000000
def nanF : F64 := ⟨0x7FF8000000000000#64⟩

/-- N_ST = 2's parameters (95_test_vectors.md section 8). -/
def par : Params :=
  { (default : Params) with
    blockCfg := 4, minRate := 200000, cf0 := f100e6, cfMin := F64.ofNat 87500000, cfMax := F64.ofNat 108000000
    gainMin := (F64.ofNat 100).neg, gainMax := F64.ofNat 100, noiseLen := 8
    rateTab := [(1, [F64.one]), (10, [F64.one])], kernel := [F64.one], exp10Tab := [(F64.zero, F64.one)]
    gMono := F64.one, gStereo := F64.one, gPilot := F64.one, gRds := F64.one
    proto := Vector.ofFn fun i => F64.ofNat (i.val + 1), maxDev := F64.ofNat 57000
    defaultPs := [0x46#8], defaultRt := [0x52#8] }

/-- 2026-11-11 14:37 UTC, offset +2; 2026-11-11 09:05, offset −10. -/
def clock37 : ClockReading := ⟨126, 10, 10, 14, 37, false, 2⟩
def clock05 : ClockReading := ⟨126, 10, 10, 9, 5, true, 10⟩

def feed : Feed := { Feed.fresh with openIn := [true], audioIn := [.samples []], clockIn := [clock37] }
def slot : Slot := ⟨Station.fresh par, feed⟩

/-- Two empty slots, UNINIT, with a schedule. -/
def st0 (evs : List Event) : State := State.resetWith par [slot, slot] { Env.fresh with inbox := evs }

/-- The same in IDLE, with an argument. -/
def idle (x : F64) : State := { st0 [] with life := .idle, block := 4, arg0 := x.bits }

/-- The same in RUNNING, with a tick phase and a schedule. -/
def running (ph : TickPhase) (evs : List Event) : State :=
  { st0 evs with life := .running, block := 4, nextDeadline := some ⟨0, 4⟩, tick := ph }

/-- A present station at 100.1 MHz with call sign "KX" (program P3). -/
def staged : Station :=
  { Station.fresh par with desc := 0xF#32, dfreq := f1001e5, csLen := 2, csBuf := #v[0x4B, 0x58, 0, 0, 0, 0, 0, 0] }

/-- The staged station, built and tuned to 100 MHz. -/
def built : Station := build par f100e6 staged

/-- IDLE with that station active in slot 0. -/
def idleWith (x : F64) : State := { idle x with slots := [⟨built, feed⟩, slot] }

def after (o : Host.Outcome State Fault Refusal) (p : State → Bool) : Bool :=
  match o with
  | .next t => p t
  | .fault f => nomatch f
  | .refused _ => false

/-! ## Ill-formed terms are refused -/

theorem test_wf_bus_width : BusOp.wf (.read 0#32 16) = false := by decide
theorem test_wf_bus_aligned : BusOp.wf (.write 2#32 32 0#32) = false := by decide
theorem test_wf_bus_good : BusOp.wf (.write 8#32 32 0#32) = true := by decide
theorem test_wf_cmd_needs_arg : Pseudo.wf (.cmd .setGain) = false := by decide
theorem test_wf_cmd_takes_no_arg : Pseudo.wf (.cmdF64 .init F64.zero) = false := by decide
theorem test_wf_stage_slot : Pseudo.wf (.stage 32 F64.zero none none none) = false := by decide
theorem test_wf_stage_cs : Pseudo.wf (.stage 0 F64.zero (some (List.replicate 9 0)) none none) = false := by decide
theorem test_wf_stage_ps : Pseudo.wf (.stage 0 F64.zero none (some (List.replicate 17 0)) none) = false := by decide
theorem test_wf_stage_rt : Pseudo.wf (.stage 0 F64.zero none none (some (List.replicate 65 0))) = false := by decide
theorem test_wf_cmd_not_ce : Pseudo.wf (.cmd (.setNoiseEnable true)) = false := by decide
theorem test_wf_check_any_offset : Pseudo.wf (.check 2#32 0#32) = true := by decide
theorem test_wf_least : Params.least.wf = true ∧ Params.least.blockCfg = 100000 := by decide +kernel
theorem test_wf_params : par.wf = true := by decide +kernel
theorem test_wf_block_zero : { par with blockCfg := 0 }.wf = false := by decide +kernel
theorem test_wf_block_big : { par with blockCfg := 200001 }.wf = false := by decide +kernel
theorem test_wf_min_rate_zero : { par with minRate := 0 }.wf = false := by decide +kernel
theorem test_wf_min_rate_big : { par with minRate := 2280001 }.wf = false := by decide +kernel
theorem test_wf_cf_order : { par with cfMin := F64.ofNat 108000001 }.wf = false := by decide +kernel
theorem test_wf_cf_min_nan : { par with cfMin := nanF }.wf = false := by decide +kernel
theorem test_wf_cf_max_inf : { par with cfMax := ⟨0x7FF0000000000000#64⟩ }.wf = false := by decide +kernel
theorem test_wf_gain_order : { par with gainMin := F64.ofNat 101 }.wf = false := by decide +kernel
theorem test_wf_gain_nan : { par with gainMax := nanF }.wf = false := by decide +kernel
theorem test_wf_gain_min_inf : { par with gainMin := ⟨0xFFF0000000000000#64⟩ }.wf = false := by decide +kernel
theorem test_wf_noise_len : { par with noiseLen := 0 }.wf = false := by decide +kernel
theorem test_wf_kernel_empty : { par with kernel := [] }.wf = false := by decide +kernel
theorem test_wf_kernel_nan : { par with kernel := [nanF] }.wf = false := by decide +kernel
/-- R263's bound: SENS·X_MAX of about 10¹⁶ is over 2⁵⁰. -/
theorem test_wf_deviation : { par with maxDev := F64.ofNat (10 ^ 22) }.wf = false := by decide +kernel

/-! ## Words written out from the encodings (R121, R122, R125; 95_test_vectors.md section 2) -/

theorem test_decode_nop : decode 0b00000000000000000000000000000000#32 = .ok .nop := by decide
theorem test_decode_init : decode 0b00000000000000000000000000000001#32 = .ok .init := by decide
theorem test_decode_start : decode 0b00000000000000000000000000000010#32 = .ok .start := by decide
theorem test_decode_stop : decode 0b00000000000000000000000000000011#32 = .ok .stop := by decide
theorem test_decode_tick : decode 0b00000000000000000000000000000100#32 = .ok .tick := by decide
theorem test_decode_reset : decode 0b00000000000000000000000000000101#32 = .ok .reset := by decide
theorem test_decode_set_center_freq : decode 0b00000000000000000000000000010000#32 = .ok .setCenterFreq := by decide
theorem test_decode_set_gain : decode 0b00000000000000000000000000010001#32 = .ok .setGain := by decide
theorem test_decode_set_sample_rate : decode 0b00000000000000000000000000010010#32 = .ok .setSampleRate := by decide
theorem test_decode_noise_off : decode 0b00000000000000000000000000010011#32 = .ok (.setNoiseEnable false) := by decide
theorem test_decode_noise_on : decode 0b00000000000000000000000100010011#32 = .ok (.setNoiseEnable true) := by decide
theorem test_decode_set_noise_sigma : decode 0b00000000000000000000000000010100#32 = .ok .setNoiseSigma := by decide
theorem test_decode_illegal :
    decode 0x00000006#32 = .error .unassignedOpcode ∧ decode 0x00000015#32 = .error .unassignedOpcode ∧
    decode 0x000000FF#32 = .error .unassignedOpcode ∧ decode 0x00000213#32 = .error .reservedBit ∧
    decode 0x00000101#32 = .error .reservedBit ∧ decode 0x80000010#32 = .error .reservedBit := by decide
theorem test_decode_table_word : decodeTableWord 32 0x113 = some (.setNoiseEnable true) := by decide

/-- The expansion of `STAGE 0, freq=100.1e6, cs="KX"` (program P3). -/
theorem test_expand_stage : expand (.stage 0 f1001e5 (some [0x4B, 0x58]) none none) =
    [.write 0x108#32 32 0x80000000#32, .write 0x10C#32 32 0x4197DD9E#32, .write 0x118#32 32 0x0000584B#32,
     .write 0x110#32 32 0x00000002#32, .write 0x100#32 32 0x0000000F#32] := by decide +kernel

/-! ## Commands (95_test_vectors.md sections 1, 2, 7) -/

theorem test_nop : after (exec .nop (st0 [])) (fun t => t.cmdStatus == 0x0#32 && t.irqPend == 0x2#32) = true := by
  decide +kernel
theorem test_init_again : after (exec .init (idle F64.zero)) (fun t => t.cmdStatus == 0x101#32) = true := by
  decide +kernel
/-- Program P3: "KX" gives "WWKX", PI 0x8FDB, NORMFC 0xBFA674C59D31674C. -/
theorem test_init_builds :
    after (exec .init { st0 [] with slots := [⟨staged, feed⟩, slot] }) (fun t =>
      t.cmdStatus == 0x100#32 && activeMask t == 1#32 && (busRead t 0x170#32 32 == some 0x584B5757#32) &&
      (busRead t 0x174#32 32 == some 0x8FDB#32) && (busRead t 0x184#32 32 == some 0xBFA674C5#32) &&
      (busRead t 0x180#32 32 == some 0x9D31674C#32) && (busRead t 0x19C#32 32 == some 0xC068#32)) = true := by
  decide +kernel
theorem test_start_uninit :
    after (exec .start (st0 [])) (fun t => t.cmdStatus == 0x205#32 && t.warn == 4#32) = true := by decide +kernel
theorem test_start_idle :
    after (exec .start (idle F64.zero)) (fun t => t.cmdStatus == 0x200#32 && t.life == .running) = true := by
  decide +kernel
theorem test_stop_idle : after (exec .stop (idle F64.zero)) (fun t => t.cmdStatus == 0x305#32) = true := by
  decide +kernel
theorem test_stop_running :
    after (exec .stop (running .idle [])) (fun t => t.cmdStatus == 0x300#32 && t.life == .idle) = true := by
  decide +kernel
/-- Program P1: 40 zero samples, one tick, BLOCK and CMD_DONE. -/
theorem test_tick_silent :
    after (exec .tick (idle F64.zero)) (fun t => t.cmdStatus == 0x400#32 && t.outLen == 40 && t.tickCount == 1#32 &&
      t.irqPend == 3#32 && t.outBuf.all (fun z => z == (0#32, 0#32))) = true := by decide +kernel
/-- Program P3's out-of-band tick: OOB_LAST set, nothing else of the station advances. -/
theorem test_tick_out_of_band :
    after (exec .setCenterFreq (idleWith f102e6)) (fun s => after (exec .tick s) (fun t =>
      (busRead t 0x1A4#32 32 == some 0x100#32) && (busRead t 0x19C#32 32 == some 0xC068#32) &&
      (busRead t 0x184#32 32 == some 0x3FEAAAAA#32))) = true := by decide +kernel
theorem test_reset :
    after (exec .reset { running .idle [] with irqPend := 0xF#32, warn := 4#32 }) (fun t =>
      t.cmdStatus == 0x500#32 && t.irqPend == 2#32 && t.warn == 0#32 && t.life == .uninit) = true := by decide +kernel
theorem test_set_center_freq :
    after (exec .setCenterFreq (idle f80e6)) (fun t => t.cmdStatus == 0x1002#32 && t.centerFreq == f100e6) = true := by
  decide +kernel
theorem test_set_gain_ten :
    after (exec .setGain (idle F64.ten)) (fun t => t.cmdStatus == 0x1100#32 && t.gainDb == F64.ten) = true := by
  decide +kernel
theorem test_set_gain_nan :
    after (exec .setGain (idle nanF)) (fun t => t.cmdStatus == 0x1102#32 && t.gainDb == F64.zero) = true := by
  decide +kernel
theorem test_set_sample_rate :
    after (exec .setSampleRate (idle ⟨0x410E848000000000#64⟩)) (fun t => t.cmdStatus == 0x1200#32 &&
      t.sampleRate == 228000 && t.decim == 10) = true := by decide +kernel
theorem test_set_sample_rate_zero :
    after (exec .setSampleRate (idle F64.zero)) (fun t => t.cmdStatus == 0x1203#32 && t.sampleRate == 2280000) = true := by
  decide +kernel
/-- A tie goes to the larger rate: 256500 to 285000 (D8). -/
theorem test_nearest_rate :
    nearestRate par (F64.ofNat 256500) = 285000 ∧ nearestRate par (F64.ofNat 500000) = 456000 ∧
    nearestRate par (F64.ofNat 1000000) = 1140000 ∧ rateDivisors.length = 140 ∧
    validRates par ⊆ [228000, 285000, 380000, 456000, 570000, 760000, 1140000, 2280000] := by decide +kernel
theorem test_set_noise_enable :
    after (exec (.setNoiseEnable true) (st0 [])) (fun t => t.cmdStatus == 0x1300#32 &&
      (busRead t 0x48#32 32 == some 1#32)) = true := by decide +kernel
theorem test_set_noise_sigma_negative :
    after (exec .setNoiseSigma (idle F64.one.neg)) (fun t => t.cmdStatus == 0x1403#32) = true := by decide +kernel
/-- σ = −0.0 equals the +0.0 of reset: no draw; σ = 0.5 takes NOISE_LEN × 2 draws. -/
theorem test_set_noise_sigma :
    after (exec .setNoiseSigma (idle F64.zero.neg)) (fun t => t.env.noiseDraws == 0) = true ∧
    after (exec .setNoiseSigma (idle f64half)) (fun t => t.env.noiseDraws == 16) = true := by decide +kernel

/-! ## Datapath vectors (95_test_vectors.md sections 3 to 7) -/

theorem test_pi : referencePi [0x57, 0x53, 0x44, 0x52] = some 0x848F#16 ∧
    referencePi [0x4B, 0x5A, 0x5A, 0x5A] = some 0x54A7#16 := by decide
theorem test_mjd : mjd 2026 11 11 = 61355 ∧ mjd 2000 1 1 = 51544 ∧ mjd 2024 2 29 = 60369 ∧ mjd 2025 1 1 = 60676 ∧
    mjd 1900 3 1 = 15079 := by decide
theorem test_crc : crc 0x848F#16 = 0x1FC#10 ∧ crc 0xCDCD#16 = 0x3DB#10 ∧ crc 0x8000#16 = 0x077#10 := by decide +kernel
/-- The station of section 3.4: PI 0x848F, "WSDR FM ", "HELLO". -/
def wsdr : Station :=
  { Station.fresh par with
    pi := 0x848F#16
    psN := #v[0x57, 0x53, 0x44, 0x52, 0x20, 0x46, 0x4D, 0x20]
    rtN := textVec 64 (normText 64 [0x48, 0x45, 0x4C, 0x4C, 0x4F]) }
theorem test_group_0a : serialise (group0A wsdr 0) = 0x848F4001002E8CDCDACD5D4F0F#104 ∧
    serialise (group0A wsdr 3) = 0x848F400100C23CDCDACD348161#104 := by decide +kernel
theorem test_group_2a : serialise (group2A wsdr 1) = 0x848F4009004FE4F200148080DC#104 := by decide +kernel
theorem test_group_4a : serialise (group4A wsdr clock37) = 0x848F4011005B6DF56867A5084B#104 ∧
    serialise (group4A wsdr clock05) = 0x848F4011005B6DF5686645A895#104 := by decide +kernel
theorem test_wrap :
    wrap F64.pi.neg = F64.pi ∧ wrap ⟨0x400921FB54442D1A#64⟩ = ⟨0xC00921FB54442D16#64⟩ ∧
    wrap F64.ten = ⟨0xC00487ED5110B460#64⟩ ∧ wrap (F64.ofNat 1000000) = ⟨0xBFD6E254D0E00000#64⟩ := by decide +kernel
theorem test_mpx :
    (mpxValue par 1 f64half ⟨0xBFD0000000000000#64⟩ F64.zero).div F64.ten = ⟨0x3FC1E9F1AC1A7D66#64⟩ ∧
    (mpxValue par 2 f64half ⟨0xBFD0000000000000#64⟩ F64.zero).div F64.ten = ⟨0x3FC69956090A9C11#64⟩ := by decide +kernel
theorem test_fm_phase : par.sens = ⟨0x3FF921FB54442D18#64⟩ ∧
    (fmRun par F64.zero [F64.one, F64.one, F64.one]).2 = ⟨0xBFF921FB54442D18#64⟩ := by decide +kernel
/-- The impulse response of the bank is PROTO. -/
theorem test_bank :
    ((bank par (Vector.replicate 10 (Cplx.zero, Cplx.zero)) [⟨F64.one, F64.zero⟩, Cplx.zero, Cplx.zero]).1.map (·.re)) =
      (List.range 30).map fun i => F64.ofNat (i + 1) := by decide +kernel
theorem test_tuner_phase :
    wrap (F64.zero.sub ((F64.twoPi.mul ⟨0xBFA674C59D31674C#64⟩).mul (F64.ofNat 40))) = ⟨0xBFF8B11AD9865938#64⟩ ∧
    (tuningFor par f1001e5 f100e6).normFc = ⟨0xBFA674C59D31674C#64⟩ := by decide +kernel
/-- A difference of exactly 1140000 is in band. -/
theorem test_band_edge :
    outOfBand f1001e5 (F64.ofNat 101240000) = false ∧ outOfBand f1001e5 f102e6 = true := by decide +kernel
theorem test_rate_filter :
    (rateFilter [f64half, ⟨0x3FD0000000000000#64⟩]
      [⟨F64.one, F64.zero⟩, ⟨F64.ofNat 2, F64.zero⟩, ⟨F64.ofNat 3, F64.zero⟩]).map (·.re) =
      [f64half, ⟨0x3FF4000000000000#64⟩, F64.ofNat 2] := by decide +kernel
theorem test_noise_cycle :
    (noiseAdd 3 [⟨F64.one, F64.zero⟩, ⟨F64.ten, F64.zero⟩, ⟨f64half, F64.zero⟩] (List.replicate 4 Cplx.zero)).map (·.re) =
      [F64.one, F64.ten, f64half, F64.one] := by decide +kernel
theorem test_to_f32 : F64.toF32 ⟨0x3FB999999999999A#64⟩ = 0x3DCCCCCD#32 ∧ F64.toF32 F64.zero.neg = 0x80000000#32 ∧
    F64.toF32 (F64.ofNat 5) = 0x40A00000#32 ∧ F64.toF32 (F64.round false (F64.unitsOne) (10 ^ 50)) = 0#32 := by
  decide +kernel
/-- The first bit of the CT group with PI 0x8FDB is 1, so DIFF_PREV is 1; BIT_POS 1, SAMPLE_CNT 1 (program P3). -/
theorem test_rds_sample :
    (rdsSample par 0 built feed).2.1.diffPrev = true ∧ (rdsSample par 0 built feed).2.1.bitPos = 1 ∧
    (rdsSample par 0 built feed).2.1.lastMin = some 37 := by decide +kernel
theorem test_kaiser_len : kaiserLen (F64.ofNat 60) (f64Ratio 5 100) = 74 ∧
    designLen .highpass (F64.ofNat 60) (f64Ratio 5 100) = 75 := by decide +kernel
/-- √4 = 2, √2; 32^0.4 = 4, 10^0.4: the binary64 values nearest to the roots. -/
theorem test_roots : sqrtOf (F64.ofNat 4) = F64.ofNat 2 ∧ sqrtOf (F64.ofNat 2) = ⟨0x3FF6A09E667F3BCD#64⟩ ∧
    pow04 (F64.ofNat 32) = F64.ofNat 4 ∧ pow04 F64.ten = ⟨0x40041857E9D4CC5F#64⟩ := by decide +kernel
/-- I₀(0) = 1, I₀(1) = 1.2660658777520084; with β = 0 the window is 1. -/
theorem test_bessel : besselI0 F64.zero = F64.one ∧ besselI0 F64.one = ⟨0x3FF441CE4B386C2D#64⟩ ∧
    kaiserWindow F64.zero 5 1 = F64.one := by decide +kernel
theorem test_irq_line : irqLine { st0 [] with irqEn := 1#32, irqPend := 2#32 } = false ∧
    irqLine { st0 [] with irqEn := 1#32, irqPend := 3#32 } = true := by decide +kernel
theorem test_with_fetch_word :
    after (step ((st0 []).withFetchWord 32 0x113)) (fun t => t.noiseEn && t.cmdStatus == 0x1300#32) = true := by
  decide +kernel

/-! ## Witnesses: for each obligation with hypotheses, a state and operands that meet all of them, clause by clause -/

def wr (off : Nat) (v : Word32) : Event := .bus (.write (BitVec.ofNat 32 off) 32 v)

theorem test_witness_IllegalWordChangesOnlyStatus :
    ((st0 [wr 8 0x15#32]).env.inbox = [.bus (.write 0x008#32 32 0x15#32)] ∧
      decode 0x15#32 = .error .unassignedOpcode) ∧
    ((st0 [wr 8 0x213#32]).env.inbox = [.bus (.write 0x008#32 32 0x213#32)] ∧ decode 0x213#32 = .error .reservedBit) := by
  decide +kernel
theorem test_witness_StepRunsDecodedCommand :
    (st0 [wr 8 0x113#32]).env.inbox = [.bus (.write 0x008#32 32 0x113#32)] ∧
      decode 0x113#32 = .ok (.setNoiseEnable true) := by decide +kernel
theorem test_witness_ErrorLeavesStateUnchanged :
    after (exec .init (idle F64.zero)) (fun t => t.cmdStatus.extractLsb' 0 8 == 0x01#8) = true ∧
    after (exec .setGain (idle nanF)) (fun t => t.cmdStatus.extractLsb' 0 8 == 0x02#8) = true ∧
    after (exec .setSampleRate (idle nanF)) (fun t => t.cmdStatus.extractLsb' 0 8 == 0x03#8) = true := by decide +kernel
theorem test_witness_NopCompletes :
    (0x100#32 : Word32).extractLsb' 0 8 = 0x00#8 ∧ (0x100#32 : Word32) ≠ 0#32 := by decide
theorem test_witness_lifecycle :
    (st0 []).life = .uninit ∧ (idle F64.zero).life = .idle ∧ (running .idle []).life = .running ∧
    (running .idle []).tick = .idle ∧ (running (.stations [0, 1]) []).tick ≠ .idle ∧
    (running (.gained []) []).tick ≠ .idle := by decide +kernel
theorem test_witness_InitSlotOutcomes :
    (Station.fresh par).desc.getLsbD 0 = false ∧
    (({ staged with desc := 1#32 } : Station).desc.getLsbD 0 = true ∧
      ({ staged with desc := 1#32 } : Station).desc.getLsbD 1 = false) ∧
    (({ staged with dfreq := nanF } : Station).desc.getLsbD 2 = true ∧
      ({ staged with dfreq := nanF } : Station).dfreq.isFinite = false) ∧
    (staged.desc.getLsbD 0 = true ∧ staged.desc.getLsbD 1 = true ∧ staged.desc.getLsbD 2 = true ∧
      staged.dfreq.isFinite = true ∧ (audioOpen 0 feed).1 = true ∧
      (audioOpen 0 { feed with openIn := [false] }).1 = false) := by decide +kernel
theorem test_witness_TickWithoutStationsIsSilent :
    ∃ t, (idle F64.zero).life = .idle ∧ (∀ sl ∈ (idle F64.zero).slots, sl.st.status ≠ .active) ∧
      (idle F64.zero).noiseEn = false ∧ (∀ c ∈ (idle F64.zero).rateCoef, c.isFinite = true) ∧
      (exp10Of (idle F64.zero).par ((idle F64.zero).gainDb.div F64.ten)).isFinite = true ∧
      (exp10Of (idle F64.zero).par ((idle F64.zero).gainDb.div F64.ten)).sign = false ∧
      exec .tick (idle F64.zero) = .next t :=
  ⟨_, by decide +kernel, by decide +kernel, by decide +kernel, by decide +kernel, by decide +kernel, by decide +kernel, rfl⟩
theorem test_witness_ResetRestoresResetState :
    (running .idle []).tick = .idle ∧ (st0 []).life ≠ .running ∧ (running .mixed []).life = .running ∧
    (running .mixed []).tick ≠ .idle := by decide +kernel
/-- A station whose audio pull fails is silent and sets WARN.STATION_FAULT and IRQ_PEND.WARN, BLOCK and CMD_DONE. -/
theorem test_tick_fault :
    after (exec .tick { idle F64.zero with slots := [⟨built, { feed with audioIn := [.fail] }⟩] }) (fun t =>
      t.warn == 0x10#32 && t.irqPend == 0xB#32 && t.cmdStatus == 0x400#32 &&
      (busRead t 0x19C#32 32 == some 0xC068#32)) = true := by decide +kernel
theorem test_witness_SetCenterFreqRetunes :
    (par.cfMin.le (F64.ofNat 87500000) && (F64.ofNat 87500000).le par.cfMax) = true ∧
    (par.cfMin.le (F64.ofNat 108000000) && (F64.ofNat 108000000).le par.cfMax) = true ∧
    (par.cfMin.le (F64.ofNat 87499999) && (F64.ofNat 87499999).le par.cfMax) = false ∧
    (par.cfMin.le (F64.ofNat 108000001) && (F64.ofNat 108000001).le par.cfMax) = false ∧
    (par.cfMin.le nanF && nanF.le par.cfMax) = false := by decide +kernel
theorem test_witness_SetGainSetsGain :
    (par.gainMin.le (F64.ofNat 100).neg && (F64.ofNat 100).neg.le par.gainMax) = true ∧
    (par.gainMin.le (F64.ofNat 100) && (F64.ofNat 100).le par.gainMax) = true ∧
    (par.gainMin.le (F64.ofNat 101) && (F64.ofNat 101).le par.gainMax) = false ∧
    (par.gainMin.le nanF && nanF.le par.gainMax) = false := by decide +kernel
theorem test_witness_SetSampleRateSnapsToNearestDivisor :
    (idle (F64.ofNat 200000)).par.wf = true ∧ (idle (F64.ofNat 200000)).arg0 = 0x41086A0000000000#64 ∧
    ((F64.ofNat par.minRate).le (F64.ofNat 200000) && (F64.ofNat 200000).le (F64.ofNat 2280000)) = true ∧
    ((F64.ofNat par.minRate).le (F64.ofNat 2280000) && (F64.ofNat 2280000).le (F64.ofNat 2280000)) = true ∧
    ((F64.ofNat par.minRate).le (F64.ofNat 2280001) && (F64.ofNat 2280001).le (F64.ofNat 2280000)) = false ∧
    ((F64.ofNat par.minRate).le nanF && nanF.le (F64.ofNat 2280000)) = false := by decide +kernel
theorem test_witness_SetNoiseEnableSetsTheSwitch :
    (0x213#32 : Word32).extractLsb' 0 8 = 0x13#8 ∧ (0x213#32 : Word32).extractLsb' 9 23 ≠ 0#23 := by decide
theorem test_witness_SetNoiseSigmaRegeneratesTheTable :
    (nanF.isFinite && !(nanF.lt F64.zero)) = false ∧
    ((F64.zero.neg.isFinite && !(F64.zero.neg.lt F64.zero)) = true ∧ F64.zero.neg.eq (idle F64.zero).noiseSigma = true) ∧
    (F64.zero.eq { idle F64.zero with noiseSigma := F64.one }.noiseSigma = false ∧ F64.zero.eq F64.zero = true) ∧
    ((f64half.isFinite && !(f64half.lt F64.zero)) = true ∧ f64half.eq (idle f64half).noiseSigma = false ∧
      f64half.eq F64.zero = false) := by decide +kernel
theorem test_witness_SlvErrExactlyWhereUnmapped :
    ([0x000#32, 0x0FC#32, 0x100#32, 0x2FC#32, 0x01000000#32, 0x01FFFFFC#32].all fun off =>
      (busRead (st0 []) off 32).isSome) = true ∧
    ([0x300#32, 0x00FFFFFC#32, 0x02000000#32, 0x002#32, 0xFFFFFFFC#32].all fun off =>
      (busRead (st0 []) off 32).isNone) = true ∧
    (busRead (st0 []) 0#32 16 = none ∧ busRead (st0 []) 0#32 64 = none) ∧
    (st0 [.bus (.read 0x300#32 32)]).env.inbox = [.bus (.read 0x300#32 32)] ∧
    (st0 [wr 0x2FC 1#32]).env.inbox = [.bus (.write 0x2FC#32 32 1#32)] ∧ (st0 []).slots.length ≤ 32 ∧
    (∀ o ∈ [0x000, 0x00C, 0x028, 0x0FC], o < 0x100 ∧ o ∉ [0x008, 0x010, 0x014, 0x01C, 0x020, 0x024]) ∧
    (∀ o ∈ [0x104, 0x114, 0x170, 0x2FC], 0x100 ≤ o ∧ o < 0x300 ∧ o < 0x01000000 ∧
      (o % 0x100 = 0x04 ∨ o % 0x100 = 0x14 ∨ 0x70 ≤ o % 0x100)) := by decide +kernel
theorem test_witness_slots : (idleWith F64.zero).slots[0]? = some ⟨built, feed⟩ ∧
    (idleWith F64.zero).slots[1]? = some slot := ⟨rfl, rfl⟩
theorem test_witness_RegistersRead : (st0 []).slots.length ≤ 32 ∧ (idleWith F64.zero).slots.length ≤ 32 ∧
    built.status = .active ∧ RdsInRange par built.rds ∧ built.q12 < 12 ∧ slot.st.status ≠ .active ∧
    0x060 ≤ (0x060#32 : Word32).toNat ∧ (0x0FC#32 : Word32).toNat < 0x100 ∧ (0x0FC#32 : Word32).toNat % 4 = 0 := by
  decide +kernel
theorem test_witness_Arg0WrittenByHalves :
    (st0 [wr 0x10 1#32]).env.inbox = [.bus (.write 0x010#32 32 1#32)] ∧
    (st0 [wr 0x14 1#32]).env.inbox = [.bus (.write 0x014#32 32 1#32)] := by decide +kernel
theorem test_witness_StatusRegisterWrites :
    (st0 [wr 0x1C 1#32]).env.inbox = [.bus (.write 0x01C#32 32 1#32)] ∧
    (st0 [wr 0x24 1#32]).env.inbox = [.bus (.write 0x024#32 32 1#32)] ∧
    (st0 [wr 0x20 1#32]).env.inbox = [.bus (.write 0x020#32 32 1#32)] := by decide +kernel
theorem test_witness_StagingWritesOnlyInUninit :
    (st0 []).slots[1]? = some slot ∧ (st0 []).life = .uninit ∧ (idle F64.zero).life ≠ .uninit ∧
    (st0 [wr 0x200 1#32]).env.inbox = [.bus (.write (BitVec.ofNat 32 (0x100 + 0x100 * 1 + 0x00)) 32 1#32)] ∧
    (st0 [wr 0x26C 1#32]).env.inbox = [.bus (.write (BitVec.ofNat 32 (0x100 + 0x100 * 1 + 0x6C)) 32 1#32)] ∧
    (∀ off ∈ [0x00, 0x08, 0x0C, 0x10, 0x18, 0x6C], off % 4 = 0 ∧
      (off = 0x00 ∨ off = 0x08 ∨ off = 0x0C ∨ off = 0x10 ∨ (0x18 ≤ off ∧ off < 0x70))) := by decide +kernel
theorem test_witness_OutputWindowHoldsTheBlock :
    let s : State := { st0 [] with outBuf := [(1#32, 2#32)], outLen := 1 }
    s.slots.length ≤ 32 ∧ s.outBuf.length = s.outLen ∧ s.outBuf[0]? = some (1#32, 2#32) ∧ s.outLen ≤ 1 ∧
    busRead s 0x01000000#32 32 = some 1#32 ∧ busRead s 0x01000004#32 32 = some 2#32 ∧
    busRead s 0x01FFFFFC#32 32 = some 0#32 := by decide +kernel
theorem test_witness_GroupSelection :
    (Rds.fresh par).lastMin ≠ some (clockRead 0 feed).1.minute.val ∧
    (∀ g ∈ [0, 3, 4], ({ Rds.fresh par with lastMin := some 37, grpCur := g } : Rds).lastMin =
      some (clockRead 0 feed).1.minute.val) := by decide +kernel
theorem test_witness_RdsSampleWithinABit :
    ({ Rds.fresh par with sampleCnt := 191, phase4 := 3 } : Rds).sampleCnt < 192 ∧
    ({ Rds.fresh par with sampleCnt := 191, phase4 := 3 } : Rds).phase4 < 4 := by decide +kernel
theorem test_witness_RdsBitIsDifferentiallyEncoded :
    ∀ b ∈ [0, 103, 104], let r : Rds := { Rds.fresh par with bitPos := b }
      r.sampleCnt = 192 ∧ RdsInRange par r := by decide +kernel
/-- π, −π and 2⁵⁰ are within R263's bound. -/
theorem test_witness_FmFollowsThePhase :
    ∀ x ∈ [F64.pi, F64.pi.neg, F64.ofNat (2 ^ 50)], x.isFinite = true ∧ x.units ≤ 2 ^ 50 * F64.unitsOne := by
  decide +kernel
theorem test_wrap_bound : (wrap (F64.ofNat (2 ^ 50))).le F64.pi = true ∧
    F64.pi.neg.lt (wrap (F64.ofNat (2 ^ 50))) = true := by decide +kernel
theorem test_witness_stationRun :
    (F64.ofNat 1140000).lt (built.freq.sub f102e6).abs = true ∧
    (F64.ofNat 1140000).lt (built.freq.sub built.tuning.tuned).abs = false ∧
    (audioPull 0 4 { feed with audioIn := [.fail] }).1 = none ∧ (audioPull 0 4 feed).1.isSome = true ∧
    built.q12 < 12 ∧ built.rds.phase4 < 4 := by decide +kernel
theorem test_witness_StationOrderUnobservable :
    [0, 1].Nodup ∧ [0, 1].Perm [1, 0] ∧ (∀ sl ∈ (idleWith F64.zero).slots, sl.st.tuneOld = []) := by decide +kernel
theorem test_witness_ImpulseReproducesCoefficients :
    (∀ x ∈ [F64.one, F64.ten], x.isFinite = true) ∧ [F64.one, F64.ten].length ≤ 2 := by decide +kernel
theorem test_witness_TickProgressesStageByStage :
    ∀ ph ∈ [.stations [0, 1], .stations [], .mixed, .noised, .filtered [], .decimated [], .gained [Cplx.zero]],
      (running ph [.advance]).env.inbox = [.advance] ∧ (running ph [.advance]).tick = ph := by decide +kernel
/-- R263: 0.866… in fixed point with 15 fraction bits is 28378 / 32768; a table entry of 1074 bits or more is exact. -/
theorem test_fixedPoint : fixedPoint 15 sqrt3half = (F64.ofNat 28378).div (F64.ofNat 32768) ∧
    fixedPoint 15 sqrt3half.neg = ((F64.ofNat 28378).div (F64.ofNat 32768)).neg ∧
    fixedPoint 1100 sqrt3half = sqrt3half ∧ fixedPoint 15 F64.zero.neg = F64.zero := by decide +kernel
theorem test_witness_TimerFiringStartsATick :
    (running .idle [.fire true]).env.inbox = [.fire true] ∧ (running .idle [.fire true]).life = .running ∧
    (running .idle [.fire true]).tick = .idle := by decide +kernel
theorem test_witness_OnlyTheHostActsUnlessRunning :
    ∀ ev ∈ [Event.fire true, Event.advance], LifeConsistent (st0 [ev]) ∧ (st0 [ev]).life ≠ .running ∧
      (st0 [ev]).env.inbox = [ev] := by decide +kernel
theorem test_witness_TickReadsOldOrNew : 1 ∈ 1 :: [2] ∧ 2 ∈ 1 :: [2] := by decide
theorem test_witness_RateChangeCanPairOldAndNew :
    let s : State := { running .noised [] with old := { Replaced.none with rateCoef := [[F64.ten]], decim := [2] } }
    s.tick = .noised ∧ s.old.rateCoef = [[F64.ten]] ∧ s.old.decim = [2] ∧ s.rateCoef ≠ [F64.ten] ∧ s.decim ≠ 2 := by
  decide +kernel
/-- A state in RUNNING with a tick in progress, one active station's block still to be made, and a progress event. -/
def midTick : State := { running (.stations [0]) [.advance] with slots := [⟨built, feed⟩, slot] }
theorem test_witness_invariants :
    SettingsConsistent midTick ∧ LifeConsistent midTick ∧ PhaseLocked midTick ∧ CursorsInRange midTick ∧
      HistoriesAgree midTick ∧ ReservedBitsZero midTick ∧ midTick.life ≠ .uninit := by decide +kernel
theorem test_witness_BuffersStayConsistent : BuffersConsistent midTick := by
  refine ⟨by decide +kernel, by decide +kernel, ?_, by decide +kernel, by decide +kernel, by decide +kernel⟩
  show ∀ q ∈ midTick.slots.zipIdx, q.1.st.active = true → q.2 ∉ [0] → q.1.st.out.length = lUp midTick
  decide +kernel
theorem test_witness_step : ∃ t, step midTick = .next t := ⟨_, rfl⟩

end Sys2Proof.Machine.Slice0
end

/-! SUPPORT. The decoder reads back every encoded command word (spec 30_encoding.md R121 to R125). -/

namespace Sys2Proof

/-! ## The fields of an encoded word -/

@[simp] theorem opcodeField_encode (i : Instr) : opcodeField (encode i) = i.opcode :=
  BitVec.extractLsb'_append_eq_right

@[simp] theorem extractLsb'_high_encode (i : Instr) : (encode i).extractLsb' 8 24 = i.high :=
  BitVec.extractLsb'_append_eq_left

/-! ## The two formats -/

/-- A command whose bits 31..8 are 0 passes the check of format C (R121). -/
theorem decodeC_encode {i : Instr} (hhigh : i.high = 0#24) (j : Instr) : decodeC (encode i) j = .ok j := by
  simp [decodeC, hhigh]

/-- Format CE gives back EN (R122, R123). -/
theorem decodeCE_encode (en : Bool) (j : Bool → Instr) :
    decodeCE (encode (.setNoiseEnable en)) j = .ok (j en) := by
  have ⟨_, hreserved, hen⟩ := Laws.EncodeFormat.setNoiseEnable en
  have hbit : (encode (.setNoiseEnable en)).getLsbD 8 = en := by
    rw [Bool.eq_iff_iff, hen, Instr.setNoiseEnable.injEq]
  rw [decodeCE, if_pos hreserved, hbit]

/-! ## Decoding undoes encoding -/

/-- The opcode selects the command's own format, which the rest of its word passes (R124). -/
theorem decode_encode (i : Instr) : decode (encode i) = .ok i := by
  rw [decode, opcodeField_encode]
  cases i with
  | setNoiseEnable en => exact decodeCE_encode en _
  | _ => exact decodeC_encode rfl _

/-- Settles O2: each word of R125's map is the encoding of its command. -/
theorem wordsOfTheOpcodeMap : Obligations.WordsOfTheOpcodeMap :=
  ⟨decode_encode .nop, decode_encode .init, decode_encode .start, decode_encode .stop, decode_encode .tick,
    decode_encode .reset, decode_encode .setCenterFreq, decode_encode .setGain, decode_encode .setSampleRate,
    decode_encode (.setNoiseEnable false), decode_encode (.setNoiseEnable true), decode_encode .setNoiseSigma⟩

end Sys2Proof

/-! SUPPORT. The answer of each command, one equation per branch of its definition (spec 40_commands.md R151 to R164). -/

namespace Sys2Proof.Machine

variable {s : State}

/-! ## The lifecycle commands, by the LIFE they depend on (R151 to R157) -/

theorem exec_nop (s : State) : exec .nop s = .next (complete (Instr.opcode .nop) .ok s) := rfl

theorem exec_init_of_uninit (h : s.life = .uninit) :
    exec .init s = .next (complete (Instr.opcode .init) .ok (initBody s)) :=
  congrArg Host.Outcome.next (if_neg (not_not_intro h))

theorem exec_init_of_ne_uninit (h : s.life ≠ .uninit) : exec .init s = .next (raise .init .configError s) :=
  congrArg Host.Outcome.next (if_pos h)

theorem exec_start_of_idle (h : s.life = .idle) :
    exec .start s = .next (complete (Instr.opcode .start) .ok { armTimer s with life := .running }) :=
  congrArg Host.Outcome.next (if_pos h)

theorem exec_start_of_ne_idle (h : s.life ≠ .idle) : exec .start s = .next (lifecycleNoop .start s) :=
  congrArg Host.Outcome.next (if_neg h)

theorem exec_stop_of_running (h : s.life = .running) :
    exec .stop s = .next (complete (Instr.opcode .stop) .ok { stopTimer s with life := .idle }) :=
  congrArg Host.Outcome.next (if_pos h)

theorem exec_stop_of_ne_running (h : s.life ≠ .running) : exec .stop s = .next (lifecycleNoop .stop s) :=
  congrArg Host.Outcome.next (if_neg h)

theorem exec_tick_of_idle (h : s.life = .idle) :
    exec .tick s = .next (complete (Instr.opcode .tick) .ok (tickBody s)) :=
  congrArg Host.Outcome.next (if_pos h)

theorem exec_tick_of_ne_idle (h : s.life ≠ .idle) : exec .tick s = .next (lifecycleNoop .tick s) :=
  congrArg Host.Outcome.next (if_neg h)

theorem exec_reset (s : State) :
    exec .reset s =
      .next (complete (Instr.opcode .reset) .ok (resetAll (if s.life = .running then stopTimer s else s))) := rfl

/-! ## The setters, by their check (R160 to R164) -/

theorem exec_setCenterFreq (s : State) :
    exec .setCenterFreq s = .next (if inBounds s.par.cfMin (argF64 s) s.par.cfMax
      then complete (Instr.opcode .setCenterFreq) .ok (retuneAll (argF64 s) s)
      else raise .setCenterFreq .outOfRange s) := rfl

theorem exec_setGain (s : State) :
    exec .setGain s = .next (if inBounds s.par.gainMin (argF64 s) s.par.gainMax
      then complete (Instr.opcode .setGain) .ok (replaceGain (argF64 s) s)
      else raise .setGain .outOfRange s) := rfl

theorem exec_setSampleRate (s : State) :
    exec .setSampleRate s = .next (if rateInBounds s.par (argF64 s)
      then complete (Instr.opcode .setSampleRate) .ok (replaceRate (nearestRate s.par (argF64 s)) s)
      else raise .setSampleRate .invalidValue s) := rfl

theorem exec_setNoiseEnable (en : Bool) (s : State) :
    exec (.setNoiseEnable en) s =
      .next (complete (Instr.opcode (.setNoiseEnable en)) .ok (replaceNoiseEn en s)) := rfl

theorem exec_setNoiseSigma (s : State) :
    exec .setNoiseSigma s = .next (if sigmaValid (argF64 s)
      then complete (Instr.opcode .setNoiseSigma) .ok
        (if (argF64 s).eq s.noiseSigma then s else regenerateNoise (argF64 s) s)
      else raise .setNoiseSigma .invalidValue s) := rfl

/-! ## LIFE after what a command does -/

@[simp] theorem initBody_life (s : State) : (initBody s).life = .idle := by
  rw [initBody, setWarnIf_life]

@[simp] theorem tickBody_life (s : State) : (tickBody s).life = s.life :=
  (finishTick_frame _).life

@[simp] theorem regenerateNoise_life (sigma : F64) (s : State) : (regenerateNoise sigma s).life = s.life := by
  rw [regenerateNoise, replaceNoiseTab_life]

/-- A setter whose check fails raises its error and keeps LIFE; so it is enough that its effect keeps LIFE. -/
theorem checked_life {check : Prop} [Decidable check] {i : Instr} {error : ResultCode} {op : BitVec 8} {effect : State}
    (h : effect.life = s.life) :
    (if check then complete op .ok effect else raise i error s).life = s.life := by
  split
  · exact h
  · rfl

/-- SET_NOISE_SIGMA keeps LIFE whether it redraws the table or not (R164). -/
theorem noiseSigmaEffect_life (sigma : F64) (s : State) :
    (if sigma.eq s.noiseSigma then s else regenerateNoise sigma s).life = s.life := by
  split
  · rfl
  · exact regenerateNoise_life sigma s

end Sys2Proof.Machine

/-! SUPPORT. The lifecycle matrix (spec 40_commands.md R158), from the answers of the commands. -/

namespace Sys2Proof.Machine

/-- Settles O7: by the command, and for INIT, START, STOP and TICK by the LIFE before it. -/
theorem lifecycleMatrix : Obligations.LifecycleMatrix := by
  unfold Obligations.LifecycleMatrix
  intro i s
  cases i with
  | nop => exact ⟨_, exec_nop s, rfl⟩
  | init =>
    cases h : s.life with
    | uninit => exact ⟨_, exec_init_of_uninit h, initBody_life s, rfl⟩
    | idle => exact ⟨_, exec_init_of_ne_uninit (by simp [h]), h, rfl⟩
    | running => exact ⟨_, exec_init_of_ne_uninit (by simp [h]), h, rfl⟩
  | start =>
    cases h : s.life with
    | uninit => exact ⟨_, exec_start_of_ne_idle (by simp [h]), h, rfl⟩
    | idle => exact ⟨_, exec_start_of_idle h, rfl, rfl⟩
    | running => exact ⟨_, exec_start_of_ne_idle (by simp [h]), h, rfl⟩
  | stop =>
    cases h : s.life with
    | uninit => exact ⟨_, exec_stop_of_ne_running (by simp [h]), h, rfl⟩
    | idle => exact ⟨_, exec_stop_of_ne_running (by simp [h]), h, rfl⟩
    | running => exact ⟨_, exec_stop_of_running h, rfl, rfl⟩
  | tick =>
    cases h : s.life with
    | uninit => exact ⟨_, exec_tick_of_ne_idle (by simp [h]), h, rfl⟩
    | idle => exact ⟨_, exec_tick_of_idle h, (tickBody_life s).trans h, rfl⟩
    | running => exact ⟨_, exec_tick_of_ne_idle (by simp [h]), h, rfl⟩
  | reset => exact ⟨_, exec_reset s, rfl, rfl⟩
  | setCenterFreq => exact ⟨_, exec_setCenterFreq s, checked_life (retuneAll_life _ s)⟩
  | setGain => exact ⟨_, exec_setGain s, checked_life (replaceGain_life _ s)⟩
  | setSampleRate => exact ⟨_, exec_setSampleRate s, checked_life (replaceRate_life _ s)⟩
  | setNoiseEnable en => exact ⟨_, exec_setNoiseEnable en s, replaceNoiseEn_life en s⟩
  | setNoiseSigma => exact ⟨_, exec_setNoiseSigma s, checked_life (noiseSigmaEffect_life _ s)⟩

end Sys2Proof.Machine

/-! SUPPORT. NOP's word and its effect (spec 30_encoding.md R121, R124; 40_commands.md R151). -/

namespace Sys2Proof

/-- A command word is its opcode field under the 24 bits above it (R121). -/
theorem high_append_opcodeField (w : Word32) : w.extractLsb' 8 24 ++ opcodeField w = w :=
  (BitVec.extractLsb'_append_extractLsb'_eq_extractLsb' (start₁ := 0) (len₁ := 8) rfl).trans
    BitVec.extractLsb'_eq_self

theorem decode_of_opcodeField_zero {w : Word32} (h : opcodeField w = 0x00#8) : decode w = decodeC w .nop := by
  rw [decode, h]; rfl

theorem decodeC_of_reserved {w : Word32} (h : w.extractLsb' 8 24 ≠ 0#24) (i : Instr) :
    decodeC w i = .error .reservedBit :=
  if_neg h

/-- Opcode 0x00 with any other bit set is a NOP word with a reserved bit set (R151). -/
theorem decode_nop_reserved {w : Word32} (hop : opcodeField w = 0x00#8) (hw : w ≠ 0#32) :
    decode w = .error .reservedBit := by
  have hhigh : w.extractLsb' 8 24 ≠ 0#24 := by
    intro hzero
    apply hw
    rw [← high_append_opcodeField w, hzero, hop]; rfl
  rw [decode_of_opcodeField_zero hop, decodeC_of_reserved hhigh]

namespace Machine

/-- Settles O9: the decoder's NOP row, the completion with OK, and the reserved bits of format C. -/
theorem nopCompletes : Obligations.NopCompletes := by
  unfold Obligations.NopCompletes
  refine ⟨decode_encode .nop, fun s => ?status, fun w hop hw => ⟨_, decode_nop_reserved hop hw⟩⟩
  case status => exact (exec_nop s).trans (congrArg Host.Outcome.next (complete_irqPend_ok _ s))

end Machine
end Sys2Proof

/-! SUPPORT. The texts BUILD writes, byte by byte (spec 40_commands.md R153; 00_scope.md R10). -/

namespace Sys2Proof.Machine

/-! ## A list of bytes as a text field -/

theorem textVec_getD {n k : Nat} (t : List Byte) (hk : k < n) : (textVec n t).getD k 0 = t.getD k 0 := by
  simp [textVec, Vector.getD, hk]

theorem textVec_toList {n : Nat} {t : List Byte} (h : t.length = n) : (textVec n t).toList = t := by
  subst h
  apply List.ext_getElem <;> simp [textVec]

/-! ## The call sign (R153) -/

theorem normCs_of_length_ge {cs : List Byte} (h : 4 ≤ cs.length) : normCs cs = cs.take 4 := if_pos h

theorem normCs_of_length_lt {cs : List Byte} (h : ¬4 ≤ cs.length) :
    normCs cs = List.replicate (4 - cs.length) 0x57#8 ++ cs := if_neg h

@[simp] theorem normCs_length (cs : List Byte) : (normCs cs).length = 4 := by
  by_cases h : 4 ≤ cs.length
  · simp [normCs_of_length_ge h, h]
  · rw [normCs_of_length_lt h, List.length_append, List.length_replicate]
    omega

/-- Cut on the right, or padded with 'W' on the left. -/
theorem normCs_getD (cs : List Byte) {k : Nat} (hk : k < 4) :
    (normCs cs).getD k 0 =
      if 4 ≤ cs.length then cs.getD k 0
      else if k < 4 - cs.length then 0x57#8 else cs.getD (k - (4 - cs.length)) 0 := by
  by_cases h : 4 ≤ cs.length
  · have hin : k < cs.length := by omega
    simp [normCs_of_length_ge h, h, hk, hin]
  · rw [normCs_of_length_lt h, if_neg h]
    by_cases hpad : k < 4 - cs.length
    · rw [if_pos hpad, List.getD_append _ _ _ _ (by simpa using hpad), List.getD_replicate _ hpad]
    · rw [if_neg hpad, List.getD_append_right _ _ _ _ (by simpa using hpad), List.length_replicate]

/-! ## PS and RT (R153) -/

/-- Cut to `n` bytes, and a space wherever the text has no byte. -/
theorem normText_getD {n k : Nat} (t : List Byte) (hk : k < n) : (normText n t).getD k 0 = t.getD k 0x20#8 := by
  rw [normText, pad]
  by_cases hin : k < t.length
  · have hcut : k < (t.take n).length := by rw [List.length_take]; omega
    rw [List.getD_append _ _ _ _ hcut]
    simp [hin, hk]
  · have hcut : (t.take n).length = t.length := by rw [List.length_take]; omega
    rw [hcut, List.getD_append_right _ _ _ _ (by omega), List.getD_replicate _ (by omega),
      List.getD_eq_default _ _ (by omega)]

/-! ## BUILD (R153) -/

/-- Settles O12: the texts byte by byte, PI of the call sign as written; every other field is BUILD's own (R153). -/
theorem buildGivesStationValues : Obligations.BuildGivesStationValues := by
  unfold Obligations.BuildGivesStationValues
  intro p cf st
  refine ⟨rfl, ?csN, ?psN, ?rtN, ?pi, rfl, rfl, rfl, ?hist, rfl, rfl, rfl, rfl, rfl, rfl, rfl, rfl, rfl, rfl, rfl⟩
  case csN => exact fun k hk => (textVec_getD _ hk).trans (normCs_getD _ hk)
  case psN => exact fun k hk => (textVec_getD _ hk).trans (normText_getD _ hk)
  case rtN => exact fun k hk => (textVec_getD _ hk).trans (normText_getD _ hk)
  case pi => exact congrArg (callsignToPi p) (textVec_toList (normCs_length _)).symm
  case hist => exact fun h hh => List.eq_of_mem_replicate hh

end Sys2Proof.Machine

/-! SUPPORT. The check word as a polynomial remainder (spec 41_rds.md R207). A word stands for a polynomial over GF(2):
`^^^` is the sum, `<<<` the product with a power of x. -/

namespace Sys2Proof.Machine

/-! ## Bits in transmission order -/

theorem getMsbD_eq_getLsbD_sub {n k : Nat} (x : BitVec n) (h : k < n) : x.getMsbD k = x.getLsbD (n - 1 - k) := by
  rw [BitVec.getMsbD_eq_getLsbD, decide_eq_true h, Bool.true_and]

/-! ## A polynomial times one coefficient -/

/-- `v` where the coefficient is 1, else 0. -/
def scaled {w : Nat} (b : Bool) (v : BitVec w) : BitVec w := if b then v else 0#w

@[simp] theorem scaled_true {w : Nat} (v : BitVec w) : scaled true v = v := rfl
@[simp] theorem scaled_false {w : Nat} (v : BitVec w) : scaled false v = 0#w := rfl

theorem getElem_scaled {w i : Nat} (b : Bool) (v : BitVec w) (h : i < w) : (scaled b v)[i] = (b && v[i]) := by
  cases b <;> simp

theorem scaled_bitXor {w : Nat} (a b : Bool) (v : BitVec w) : scaled (a ^^ b) v = scaled a v ^^^ scaled b v := by
  cases a <;> cases b <;> simp

theorem scaled_xor {w : Nat} (b : Bool) (u v : BitVec w) : scaled b (u ^^^ v) = scaled b u ^^^ scaled b v := by
  cases b <;> simp

theorem scaled_shiftLeft {w : Nat} (b : Bool) (v : BitVec w) (n : Nat) : scaled b v <<< n = scaled b (v <<< n) := by
  cases b <;> simp

theorem setWidth_scaled {w : Nat} (b : Bool) (v : BitVec w) (n : Nat) :
    (scaled b v).setWidth n = scaled b (v.setWidth n) := by
  cases b <;> simp

/-! ## One turn of the bit-serial form -/

/-- A turn subtracts g, without its x¹⁰ term, where the bit shifted out and the message bit differ. -/
theorem crcStep_eq (c : BitVec 10) (b : Bool) : crcStep c b = c <<< 1 ^^^ scaled (b ^^ c.getLsbD 9) 0x1B9#10 := by
  rw [crcStep, scaled]
  split
  · rfl
  · rw [BitVec.xor_zero]

theorem crcStep_xor (c d : BitVec 10) (x y : Bool) :
    crcStep (c ^^^ d) (x ^^ y) = crcStep c x ^^^ crcStep d y := by
  simp only [crcStep_eq, BitVec.getLsbD_xor, scaled_bitXor, BitVec.shiftLeft_xor_distrib]
  ac_rfl

/-- The bit that leaves the 10-bit register is the coefficient of x¹⁰ of its product with x. -/
theorem setWidth_shiftLeft_one (c : BitVec 10) :
    c.setWidth 26 <<< 1 = (c <<< 1).setWidth 26 ^^^ scaled (c.getLsbD 9) (BitVec.twoPow 26 10) := by
  ext i hi
  simp only [BitVec.getElem_xor, getElem_scaled, BitVec.getElem_shiftLeft, BitVec.getElem_setWidth,
    BitVec.getElem_twoPow, BitVec.getLsbD_shiftLeft]
  rcases Nat.lt_trichotomy i 10 with hlt | rfl | hgt
  · simp [hlt, hlt.ne]
  · simp
  · simp [hgt.not_gt, hgt.ne', BitVec.getLsbD_of_ge c (i - 1) (by omega)]

/-- With its x¹⁰ term kept, a turn multiplies the register by x, adds the message bit at x¹⁰ and, where the coefficient of
x¹⁰ is then 1, subtracts g. -/
theorem setWidth_crcStep (c : BitVec 10) (b : Bool) :
    c.setWidth 26 <<< 1 ^^^ scaled b (BitVec.twoPow 26 10) =
      (crcStep c b).setWidth 26 ^^^ scaled (b ^^ c.getLsbD 9) 0x5B9#26 := by
  have hg : 0x5B9#26 = (0x1B9#10).setWidth 26 ^^^ BitVec.twoPow 26 10 := by decide
  rw [setWidth_shiftLeft_one, crcStep_eq, hg, scaled_xor, BitVec.setWidth_xor, setWidth_scaled, BitVec.xor_assoc,
    BitVec.xor_assoc, ← BitVec.xor_assoc (scaled _ (BitVec.setWidth _ _)), BitVec.xor_self, BitVec.zero_xor,
    scaled_bitXor, BitVec.xor_comm (scaled b _)]

/-! ## The register after each turn -/

/-- The register after the first `j` message bits. -/
def crcReg (m : BitVec 16) (j : Nat) : BitVec 10 :=
  (List.range j).foldl (fun c k => crcStep c (m.getMsbD k)) 0#10

theorem crc_eq_crcReg (m : BitVec 16) : crc m = crcReg m 16 := rfl

theorem crcReg_zero (m : BitVec 16) : crcReg m 0 = 0#10 := rfl

theorem crcReg_succ (m : BitVec 16) (j : Nat) : crcReg m (j + 1) = crcStep (crcReg m j) (m.getMsbD j) := by
  simp [crcReg, List.range_succ]

theorem crcReg_xor (a b : BitVec 16) (j : Nat) : crcReg (a ^^^ b) j = crcReg a j ^^^ crcReg b j := by
  induction j with
  | zero => exact (BitVec.xor_self (x := 0#10)).symm
  | succ j ih => rw [crcReg_succ, crcReg_succ, crcReg_succ, ih, BitVec.getMsbD_xor, crcStep_xor]

/-- The bit-serial form as R207 writes it, from bit 15 down to bit 0. -/
theorem crc_eq_bitSerial (m : BitVec 16) :
    crc m = (List.range 16).foldl (fun (c : BitVec 10) k =>
      if (m.getLsbD (15 - k) ^^ c.getLsbD 9) = true then (c <<< 1) ^^^ 0x1B9#10 else c <<< 1) 0#10 := by
  refine List.foldl_ext _ _ _ fun c k hk => ?_
  have hbit : m.getMsbD k = m.getLsbD (15 - k) := getMsbD_eq_getLsbD_sub m (List.mem_range.mp hk)
  rw [hbit, crcStep]

/-! ## The quotient -/

/-- Bit `n` of the quotient: whether g is subtracted when message bit `n` is read. -/
def crcQuotientBit (m : BitVec 16) (n : Nat) : Bool := m.getLsbD n ^^ (crcReg m (15 - n)).getLsbD 9

def crcQuotient (m : BitVec 16) : BitVec 16 := BitVec.ofFnLE fun n => crcQuotientBit m n.val

theorem crcQuotient_getLsbD (m : BitVec 16) {n : Nat} (h : n < 16) :
    (crcQuotient m).getLsbD n = crcQuotientBit m n := by
  rw [crcQuotient, BitVec.getLsbD_ofFnLE, dif_pos h]

/-- `acc` plus the shifts of g that the low `n` bits of `q` select. -/
def addMultiple (q : BitVec 16) (acc : BitVec 26) (n : Nat) : BitVec 26 :=
  (List.range n).foldl (fun acc k => if q.getLsbD k then acc ^^^ (0x5B9#26 <<< k) else acc) acc

theorem addMultiple_zero (q : BitVec 16) (acc : BitVec 26) : addMultiple q acc 0 = acc := rfl

theorem addMultiple_succ (q : BitVec 16) (acc : BitVec 26) (n : Nat) :
    addMultiple q acc (n + 1) = addMultiple q acc n ^^^ scaled (q.getLsbD n) 0x5B9#26 <<< n := by
  rw [addMultiple, List.range_succ, List.foldl_concat, ← addMultiple, scaled_shiftLeft, scaled]
  split
  · rfl
  · rw [BitVec.xor_zero]

/-! ## The division -/

/-- The low `n` coefficients of `m`. -/
def lowPart (m : BitVec 16) (n : Nat) : BitVec 26 := (m.setWidth n).setWidth 26

theorem lowPart_zero (m : BitVec 16) : lowPart m 0 = 0#26 := by
  rw [lowPart, BitVec.of_length_zero (x := m.setWidth 0), BitVec.setWidth_zero]

theorem lowPart_succ (m : BitVec 16) (n : Nat) :
    lowPart m (n + 1) = lowPart m n ^^^ scaled (m.getLsbD n) (BitVec.twoPow 26 n) := by
  ext i hi
  simp only [lowPart, BitVec.getElem_xor, getElem_scaled, BitVec.getElem_setWidth, BitVec.getElem_twoPow,
    BitVec.getLsbD_setWidth]
  rcases Nat.lt_trichotomy i n with hlt | rfl | hgt
  · simp [hlt, hlt.le, hlt.ne]
  · simp
  · simp [hgt.not_gt, hgt.not_ge, hgt.ne']

theorem crcReg_turn (m : BitVec 16) {n : Nat} (h : n < 16) :
    crcReg m (16 - n) = crcStep (crcReg m (15 - n)) (m.getLsbD n) := by
  have hpos : 16 - n = (15 - n) + 1 := by omega
  have hbit : m.getMsbD (15 - n) = m.getLsbD n := by
    rw [getMsbD_eq_getLsbD_sub m (by omega)]
    congr 1; omega
  rw [hpos, crcReg_succ, hbit]

/-- While `n` message bits are still to be read: what is left of `m·x¹⁰`, the register in its place above those bits, is the
remainder plus the multiple of g still to be subtracted. -/
theorem lowPart_xor_crcReg (m : BitVec 16) {n : Nat} (h : n ≤ 16) :
    lowPart m n <<< 10 ^^^ (crcReg m (16 - n)).setWidth 26 <<< n =
      addMultiple (crcQuotient m) ((crc m).setWidth 26) n := by
  induction n with
  | zero => simp [addMultiple_zero, crc_eq_crcReg, lowPart_zero]
  | succ n ih =>
    have hn : n < 16 := h
    have hread : 16 - (n + 1) = 15 - n := by omega
    have hbit : BitVec.twoPow 26 n <<< 10 = BitVec.twoPow 26 10 <<< n := by
      simp only [BitVec.twoPow_eq, ← BitVec.shiftLeft_add, Nat.add_comm]
    have hplace : (crcReg m (15 - n)).setWidth 26 <<< (n + 1) = (crcReg m (15 - n)).setWidth 26 <<< 1 <<< n := by
      rw [← BitVec.shiftLeft_add, Nat.add_comm]
    rw [hread]
    calc lowPart m (n + 1) <<< 10 ^^^ (crcReg m (15 - n)).setWidth 26 <<< (n + 1)
      _ = lowPart m n <<< 10 ^^^
            ((crcReg m (15 - n)).setWidth 26 <<< 1 ^^^ scaled (m.getLsbD n) (BitVec.twoPow 26 10)) <<< n := by
          rw [lowPart_succ, hplace, BitVec.shiftLeft_xor_distrib, BitVec.shiftLeft_xor_distrib, scaled_shiftLeft,
            scaled_shiftLeft, hbit, BitVec.xor_assoc, BitVec.xor_comm (scaled _ _)]
      _ = lowPart m n <<< 10 ^^^ (crcReg m (16 - n)).setWidth 26 <<< n ^^^
            scaled (crcQuotientBit m n) 0x5B9#26 <<< n := by
          rw [setWidth_crcStep, ← crcReg_turn m hn, ← crcQuotientBit, BitVec.shiftLeft_xor_distrib, BitVec.xor_assoc]
      _ = addMultiple (crcQuotient m) ((crc m).setWidth 26) (n + 1) := by
          rw [ih hn.le, addMultiple_succ, crcQuotient_getLsbD m hn]

/-- Settles O30: the quotient is the turns at which g is subtracted; the division runs over the message bits still to be
read, and each turn is linear. -/
theorem crcIsThePolynomialRemainder : Obligations.CrcIsThePolynomialRemainder := by
  refine ⟨fun m => ⟨crcQuotient m, ?division⟩, crc_eq_bitSerial, fun a b => crcReg_xor a b 16, ?zero, ?one⟩
  case division =>
    have h := lowPart_xor_crcReg m (Nat.le_refl 16)
    rw [Nat.sub_self, crcReg_zero, BitVec.setWidth_zero, BitVec.zero_shiftLeft, BitVec.xor_zero, lowPart,
      BitVec.setWidth_eq] at h
    exact h
  case zero => decide +kernel
  case one => decide +kernel

end Sys2Proof.Machine

/-! SUPPORT. The 104 bits of a group in transmission order (spec 41_rds.md R208, R209). -/

namespace Sys2Proof.Machine

/-! ## Concatenated words -/

/-- The first `n` bits sent are those of `x`. -/
theorem getMsbD_append_left {n m k : Nat} (x : BitVec n) (y : BitVec m) (h : k < n) :
    (x ++ y).getMsbD k = x.getMsbD k := by
  rw [BitVec.getMsbD_append, if_neg (by omega)]

/-- The bits of `y` are sent after the `n` bits of `x`. -/
theorem getMsbD_append_right {n m k : Nat} (x : BitVec n) (y : BitVec m) :
    (x ++ y).getMsbD (n + k) = y.getMsbD k := by
  rw [BitVec.getMsbD_append, if_pos (by omega), Nat.add_sub_cancel_left]

/-! ## A block as it is sent -/

/-- The data bits, then the check word with the offset word of the block's position added. -/
def sentBlock (blk : BitVec 16) (off : BitVec 10) : BitVec 26 := blk ++ (crc blk ^^^ off)

theorem sentBlock_dataBit (blk : BitVec 16) (off : BitVec 10) {k : Nat} (h : k < 16) :
    (sentBlock blk off).getMsbD k = blk.getLsbD (15 - k) := by
  rw [sentBlock, getMsbD_append_left _ _ h, getMsbD_eq_getLsbD_sub _ h]

theorem sentBlock_checkBit (blk : BitVec 16) (off : BitVec 10) {k : Nat} (h : k < 10) :
    (sentBlock blk off).getMsbD (16 + k) = (crc blk ^^^ off).getLsbD (9 - k) := by
  rw [sentBlock, getMsbD_append_right, getMsbD_eq_getLsbD_sub _ h]

/-! ## A group as it is sent -/

theorem serialise_eq_blocks (g : Group) :
    serialise g = sentBlock g.a offsetA ++ sentBlock g.b offsetB ++ sentBlock g.c offsetC ++ sentBlock g.d offsetD :=
  rfl

/-- `blk[i]`. -/
def groupBlock (g : Group) (i : Fin 4) : BitVec 16 := [g.a, g.b, g.c, g.d].getD i.val 0#16

/-- `OFFSET[i]` (R208). -/
def offsetWord (i : Fin 4) : BitVec 10 := [0x0FC#10, 0x198#10, 0x168#10, 0x1B4#10].getD i.val 0#10

theorem serialise_getMsbD_block (g : Group) (i : Fin 4) {j : Nat} (h : j < 26) :
    (serialise g).getMsbD (26 * i.val + j) = (sentBlock (groupBlock g i) (offsetWord i)).getMsbD j := by
  rw [serialise_eq_blocks]
  match i with
  | 0 =>
    have hj : 26 * (0 : Fin 4).val + j = j := Nat.zero_add j
    rw [hj, getMsbD_append_left _ _ (by omega), getMsbD_append_left _ _ (by omega), getMsbD_append_left _ _ h]
    rfl
  | 1 =>
    have hj : 26 * (1 : Fin 4).val + j = 26 + j := rfl
    rw [hj, getMsbD_append_left _ _ (by omega), getMsbD_append_left _ _ (by omega), getMsbD_append_right]
    rfl
  | 2 =>
    have hj : 26 * (2 : Fin 4).val + j = 26 + 26 + j := rfl
    rw [hj, getMsbD_append_left _ _ (by omega), getMsbD_append_right]
    rfl
  | 3 => exact getMsbD_append_right _ _

/-- Settles O31: the block the bit falls in, then the data or the check bit of that block. -/
theorem serialisedBitsInOrder : Obligations.SerialisedBitsInOrder := by
  intro g i k
  refine ⟨fun hk => ?data, fun hk => ?check⟩
  case data => exact (serialise_getMsbD_block g i (by omega)).trans (sentBlock_dataBit _ _ hk)
  case check =>
    rw [Nat.add_assoc]
    exact (serialise_getMsbD_block g i (by omega)).trans (sentBlock_checkBit _ _ hk)

end Sys2Proof.Machine

/-! SUPPORT. Group selection (spec 41_rds.md R200). -/

namespace Sys2Proof.Machine

/-! ## One equation per branch -/

section

variable {slot : Nat} {st : Station} {f : Feed}

theorem generateGroup_of_new_minute (h : st.rds.lastMin ≠ some (clockRead slot f).1.minute.val) :
    generateGroup slot st f =
      (group4A st (clockRead slot f).1, { st.rds with lastMin := some (clockRead slot f).1.minute.val },
        (clockRead slot f).2) := if_pos h

theorem generateGroup_of_cursor_lt (h : st.rds.lastMin = some (clockRead slot f).1.minute.val)
    (hcur : st.rds.grpCur < 4) :
    generateGroup slot st f =
      (group0A st st.rds.psIdx,
        { st.rds with psIdx := (st.rds.psIdx + 1) % 4, grpCur := st.rds.grpCur + 1 }, (clockRead slot f).2) :=
  (if_neg (not_not_intro h)).trans (if_pos hcur)

theorem generateGroup_of_cursor_ge (h : st.rds.lastMin = some (clockRead slot f).1.minute.val)
    (hcur : ¬st.rds.grpCur < 4) :
    generateGroup slot st f =
      (group2A st st.rds.rtIdx, { st.rds with rtIdx := (st.rds.rtIdx + 1) % 16, grpCur := 0 }, (clockRead slot f).2) :=
  (if_neg (not_not_intro h)).trans (if_neg hcur)

end

/-! ## The selection -/

/-- A group costs one clock reading, whichever group it is. -/
theorem generateGroup_feed (slot : Nat) (st : Station) (f : Feed) :
    (generateGroup slot st f).2.2 = (clockRead slot f).2 := by
  by_cases h : st.rds.lastMin = some (clockRead slot f).1.minute.val
  · by_cases hcur : st.rds.grpCur < 4
    · rw [generateGroup_of_cursor_lt h hcur]
    · rw [generateGroup_of_cursor_ge h hcur]
  · rw [generateGroup_of_new_minute h]

/-- Settles O32: one equation per branch of R200; the reading is the same in all of them. -/
theorem groupSelection : Obligations.GroupSelection := by
  intro slot st f
  refine ⟨generateGroup_feed slot st f, fun h => ?clock, fun h hcur => ?ps, fun h hcur => ?rt⟩
  case clock => rw [generateGroup_of_new_minute h]; exact ⟨rfl, rfl⟩
  case ps => rw [generateGroup_of_cursor_lt h hcur]; exact ⟨rfl, rfl⟩
  case rt => rw [generateGroup_of_cursor_ge h hcur.not_lt]; exact ⟨rfl, rfl⟩

end Sys2Proof.Machine

/-! SUPPORT. The block words of the groups and the Modified Julian Day (spec 41_rds.md R201 to R206). -/

namespace Sys2Proof.Machine

/-! ## Words as fields (R202 to R205) -/

/-- Two fields side by side, as one number. -/
theorem ofNat_append_ofNat {n m : Nat} (a : Nat) {b : Nat} (hb : b < 2 ^ m) :
    BitVec.ofNat n a ++ BitVec.ofNat m b = BitVec.ofNat (n + m) (2 ^ m * a + b) := by
  apply BitVec.eq_of_toNat_eq
  have hlow : (2 ^ m * a + b) % 2 ^ m = b := by rw [Nat.mul_add_mod, Nat.mod_eq_of_lt hb]
  have hhigh : (2 ^ m * a + b) / 2 ^ m = a := by
    rw [Nat.mul_add_div (Nat.two_pow_pos m), Nat.div_eq_of_lt hb, Nat.add_zero]
  rw [BitVec.toNat_append, BitVec.toNat_ofNat, BitVec.toNat_ofNat, BitVec.toNat_ofNat, Nat.mod_eq_of_lt hb,
    ← Nat.shiftLeft_add_eq_or_of_lt hb, Nat.shiftLeft_eq, Nat.add_comm n m, Nat.pow_add, Nat.mod_mul, hlow, hhigh,
    Nat.add_comm, Nat.mul_comm]

/-- A low field under a word with zeros in its place. -/
theorem append_ofNat_eq_or {n m : Nat} (x : BitVec n) {k : Nat} (hk : k < 2 ^ m) :
    x ++ BitVec.ofNat m k = (x ++ 0#m) ||| BitVec.ofNat (n + m) k := by
  have hlow : BitVec.ofNat (n + m) k = 0#n ++ BitVec.ofNat m k := by
    rw [ofNat_append_ofNat 0 hk, Nat.mul_zero, Nat.zero_add]
  rw [hlow, BitVec.or_append, BitVec.or_zero, BitVec.zero_or]

/-- Bits `start` to `start + len - 1` of a number, by division and remainder. -/
theorem extractLsb'_ofNat {w start len : Nat} (n : Nat) (h : start + len ≤ w) :
    (BitVec.ofNat w n).extractLsb' start len = BitVec.ofNat len (n / 2 ^ start % 2 ^ len) := by
  ext i hi
  have hin : start + i < w := by omega
  simp [← BitVec.getLsbD_eq_getElem, BitVec.getLsbD_ofNat, hin, hi, Nat.testBit_div_two_pow, Nat.add_comm]

/-! ## MJD (R206) -/

/-- The integer quotient is the floor of the exact rational product. -/
theorem fdiv_eq_floor_mul (n : Int) (a b : Nat) : (n * a).fdiv b = ⌊(n : ℚ) * (a / b)⌋ := by
  rw [Int.fdiv_eq_ediv_of_nonneg _ (Int.natCast_nonneg b), ← Rat.floor_intCast_div_natCast, ← mul_div_assoc,
    Int.cast_mul, Int.cast_natCast]

/-- `L` of R206: 1 in January and February. -/
def mjdL (mo : Nat) : Int := if mo ≤ 2 then 1 else 0

theorem mjd_eq_fdiv (y mo d : Nat) :
    mjd y mo d = 14956 + (d : Int) + (((y : Int) - 1900 - mjdL mo) * (1461 : Nat)).fdiv (4 : Nat) +
      (((mo : Int) + 1 + 12 * mjdL mo) * (306001 : Nat)).fdiv (10000 : Nat) := rfl

theorem mjdL_cast (mo : Nat) : (mjdL mo : ℚ) = if mo ≤ 2 then 1 else 0 := by
  rw [mjdL]; split <;> norm_num

theorem mjd_eq_floors (y mo d : Nat) :
    let l : ℚ := if mo ≤ 2 then 1 else 0
    mjd y mo d = 14956 + (d : Int) + ⌊((y : ℚ) - 1900 - l) * (36525 / 100)⌋ +
      ⌊((mo : ℚ) + 1 + 12 * l) * (306001 / 10000)⌋ := by
  intro l
  have hyear : (1461 : ℚ) / 4 = 36525 / 100 := by norm_num
  rw [mjd_eq_fdiv, fdiv_eq_floor_mul, fdiv_eq_floor_mul]
  push_cast [mjdL_cast, hyear]
  rfl

/-- A clock's date is never before MJD 0: its year is 1900 or later (R400). -/
theorem mjd_nonneg {y : Nat} (mo d : Nat) (hy : 1900 ≤ y) : 0 ≤ mjd y mo d := by
  have hl : mjdL mo ≤ 1 ∧ 0 ≤ mjdL mo := by
    rw [mjdL]; split <;> decide
  rw [mjd_eq_fdiv, Int.fdiv_eq_ediv_of_nonneg _ (Int.natCast_nonneg _),
    Int.fdiv_eq_ediv_of_nonneg _ (Int.natCast_nonneg _)]
  omega

/-! ## Block B -/

theorem group0A_b (st : Station) {g : Nat} (h : g < 4) : (group0A st g).b = 0x0400#16 ||| BitVec.ofNat 16 g := by
  rw [group0A, append_ofNat_eq_or _ h, flagDI, BitVec.extractLsb'_zero]
  rfl

theorem group2A_b (st : Station) {g : Nat} (h : g < 16) : (group2A st g).b = 0x2400#16 ||| BitVec.ofNat 16 g := by
  rw [group2A, append_ofNat_eq_or _ h]
  rfl

/-! ## The clock-time group -/

/-- The day number of a clock reading (R206). -/
def clockMjd (t : ClockReading) : Nat := (mjd (clockYear t) (clockMonth t) (clockDay t)).toNat

theorem ofInt_mjd (t : ClockReading) :
    BitVec.ofInt 17 (mjd (clockYear t) (clockMonth t) (clockDay t)) = BitVec.ofNat 17 (clockMjd t) := by
  have h := mjd_nonneg (clockMonth t) (clockDay t) (Nat.le_add_right 1900 t.yearsFrom1900)
  rw [clockMjd, ← BitVec.ofInt_natCast, Int.toNat_of_nonneg]
  exact h

theorem clockOffset_natAbs_lt (t : ClockReading) : (clockOffset t).natAbs < 2 ^ 5 := by
  have := t.offsetMag.isLt
  rw [clockOffset]
  split <;> omega

theorem group4A_b (st : Station) (t : ClockReading) :
    (group4A st t).b = 0x4400#16 ||| BitVec.ofNat 16 (clockMjd t / 2 ^ 15 % 4) := by
  rw [group4A]
  dsimp only
  rw [ofInt_mjd, extractLsb'_ofNat _ (by decide), append_ofNat_eq_or _ (Nat.mod_lt _ (by decide))]
  rfl

theorem group4A_c (st : Station) (t : ClockReading) :
    (group4A st t).c = BitVec.ofNat 16 (clockMjd t % 2 ^ 15 * 2 + t.hour.val / 16) := by
  have hhour : t.hour.val / 2 ^ 4 % 2 ^ 1 = t.hour.val / 16 := by omega
  rw [group4A]
  dsimp only
  rw [ofInt_mjd, extractLsb'_ofNat _ (by decide), extractLsb'_ofNat _ (by decide),
    ofNat_append_ofNat _ (Nat.mod_lt _ (by decide)), hhour, Nat.pow_zero, Nat.div_one, Nat.mul_comm, Nat.pow_one]

/-- The sign bit of the local offset, as a number. -/
theorem ofBool_eq_ofNat (p : Prop) [Decidable p] : BitVec.ofBool (decide p) = BitVec.ofNat 1 (if p then 1 else 0) := by
  by_cases h : p <;> simp [h]

theorem group4A_d (st : Station) (t : ClockReading) :
    (group4A st t).d = BitVec.ofNat 16 (t.hour.val % 16 * 2 ^ 12 + t.minute.val * 2 ^ 6 +
      (if clockOffset t < 0 then 32 else 0) + (clockOffset t).natAbs) := by
  have hminute : t.minute.val < 2 ^ 6 := by omega
  have hsign : (if clockOffset t < 0 then 1 else 0) < 2 ^ 1 := by split <;> decide
  rw [group4A]
  dsimp only
  rw [extractLsb'_ofNat _ (by decide), ofNat_append_ofNat _ hminute, ofBool_eq_ofNat, ofNat_append_ofNat _ hsign,
    ofNat_append_ofNat _ (clockOffset_natAbs_lt t)]
  congr 1
  split <;> omega

/-! ## The three layouts -/

theorem group0A_eq (st : Station) {g : Nat} (h : g < 4) :
    group0A st g =
      { a := st.pi, b := 0x0400#16 ||| BitVec.ofNat 16 g, c := 0xCDCD#16,
        d := st.psN.getD (2 * g) 0 ++ st.psN.getD (2 * g + 1) 0 } := by
  rw [← group0A_b st h]; rfl

theorem group2A_eq (st : Station) {g : Nat} (h : g < 16) :
    group2A st g =
      { a := st.pi, b := 0x2400#16 ||| BitVec.ofNat 16 g,
        c := st.rtN.getD (4 * g) 0 ++ st.rtN.getD (4 * g + 1) 0,
        d := st.rtN.getD (4 * g + 2) 0 ++ st.rtN.getD (4 * g + 3) 0 } := by
  rw [← group2A_b st h]; rfl

theorem group4A_eq (st : Station) (t : ClockReading) :
    group4A st t =
      { a := st.pi
        b := 0x4400#16 ||| BitVec.ofNat 16 (clockMjd t / 2 ^ 15 % 4)
        c := BitVec.ofNat 16 (clockMjd t % 2 ^ 15 * 2 + t.hour.val / 16)
        d := BitVec.ofNat 16 (t.hour.val % 16 * 2 ^ 12 + t.minute.val * 2 ^ 6 +
          (if clockOffset t < 0 then 32 else 0) + (clockOffset t).natAbs) } := by
  rw [← group4A_b st t, ← group4A_c st t, ← group4A_d st t]; rfl

/-- Settles O33: the floors of R206, then the layout of each group. -/
theorem groupLayouts : Obligations.GroupLayouts :=
  ⟨mjd_eq_floors, by decide, fun st t _ => ⟨group0A_eq st, group2A_eq st, group4A_eq st t⟩⟩

end Sys2Proof.Machine

/-! SUPPORT. The polyphase bank and the tuner (spec 43_polyphase_tuner.md R280 to R299). -/

namespace Sys2Proof.Machine

/-! ## One branch of the bank (R280, R281) -/

/-- `COEF[b][k] = PROTO[10·k + b]`, where the prototype has that tap (R280). -/
def branchTap (par : Params) (b : Fin 10) (k : Nat) : F64 := par.proto.getD (10 * k + b.val) F64.zero

/-- The branch's input `k` samples before input `n`: of the block, or of the history `h` it starts with (R281). -/
def inputBack (h : Cplx × Cplx) (fm : List Cplx) (n k : Nat) : Cplx :=
  if k ≤ n then fm.getD (n - k) Cplx.zero else if k = n + 1 then h.1 else h.2

/-- The histories after a sample hold it and the one before it, so the rest of the block sees the same inputs. -/
theorem inputBack_map_firStepHist (hist : Vector (Cplx × Cplx) 10) (b : Fin 10) (x : Cplx) (xs : List Cplx) {n k : Nat}
    (hk : k ≤ n + 2) :
    inputBack (hist.map fun h => firStepHist h x)[b] xs n k = inputBack hist[b] (x :: xs) (n + 1) k := by
  rcases Nat.lt_trichotomy k (n + 1) with hin | rfl | hbefore
  · have hpos : n + 1 - k = (n - k) + 1 := by omega
    rw [inputBack, if_pos (Nat.le_of_lt_succ hin), inputBack, if_pos hin.le, hpos, List.getD_cons_succ]
  · simp [inputBack, firStepHist]
  · obtain rfl : k = n + 2 := by omega
    simp [inputBack, firStepHist]

theorem branchTap_eq_getElem (par : Params) (b : Fin 10) {k : Nat} (h : 10 * k + b.val < 30) :
    branchTap par b k = par.proto[10 * k + b.val] := by
  simp [branchTap, Vector.getD, h]

theorem branchCoef_eq_taps (par : Params) (b : Fin 10) :
    branchCoef par b = [branchTap par b 0, branchTap par b 1, branchTap par b 2] := by
  rw [branchTap_eq_getElem par b (k := 0) (by omega), branchTap_eq_getElem par b (k := 1) (by omega),
    branchTap_eq_getElem par b (k := 2) (by omega)]
  simp [branchCoef]

theorem firStepOut_eq (par : Params) (b : Fin 10) (h : Cplx × Cplx) (x : Cplx) :
    firStepOut par b h x =
      ⟨((F64.zero.add ((branchTap par b 0).mul x.re)).add ((branchTap par b 1).mul h.1.re)).add
          ((branchTap par b 2).mul h.2.re),
        ((F64.zero.add ((branchTap par b 0).mul x.im)).add ((branchTap par b 1).mul h.1.im)).add
          ((branchTap par b 2).mul h.2.im)⟩ := by
  rw [firStepOut, branchCoef_eq_taps]
  rfl

/-! ## The bank over a block (R282) -/

theorem bank_output (par : Params) (b : Fin 10) (hist : Vector (Cplx × Cplx) 10) {fm : List Cplx} {n : Nat}
    (hn : n < fm.length) :
    (bank par hist fm).1[10 * n + b.val]? =
      some (firStepOut par b (inputBack hist[b] fm n 1, inputBack hist[b] fm n 2) (inputBack hist[b] fm n 0)) := by
  induction fm generalizing hist n with
  | nil => cases hn
  | cons x xs ih =>
    rw [bank]
    cases n with
    | zero =>
      have hbranch : ((List.finRange 10).map fun b => firStepOut par b hist[b] x)[b.val]? =
          some (firStepOut par b hist[b] x) := by simp
      rw [Nat.mul_zero, Nat.zero_add, List.getElem?_append_left (by simp), hbranch]
      rfl
    | succ m =>
      have hpos : 10 * (m + 1) + b.val - 10 = 10 * m + b.val := by omega
      have hrest := ih (hist.map fun h => firStepHist h x) (Nat.lt_of_succ_lt_succ hn)
      simp (disch := omega) only [inputBack_map_firStepHist] at hrest
      rw [List.getElem?_append_right (by simp; omega), List.length_map, List.length_finRange, hpos, hrest]

theorem bank_history (par : Params) (b : Fin 10) (hist : Vector (Cplx × Cplx) 10) {fm : List Cplx}
    (hfm : 0 < fm.length) :
    (bank par hist fm).2[b] = (inputBack hist[b] fm (fm.length - 1) 0, inputBack hist[b] fm (fm.length - 1) 1) := by
  induction fm generalizing hist with
  | nil => cases hfm
  | cons x xs ih =>
    rw [bank]
    cases xs with
    | nil =>
      have hhist : (hist.map fun h => firStepHist h x)[b] = firStepHist hist[b] x := by simp
      exact hhist
    | cons y ys =>
      have hrest := ih (hist.map fun h => firStepHist h x) (Nat.succ_pos _)
      simp (disch := omega) only [inputBack_map_firStepHist] at hrest
      exact hrest

/-- Settles O38: the block's inputs seen from each output, then the sum of one branch. -/
theorem bankOutputsAreBranchSums : Obligations.BankOutputsAreBranchSums := by
  intro par hist fm b
  refine ⟨fun n hn => ?_, bank_history par b hist⟩
  rw [bank_output par b hist hn, firStepOut_eq]
  rfl

/-! ## The tuner (R297, R299) -/

/-- The phasor a sample meets is the seed advanced once for each sample before it. -/
theorem tunerMix_getElem? (inc : Cplx) {up : List Cplx} {m : Nat} {u : Cplx} (h : up[m]? = some u) (ph : Cplx) :
    (tunerMix inc ph up)[m]? = some (u.mul ((fun z : Cplx => z.mul inc)^[m] ph)) := by
  induction up generalizing m ph with
  | nil => cases h
  | cons v vs ih =>
    cases m with
    | zero => cases h; rfl
    | succ m => exact ih h (ph.mul inc)

/-- Settles O39: the samples by their phasors, the length, and the phase as TUNER_RUN recomputes it. -/
theorem tunerAdvancesThePhasor : Obligations.TunerAdvancesThePhasor :=
  fun _ _ _ inc up => ⟨fun _ _ h => tunerMix_getElem? inc h _, tunerMix_length inc _ up, rfl⟩

end Sys2Proof.Machine

/-! SUPPORT. The shared datapath of a tick: noise, rate filter and decimator (spec 44_backend.md R330 to R340). -/

namespace Sys2Proof.Machine

/-! ## The rate filter (R335) -/

/-- Each output sums over the samples so far, newest first: those of the block, then those before it. -/
theorem rateFilterFrom_getElem? (c : List F64) (past : List Cplx) {mix : List Cplx} {k : Nat} (hk : k < mix.length) :
    (rateFilterFrom c past mix)[k]? = some (firSum c ((mix.take (k + 1)).reverse ++ past)) := by
  induction mix generalizing past k with
  | nil => cases hk
  | cons z zs ih =>
    rw [rateFilterFrom]
    cases k with
    | zero => rfl
    | succ m => simp [ih (z :: past) (Nat.lt_of_succ_lt_succ hk)]

/-- Newest first, coefficient `j` meets sample `k - j`, and neither list is read past its end. -/
theorem zip_reverse_take (c : List F64) {mix : List Cplx} {k : Nat} (hk : k < mix.length) :
    c.zip (mix.take (k + 1)).reverse =
      (List.range (min (k + 1) c.length)).map fun j => (c.getD j F64.zero, mix.getD (k - j) Cplx.zero) := by
  have htaken : min (k + 1) mix.length = k + 1 := Nat.min_eq_left hk
  apply List.ext_getElem
  · simp [htaken, Nat.min_comm]
  · intro j hj _
    have hbounds : j < c.length ∧ j < k + 1 := by simpa [htaken] using hj
    obtain ⟨hc, hjk⟩ := hbounds
    have hpast : k - j < mix.length := by omega
    simp [htaken, hc, hpast]

/-- Settles O44: an output's sum over the samples so far, then the pairs of that sum by index. -/
theorem rateFilterIsCausalConvolution : Obligations.RateFilterIsCausalConvolution := by
  intro c mix
  refine ⟨rateFilter_length c mix, fun k hk => ?_⟩
  rw [rateFilter, rateFilterFrom_getElem? c [] hk, List.append_nil, firSum, zip_reverse_take c hk, List.foldl_map]

/-! ## The noise table (R330) -/

theorem noiseAdd_getElem? (n : Nat) (tab : List Cplx) {y : List Cplx} {i : Nat} {z : Cplx} (h : y[i]? = some z) :
    (noiseAdd n tab y)[i]? = some (z.add (tab.getD (i % n) Cplx.zero)) := by
  simp [noiseAdd, h]

/-! ## The decimator (R340) -/

/-- The kept indices stay within the block: the last one is at most `L - 1`. -/
theorem mul_lt_of_lt_decimatedLen {len n m : Nat} (hn : 1 ≤ n) (hm : m < decimatedLen len n) : m * n < len := by
  have hle : (m + 1) * n ≤ len + n - 1 := (Nat.le_div_iff_mul_le hn).mp hm
  rw [Nat.succ_mul] at hle
  omega

theorem decimate_getElem? {n m : Nat} {y : List Cplx} (hn : 1 ≤ n) (hm : m < decimatedLen y.length n) :
    (decimate n y)[m]? = y[m * n]? := by
  have hin : m * n < y.length := mul_lt_of_lt_decimatedLen hn hm
  simp [decimate, hm, hin]

theorem decimate_one (y : List Cplx) : decimate 1 y = y := by
  have hlen : decimatedLen y.length 1 = y.length := Nat.div_one _
  apply List.ext_getElem (by rw [decimate_length, hlen])
  intro m _ hm
  simp [decimate, hm]

/-- Settles O46: the noise table by index, then the length, the kept samples and the case of no decimation. -/
theorem decimatorKeepsEveryNth : Obligations.DecimatorKeepsEveryNth := by
  intro n y tab hn
  refine ⟨noiseAdd_length n tab y, fun i z h => noiseAdd_getElem? n tab h, decimate_length n y,
    fun m hm => ⟨mul_lt_of_lt_decimatedLen hn hm, decimate_getElem? hn hm⟩, ?_⟩
  rintro rfl
  exact decimate_one y

end Sys2Proof.Machine

/-! SUPPORT. What an error leaves as it was (spec 60_exceptions.md R370 to R373). -/

namespace Sys2Proof.Machine

/-- The error codes of a command, by their numbers (R370, R371). -/
theorem isError_iff_byte_mem (c : ResultCode) :
    c.isError = true ↔ c.byte ∈ [0x01#8, 0x02#8, 0x03#8, 0x06#8] := by
  cases c <;> decide

/-- A completion shows an error code in CMD_STATUS exactly when it was given one. -/
theorem complete_code_mem_iff (o : BitVec 8) (c : ResultCode) (s : State) :
    (complete o c s).cmdStatus.extractLsb' 0 8 ∈ [0x01#8, 0x02#8, 0x03#8, 0x06#8] ↔ c.isError = true := by
  rw [complete_code, isError_iff_byte_mem]

/-- Settles O6: of the ways a command can end, only a raised error shows an error code, and raising it is R373's effect. -/
theorem errorLeavesStateUnchanged : Obligations.ErrorLeavesStateUnchanged := by
  intro i s t hexec hcode
  rcases exec_cases i s with ⟨c, -, hraise⟩ | ⟨-, hnoop⟩ | ⟨s', hok⟩
  · obtain rfl : raise i c s = t := Host.Outcome.next.inj (hraise.symm.trans hexec)
    have herror : c.isError = true := (complete_code_mem_iff _ c s).mp hcode
    have hstatus : (raise i c s).cmdStatus.extractLsb' 0 8 = c.byte := complete_code _ c s
    rw [hstatus]
    exact raise_error i c s herror
  · obtain rfl : lifecycleNoop i s = t := Host.Outcome.next.inj (hnoop.symm.trans hexec)
    exact absurd ((complete_code_mem_iff _ .warnNoop _).mp hcode) (by decide)
  · obtain rfl : complete i.opcode .ok s' = t := Host.Outcome.next.inj (hok.symm.trans hexec)
    exact absurd ((complete_code_mem_iff _ .ok s').mp hcode) (by decide)

end Sys2Proof.Machine

/-! SUPPORT. Which words are commands (spec 30_encoding.md R121 to R126): the decoder accepts exactly the encodings. -/

namespace Sys2Proof

/-! ## What the two formats accept -/

theorem decodeC_eq_ok {w : Word32} {i j : Instr} (h : decodeC w i = .ok j) : w.extractLsb' 8 24 = 0#24 ∧ j = i := by
  rw [decodeC] at h
  split at h
  · next hzero => exact ⟨hzero, (Except.ok.inj h).symm⟩
  · cases h

theorem decodeCE_eq_ok {w : Word32} {i : Bool → Instr} {j : Instr} (h : decodeCE w i = .ok j) :
    w.extractLsb' 9 23 = 0#23 ∧ j = i (w.getLsbD 8) := by
  rw [decodeCE] at h
  split at h
  · next hzero => exact ⟨hzero, (Except.ok.inj h).symm⟩
  · cases h

/-- Bits 31..8 are bits 31..9 over bit 8. -/
theorem extractLsb'_high_split (w : Word32) :
    w.extractLsb' 8 24 = w.extractLsb' 9 23 ++ BitVec.ofBool (w.getLsbD 8) := by
  ext k hk
  rw [BitVec.getElem_append]
  cases k with
  | zero => simp
  | succ k => simp; congr 1; omega

/-! ## Encodings are the only words that decode -/

/-- A word is a command's encoding when its two fields are the command's. -/
theorem eq_encode_of_fields {w : Word32} {i : Instr} (hop : opcodeField w = i.opcode)
    (hhigh : w.extractLsb' 8 24 = i.high) : w = encode i := by
  rw [encode, ← hop, ← hhigh, high_append_opcodeField]

theorem eq_encode_of_decodeC {w : Word32} {i j : Instr} (h : decodeC w i = .ok j)
    (hop : (opcodeField w).toNat = i.opcode.toNat) (hhigh : i.high = 0#24) : w = encode j := by
  obtain ⟨hzero, rfl⟩ := decodeC_eq_ok h
  exact eq_encode_of_fields (BitVec.eq_of_toNat_eq hop) (hzero.trans hhigh.symm)

theorem eq_encode_of_decodeCE {w : Word32} {j : Instr} (h : decodeCE w .setNoiseEnable = .ok j)
    (hop : (opcodeField w).toNat = 0x13) : w = encode j := by
  obtain ⟨hzero, rfl⟩ := decodeCE_eq_ok h
  refine eq_encode_of_fields (BitVec.eq_of_toNat_eq hop) ?_
  rw [extractLsb'_high_split, hzero, Instr.high]

/-- The opcode selects one row of the map; that row's format then fixes the rest of the word (R124, R125). -/
theorem eq_encode_of_decode {w : Word32} {i : Instr} (h : decode w = .ok i) : w = encode i := by
  unfold decode at h
  split at h
  case h_10 hop => exact eq_encode_of_decodeCE h hop
  case h_12 => cases h
  all_goals
    next hop => exact eq_encode_of_decodeC h hop rfl

/-- Settles O1: an accepted word has the fields of its command; the converse is `decode_encode`. -/
theorem decodeAgreesWithEncode : Obligations.DecodeAgreesWithEncode :=
  fun _ i => ⟨eq_encode_of_decode, fun h => h ▸ decode_encode i⟩

/-! ## The illegal words (R126) -/

/-- The twelve command words, as numbers (R125). -/
def commandWords : List Nat := [0x00, 0x01, 0x02, 0x03, 0x04, 0x05, 0x10, 0x11, 0x12, 0x13, 0x113, 0x14]

theorem encode_mem_commandWords (i : Instr) : (encode i).toNat ∈ commandWords := by
  cases i with
  | setNoiseEnable en => cases en <;> decide
  | _ => decide

theorem exists_encode_of_mem {n : Nat} (h : n ∈ commandWords) : ∃ i, (encode i).toNat = n := by
  have hall : commandWords = [Instr.nop, .init, .start, .stop, .tick, .reset, .setCenterFreq, .setGain, .setSampleRate,
      .setNoiseEnable false, .setNoiseEnable true, .setNoiseSigma].map fun i => (encode i).toNat := by decide
  rw [hall] at h
  obtain ⟨i, -, hi⟩ := List.mem_map.mp h
  exact ⟨i, hi⟩

theorem exists_decode_ok_iff (w : Word32) : (∃ i, decode w = .ok i) ↔ w.toNat ∈ commandWords := by
  constructor
  · rintro ⟨i, hi⟩
    rw [eq_encode_of_decode hi]
    exact encode_mem_commandWords i
  · intro h
    obtain ⟨i, hi⟩ := exists_encode_of_mem h
    exact ⟨i, BitVec.eq_of_toNat_eq hi ▸ decode_encode i⟩

theorem exists_decode_error_iff (w : Word32) : (∃ e, decode w = .error e) ↔ w.toNat ∉ commandWords := by
  rw [← exists_decode_ok_iff]
  cases decode w <;> simp

/-- The words outside the map, by their opcode and their reserved bits. -/
theorem not_mem_commandWords_iff (n : Nat) :
    n ∉ commandWords ↔
      (0x06 ≤ n % 256 ∧ n % 256 ≤ 0x0F) ∨ 0x15 ≤ n % 256 ∨ (n % 256 ≠ 0x13 ∧ 256 ≤ n) ∨ (n % 256 = 0x13 ∧ 512 ≤ n) := by
  simp only [commandWords, List.mem_cons, List.not_mem_nil, or_false]
  omega

end Sys2Proof

/-! SUPPORT. What every command and every step keeps, packaged once: a property that each named operation carries from the
state before to the state after is carried by `exec`, and by `step`. -/

namespace Sys2Proof.Machine

/-! ## One equation per kind of event (R395) -/

section

variable {s : State} {rest : List Event}

theorem step_of_empty (h : s.env.inbox = []) : step s = .next s := by
  rw [step, h]

theorem step_of_fire {lag : Bool} (h : s.env.inbox = .fire lag :: rest) :
    step s = .next (fireTimer lag (takeEvent rest s)) := by
  rw [step, h]

theorem step_of_advance (h : s.env.inbox = .advance :: rest) : step s = .next (advance (takeEvent rest s)) := by
  rw [step, h]

variable {op : BusOp}

theorem step_of_answer {r : BusResp} (h : s.env.inbox = .bus op :: rest)
    (he : busEffect op (takeEvent rest s) = .answer r) : step s = .next (respond r (takeEvent rest s)) := by
  rw [step, h]; dsimp only; rw [he]

theorem step_of_store {s' : State} (h : s.env.inbox = .bus op :: rest)
    (he : busEffect op (takeEvent rest s) = .store s') : step s = .next (respond writeAccepted s') := by
  rw [step, h]; dsimp only; rw [he]

theorem step_of_command {w : Word32} (h : s.env.inbox = .bus op :: rest)
    (he : busEffect op (takeEvent rest s) = .command w) :
    step s = issueCommand w (respond writeAccepted (takeEvent rest s)) := by
  rw [step, h]; dsimp only; rw [he]

end

theorem issueCommand_of_ok {w : Word32} {i : Instr} (h : decode w = .ok i) (s : State) :
    issueCommand w s = exec i s := by
  rw [issueCommand, h]

theorem issueCommand_of_error {w : Word32} {e : DecodeError} (h : decode w = .error e) (s : State) :
    issueCommand w s = .next (illegalCommand w s) := by
  rw [issueCommand, h]

/-! ## Commands -/

/-- `P` before a command gives `Q` after it, effect by effect; completing a command keeps `Q`. -/
structure ExecCarries (P Q : State → Prop) : Prop where
  complete : ∀ op c t, Q t → Q (complete op c t)
  stay : ∀ s, P s → Q s
  noop : ∀ s, P s → Q (setWarn warnLifecycle s)
  init : ∀ s, P s → s.life = .uninit → Q (initBody s)
  start : ∀ s, P s → s.life = .idle → Q { armTimer s with life := .running }
  stop : ∀ s, P s → s.life = .running → Q { stopTimer s with life := .idle }
  tick : ∀ s, P s → s.life = .idle → Q (tickBody s)
  reset : ∀ s, P s → Q (resetAll (if s.life = .running then stopTimer s else s))
  retune : ∀ s f, P s → Q (retuneAll f s)
  gain : ∀ s g, P s → Q (replaceGain g s)
  rate : ∀ s r, P s → Q (replaceRate (nearestRate s.par r) s)
  noiseEn : ∀ s en, P s → Q (replaceNoiseEn en s)
  noiseSigma : ∀ s x, P s → Q (regenerateNoise x s)

section

variable {P Q : State → Prop}

/-- A setter's answer: its effect where its check holds, its error elsewhere. -/
theorem ExecCarries.checked (h : ExecCarries P Q) {s t u : State} {i : Instr} {op : BitVec 8} {e : ResultCode}
    {check : Bool} (hs : P s) (hu : Q u)
    (ht : Host.Outcome.next (if check then Machine.complete op .ok u else raise i e s) =
      (.next t : Host.Outcome State Fault Refusal)) : Q t := by
  cases ht
  cases check
  · exact h.complete _ _ _ (h.stay s hs)
  · exact h.complete _ _ _ hu

theorem exec_carries (h : ExecCarries P Q) {i : Instr} {s t : State} (hs : P s) (ht : exec i s = .next t) : Q t := by
  cases i with
  | nop => cases ht; exact h.complete _ _ _ (h.stay s hs)
  | init =>
    by_cases hl : s.life = .uninit
    · rw [exec_init_of_uninit hl] at ht; cases ht; exact h.complete _ _ _ (h.init s hs hl)
    · rw [exec_init_of_ne_uninit hl] at ht; cases ht; exact h.complete _ _ _ (h.stay s hs)
  | start =>
    by_cases hl : s.life = .idle
    · rw [exec_start_of_idle hl] at ht; cases ht; exact h.complete _ _ _ (h.start s hs hl)
    · rw [exec_start_of_ne_idle hl] at ht; cases ht; exact h.complete _ _ _ (h.noop s hs)
  | stop =>
    by_cases hl : s.life = .running
    · rw [exec_stop_of_running hl] at ht; cases ht; exact h.complete _ _ _ (h.stop s hs hl)
    · rw [exec_stop_of_ne_running hl] at ht; cases ht; exact h.complete _ _ _ (h.noop s hs)
  | tick =>
    by_cases hl : s.life = .idle
    · rw [exec_tick_of_idle hl] at ht; cases ht; exact h.complete _ _ _ (h.tick s hs hl)
    · rw [exec_tick_of_ne_idle hl] at ht; cases ht; exact h.complete _ _ _ (h.noop s hs)
  | reset => cases ht; exact h.complete _ _ _ (h.reset s hs)
  | setCenterFreq => exact h.checked hs (h.retune s _ hs) (exec_setCenterFreq s ▸ ht)
  | setGain => exact h.checked hs (h.gain s _ hs) (exec_setGain s ▸ ht)
  | setSampleRate => exact h.checked hs (h.rate s _ hs) (exec_setSampleRate s ▸ ht)
  | setNoiseEnable en => cases ht; exact h.complete _ _ _ (h.noiseEn s en hs)
  | setNoiseSigma =>
    refine h.checked hs ?_ (exec_setNoiseSigma s ▸ ht)
    split
    · exact h.stay s hs
    · exact h.noiseSigma s _ hs

/-! ## Steps -/

/-- `P` before a step gives `Q` after it; neither looks at the world around the block. -/
structure StepCarries (P Q : State → Prop) : Prop extends ExecCarries P Q where
  before : ∀ s e, P s → P { s with env := e }
  after : ∀ t e, Q t → Q { t with env := e }
  global : ∀ s off v, P s → Q (writeGlobal off v s)
  station : ∀ s i off v, P s → Q (writeStation i off v s)
  fire : ∀ s lag, P s → s.life = .running → s.tick = .idle → Q (beginTick (rearmTimer (setWarnIf lag warnLag s)))
  unit : ∀ s todo i, P s → s.tick = .stations todo → i ∈ todo →
    Q { runSlot s i with tick := .stations (todo.erase i) }
  back : ∀ s, P s → (∀ todo, s.tick = .stations todo → todo = []) → Q (backStage s)

/-- The unit that a free choice picks is one of those still to run. -/
theorem pick_mem (t : Nat) (ts : List Nat) (n : Nat) : (t :: ts).getD (n % (ts.length + 1)) t ∈ t :: ts := by
  have hlt : n % (ts.length + 1) < (t :: ts).length := Nat.mod_lt _ (Nat.succ_pos _)
  rw [List.getD_eq_getElem _ _ hlt]
  exact List.getElem_mem hlt

theorem fireTimer_carries (h : StepCarries P Q) (lag : Bool) {s : State} (hs : P s) : Q (fireTimer lag s) := by
  rw [fireTimer]
  split
  · next hrun => exact h.fire s lag hs hrun.1 hrun.2
  · exact h.stay s hs

theorem advance_carries (h : StepCarries P Q) {s : State} (hs : P s) : Q (advance s) := by
  rw [advance]
  split
  · next t ts ht => exact h.unit _ (t :: ts) _ (h.before s _ hs) ht (pick_mem t ts _)
  · next hne =>
    refine h.back s hs fun todo ht => ?_
    cases todo with
    | nil => rfl
    | cons t ts => exact absurd ht (hne t ts)

theorem step_carries (h : StepCarries P Q) {s t : State} (hs : P s) (ht : step s = .next t) : Q t := by
  have taken : ∀ rest, P (takeEvent rest s) := fun rest => h.before s _ hs
  rcases step_cases ht with ⟨_, rfl⟩ | ⟨lag, rest, _, rfl⟩ | ⟨rest, _, rfl⟩ | ⟨op, rest, r, _, _, rfl⟩ |
    ⟨op, rest, s', _, hst, rfl⟩ | ⟨op, rest, w, i, _, _, _, he⟩ | ⟨op, rest, w, e, _, _, _, rfl⟩
  · exact h.stay _ hs
  · exact fireTimer_carries h lag (taken rest)
  · exact advance_carries h (taken rest)
  · exact h.after _ _ (h.stay _ (taken rest))
  · rcases busEffect_store_cases hst with ⟨off, v, rfl⟩ | ⟨i, off, v, rfl⟩
    · exact h.after _ _ (h.global _ off v (taken rest))
    · exact h.after _ _ (h.station _ i off v (taken rest))
  · exact exec_carries h.toExecCarries (h.before _ _ (taken rest)) he
  · exact h.complete _ _ _ (h.after _ _ (h.stay _ (taken rest)))

end

/-! ## A tick run to its delivery -/

theorem finishTick_eq_iterate (s : State) : finishTick s = backStage^[6] (finishStations s) := rfl

/-- What every station unit and every engine stage keeps, and what does not look at the stage, a whole tick keeps. -/
theorem finishTick_keeps {P : State → Prop} (hrun : ∀ s i, P s → P (runSlot s i)) (hback : ∀ s, P s → P (backStage s))
    (hphase : ∀ s ph, P s → P { s with tick := ph }) {s : State} (hs : P s) : P (finishTick s) := by
  have hfold : ∀ (l : List Nat) (u : State), P u → P (l.foldl runSlot u) := by
    intro l
    induction l with
    | nil => exact fun _ hu => hu
    | cons i is ih => exact fun u hu => ih _ (hrun u i hu)
  have hstations : P (finishStations s) := by
    rw [finishStations]
    split
    · exact hphase _ _ (hfold _ s hs)
    · exact hs
  rw [finishTick_eq_iterate]
  exact Function.Iterate.rec P hstations hback 6

end Sys2Proof.Machine

/-! SUPPORT. The settings, the lifecycle and the reserved bits, kept by every step (spec 10_state.md R32 to R48). -/

namespace Sys2Proof.Machine

/-! ## Settings (R42, R43, R45) -/

/-- The settings alone decide it. -/
theorem SettingsConsistent.of_eq {s t : State} (hpar : t.par = s.par) (hrate : t.sampleRate = s.sampleRate)
    (hdecim : t.decim = s.decim) (hcoef : t.rateCoef = s.rateCoef) (htab : t.noiseTab = s.noiseTab)
    (h : SettingsConsistent s) : SettingsConsistent t := by
  rw [SettingsConsistent, hpar, hrate, hdecim, hcoef, htab]
  exact h

theorem SettingsConsistent.of_frame {s t : State} (hf : TickFrame s t) (h : SettingsConsistent s) :
    SettingsConsistent t :=
  h.of_eq hf.par hf.sampleRate hf.decim hf.rateCoef hf.noiseTab

/-- A valid rate divides MAX_RATE (R162). -/
theorem validRates_dvd {p : Params} {d : Nat} (h : d ∈ validRates p) : d ∣ maxRate :=
  mem_rateDivisors d (List.mem_filter.mp h).1

theorem drawNoiseTab_length (n : Nat) (e : Env) : (drawNoiseTab n e).1.length = n := by
  induction n generalizing e with
  | zero => rfl
  | succ n ih => rw [drawNoiseTab, List.length_cons, ih]

/-- A regenerated table has NOISE_LEN entries, zero or drawn (R164). -/
theorem regenerateNoise_noiseTab_length (x : F64) (s : State) :
    (regenerateNoise x s).noiseTab.length = s.par.noiseLen := by
  rw [regenerateNoise, replaceNoiseTab_noiseTab]
  split
  · exact List.length_replicate
  · exact drawNoiseTab_length _ _

theorem resetAll_settings {s : State} (h : s.par.wf = true) : SettingsConsistent (resetAll s) :=
  ⟨h, maxRate_valid h, Nat.one_mul _, rfl, List.length_replicate⟩

theorem replaceRate_settings {s : State} (h : SettingsConsistent s) (r : F64) :
    SettingsConsistent (replaceRate (nearestRate s.par r) s) := by
  obtain ⟨hwf, -, -, -, htab⟩ := h
  have hvalid := nearestRate_mem hwf r
  refine ⟨by simpa using hwf, by simpa using hvalid, ?_, by simp, by simpa using htab⟩
  rw [replaceRate_decim, replaceRate_sampleRate]
  exact Nat.div_mul_cancel (validRates_dvd hvalid)

theorem settings_carried : StepCarries SettingsConsistent SettingsConsistent where
  complete _ _ _ h := h.of_eq rfl rfl rfl rfl rfl
  stay _ h := h
  noop _ h := h.of_eq rfl rfl rfl rfl rfl
  init _ h _ := h.of_eq (by simp [initBody]) (by simp [initBody]) (by simp [initBody]) (by simp [initBody])
    (by simp [initBody])
  start _ h _ := h.of_eq rfl rfl rfl rfl rfl
  stop s h _ := (h.of_frame (finishTick_frame s)).of_eq rfl rfl rfl rfl rfl
  tick s h _ := h.of_frame ((beginTick_frame s).trans (finishTick_frame _))
  reset s h := by
    refine resetAll_settings ?_
    split
    · exact (h.of_frame (finishTick_frame s)).1
    · exact h.1
  retune _ _ h := h.of_eq rfl rfl rfl rfl rfl
  gain _ _ h := h.of_eq (by simp) (by simp) (by simp) (by simp) (by simp)
  rate _ r h := replaceRate_settings h r
  noiseEn _ _ h := h.of_eq (by simp) (by simp) (by simp) (by simp) (by simp)
  noiseSigma s x h := by
    obtain ⟨hwf, hrate, hdecim, hcoef, -⟩ := h
    refine ⟨?_, ?_, ?_, ?_, ?_⟩
    case refine_5 => rw [regenerateNoise_noiseTab_length]; simp [regenerateNoise]
    all_goals simpa [regenerateNoise]
  before _ _ h := h
  after _ _ h := h
  global s off v h := by
    rcases writeGlobal_cases off v s with ⟨x, hx⟩ | hx | hx | hx | hx <;> rw [hx] <;> exact h.of_eq rfl rfl rfl rfl rfl
  station s i off v h := by
    rcases writeStation_cases i off v s with ⟨sl, _, _, hx⟩ | hx <;> rw [hx] <;> exact h.of_eq rfl rfl rfl rfl rfl
  fire s lag h _ _ := (h.of_frame (setWarnIf_frame lag warnLag s)).of_eq rfl rfl rfl rfl rfl
  unit s _ i h _ _ := h.of_frame ((runSlot_frame s i).trans (withTick_frame _ _))
  back s h _ := h.of_frame (backStage_frame s)

/-- Settles O52: only SET_SAMPLE_RATE, SET_NOISE_SIGMA and RESET write a setting it speaks of. -/
theorem settingsStayConsistent : Obligations.SettingsStayConsistent :=
  fun _ _ hs ht => step_carries settings_carried hs ht

/-! ## Lifecycle (R32, R39, R46, R48) -/

/-- LIFE, BLOCK, the deadline, the tick's stage and the slots' STATE alone decide it. -/
theorem LifeConsistent.of_eq {s t : State} (hpar : t.par = s.par) (hlife : t.life = s.life) (hblock : t.block = s.block)
    (hdeadline : t.nextDeadline.isSome = s.nextDeadline.isSome) (htick : t.tick = s.tick)
    (hslots : t.slots.map (·.st.status) = s.slots.map (·.st.status)) (h : LifeConsistent s) : LifeConsistent t := by
  obtain ⟨huninit, hblockCfg, hrun, hbusy⟩ := h
  rw [LifeConsistent, hpar, hlife, hblock, hdeadline, htick]
  refine ⟨fun hl => ⟨(huninit hl).1, ?_⟩, hblockCfg, hrun, hbusy⟩
  have hempty := (huninit hl).2
  intro sl hsl
  have hmem : sl.st.status ∈ s.slots.map (·.st.status) := hslots ▸ List.mem_map_of_mem hsl
  obtain ⟨x, hx, hxs⟩ := List.mem_map.mp hmem
  rw [← hxs]; exact hempty x hx

/-- Between two states of RUNNING, BLOCK and the deadline decide it. -/
theorem LifeConsistent.of_running {t : State} (hlife : t.life = .running) (hblock : t.block = t.par.blockCfg)
    (hdeadline : t.nextDeadline.isSome = true) : LifeConsistent t := by
  simp [LifeConsistent, hlife, hblock, hdeadline]

theorem LifeConsistent.of_idle {t : State} (hlife : t.life = .idle) (hblock : t.block = t.par.blockCfg)
    (hdeadline : t.nextDeadline = none) (htick : t.tick = .idle) : LifeConsistent t := by
  simp [LifeConsistent, hlife, hblock, hdeadline, htick]

/-- A deadline stands only in RUNNING. -/
theorem LifeConsistent.deadline_none {s : State} (h : LifeConsistent s) (hl : s.life ≠ .running) :
    s.nextDeadline = none := by
  obtain ⟨-, -, hrun, -⟩ := h
  rw [← Option.not_isSome_iff_eq_none, hrun]
  exact hl

/-- A tick is in progress only in RUNNING. -/
theorem LifeConsistent.tick_idle {s : State} (h : LifeConsistent s) (hl : s.life ≠ .running) : s.tick = .idle := by
  obtain ⟨-, -, -, hbusy⟩ := h
  by_contra hne
  exact hl (hbusy hne)

theorem LifeConsistent.block_eq {s : State} (h : LifeConsistent s) (hl : s.life ≠ .uninit) :
    s.block = s.par.blockCfg := h.2.1 hl

/-- In RUNNING a stage of a tick keeps it. -/
theorem LifeConsistent.of_frame_running {s t : State} (h : LifeConsistent s) (hf : TickFrame s t)
    (hl : s.life = .running) : LifeConsistent t := by
  refine .of_running (hf.life.trans hl) ?_ ?_
  · rw [hf.block, hf.par]; exact h.block_eq (by simp [hl])
  · rw [hf.nextDeadline]
    obtain ⟨-, -, hrun, -⟩ := h
    exact hrun.mpr hl

theorem backStage_of_idle {s : State} (h : s.tick = .idle) : backStage s = s := by
  rw [backStage, h]

/-- A property of slots that a slot's new contents keep is kept, slot by slot. -/
theorem map_set_of_eq {α : Type} (g : Slot → α) {l : List Slot} {i : Nat} {sl sl' : Slot} (hsl : l[i]? = some sl)
    (h : g sl' = g sl) : (l.set i sl').map g = l.map g := by
  obtain ⟨hi, rfl⟩ := List.getElem?_eq_some_iff.mp hsl
  rw [List.map_set, h]
  exact List.ext_getElem (by simp) (fun k _ _ => by rw [List.getElem_set]; split <;> simp_all)

theorem initBody_tick (s : State) : (initBody s).tick = s.tick := by
  rw [initBody, setWarnIf_tick]

theorem initBody_consistent {s : State} (h : LifeConsistent s) (hl : s.life = .uninit) :
    LifeConsistent (initBody s) := by
  have hne : s.life ≠ .running := by simp [hl]
  refine .of_idle (initBody_life s) (by simp [initBody]) ?_ ((initBody_tick s).trans (h.tick_idle hne))
  simpa [initBody] using h.deadline_none hne

theorem resetAll_consistent (s : State) : LifeConsistent (resetAll s) := by
  refine ⟨fun _ => ⟨rfl, ?_⟩, fun hne => absurd rfl hne, by simp [resetAll, State.resetWith], fun hne => absurd rfl hne⟩
  intro sl hsl
  obtain ⟨x, -, rfl⟩ := List.mem_map.mp hsl
  rfl

theorem retuneSlot_status (p : Params) (busy : Bool) (f : F64) (sl : Slot) :
    (retuneSlot p busy f sl).st.status = sl.st.status := by
  rw [retuneSlot]; split <;> rfl

theorem writeStaging_status (off : Nat) (v : Word32) (st : Station) : (writeStaging off v st).status = st.status :=
  (writeStaging_frame off v st).1

theorem life_carried : StepCarries LifeConsistent LifeConsistent where
  complete _ _ _ h := h
  stay _ h := h
  noop _ h := h
  init _ h hl := initBody_consistent h hl
  start s h hl := .of_running rfl (h.block_eq (by simp [hl])) rfl
  stop s h hl := by
    have hf := finishTick_frame s
    refine .of_idle rfl ?_ rfl (finishTick_tick s)
    show (finishTick s).block = (finishTick s).par.blockCfg
    rw [hf.block, hf.par]; exact h.block_eq (by simp [hl])
  tick s h hl := by
    have hf := (beginTick_frame s).trans (finishTick_frame (beginTick s))
    refine .of_idle (hf.life.trans hl) ?_ ?_ (finishTick_tick _)
    · rw [tickBody, hf.block, hf.par]; exact h.block_eq (by simp [hl])
    · rw [tickBody, hf.nextDeadline]; exact h.deadline_none (by simp [hl])
  reset _ _ := resetAll_consistent _
  retune s f h := .of_eq (s := s) rfl rfl rfl rfl rfl (by simp [retuneSlot_status]) h
  gain _ _ h := h.of_eq (by simp) (by simp) (by simp) (by simp) (by simp) (by simp)
  rate _ _ h := h.of_eq (by simp) (by simp) (by simp) (by simp) (by simp) (by simp)
  noiseEn _ _ h := h.of_eq (by simp) (by simp) (by simp) (by simp) (by simp) (by simp)
  noiseSigma _ _ h := h.of_eq (by simp [regenerateNoise]) (by simp [regenerateNoise]) (by simp [regenerateNoise])
    (by simp [regenerateNoise]) (by simp [regenerateNoise]) (by simp [regenerateNoise])
  before _ _ h := h
  after _ _ h := h
  global s off v h := by
    rcases writeGlobal_cases off v s with ⟨x, hx⟩ | hx | hx | hx | hx <;> rw [hx] <;> exact h
  station s i off v h := by
    rcases writeStation_cases i off v s with ⟨sl, _, hsl, hx⟩ | hx <;> rw [hx]
    · exact .of_eq (s := s) rfl rfl rfl rfl rfl (map_set_of_eq _ hsl (writeStaging_status off v sl.st)) h
    · exact h
  fire s lag h hl _ := by
    obtain ⟨-, -, hrun, -⟩ := id h
    refine .of_running (by simpa using hl) ?_ ?_
    · simpa using h.block_eq (by simp [hl])
    · simpa [rearmTimer] using hrun.mpr hl
  unit s todo i h ht _ := by
    obtain ⟨-, -, -, hbusy⟩ := id h
    exact h.of_frame_running ((runSlot_frame s i).trans (withTick_frame _ _)) (hbusy (by simp [ht]))
  back s h _ := by
    by_cases ht : s.tick = .idle
    · rwa [backStage_of_idle ht]
    · obtain ⟨-, -, -, hbusy⟩ := id h
      exact h.of_frame_running (backStage_frame s) (hbusy ht)

/-- Settles O53: the lifecycle commands move LIFE, BLOCK, the deadline and the tick together, the rest leaves them. -/
theorem lifeStaysConsistent : Obligations.LifeStaysConsistent :=
  fun _ _ hs ht => step_carries life_carried hs ht

/-! ## Reserved bits (R33, R34, R35) -/

/-- No bit outside `mask` is set. -/
abbrev Within (mask x : Word32) : Prop := x &&& ~~~mask = 0#32

theorem Within.or {m x y : Word32} (hx : Within m x) (hy : Within m y) : Within m (x ||| y) := by
  rw [Within, BitVec.and_comm, BitVec.and_or_distrib_left, BitVec.and_comm _ x, BitVec.and_comm _ y, hx, hy]; rfl

theorem Within.and {m x : Word32} (hx : Within m x) (y : Word32) : Within m (x &&& y) := by
  rw [Within, BitVec.and_assoc, BitVec.and_comm y, ← BitVec.and_assoc, hx]; exact BitVec.zero_and

theorem within_and_mask (m x : Word32) : Within m (x &&& m) := by
  rw [Within, BitVec.and_assoc, BitVec.and_not_self]; exact BitVec.and_zero

theorem Within.ite {m x y : Word32} {c : Prop} [Decidable c] (hx : Within m x) (hy : Within m y) :
    Within m (if c then x else y) := by
  split
  · exact hx
  · exact hy

/-- CMD_STATUS as a completion writes it has bits 31..16 clear (R33). -/
theorem status_reserved (op code : BitVec 8) : (0#16 ++ op ++ code) &&& 0xFFFF0000#32 = 0#32 := by
  show (0#16 ++ op ++ code) &&& (0xFFFF#16 ++ 0#8 ++ 0#8) = 0#32
  rw [BitVec.and_append, BitVec.and_append, BitVec.zero_and, BitVec.and_zero, BitVec.and_zero]
  rfl

theorem ReservedBitsZero.of_eq {s t : State} (hstatus : t.cmdStatus = s.cmdStatus) (hwarn : t.warn = s.warn)
    (hen : t.irqEn = s.irqEn) (hpend : t.irqPend = s.irqPend) (h : ReservedBitsZero s) : ReservedBitsZero t := by
  rw [ReservedBitsZero, hstatus, hwarn, hen, hpend]
  exact h

theorem complete_reserved (op : BitVec 8) (c : ResultCode) {s : State} (h : ReservedBitsZero s) :
    ReservedBitsZero (complete op c s) := by
  obtain ⟨-, hwarn, hen, hpend⟩ := h
  exact ⟨status_reserved op c.byte, hwarn, hen, Within.or hpend (Within.ite (by decide) (by decide))⟩

theorem setWarn_reserved {b : Word32} (hb : Within warnMask b) {s : State} (h : ReservedBitsZero s) :
    ReservedBitsZero (setWarn b s) := by
  obtain ⟨hstatus, hwarn, hen, hpend⟩ := h
  exact ⟨hstatus, Within.or hwarn hb, hen, Within.ite (Within.or hpend (by decide)) hpend⟩

theorem setWarnIf_reserved (c : Bool) {b : Word32} (hb : Within warnMask b) {s : State} (h : ReservedBitsZero s) :
    ReservedBitsZero (setWarnIf c b s) := by
  cases c
  · exact h
  · exact setWarn_reserved hb h

theorem deliverStage_reserved (o : List Cplx) {s : State} (h : ReservedBitsZero s) :
    ReservedBitsZero (deliverStage o s) := by
  obtain ⟨hstatus, hwarn, hen, hpend⟩ := h
  exact ⟨hstatus, hwarn, hen, Within.or hpend (by decide)⟩

theorem runSlot_reserved {s : State} (i : Nat) (h : ReservedBitsZero s) : ReservedBitsZero (runSlot s i) := by
  rcases runSlot_cases s i with hr | ⟨sl, tn, c, e, _, _, _, _, hr⟩ <;> rw [hr]
  · exact h
  · exact setWarnIf_reserved c (by decide) (.of_eq rfl rfl rfl rfl h)

theorem backStage_reserved {s : State} (h : ReservedBitsZero s) : ReservedBitsZero (backStage s) := by
  rw [backStage]
  split
  · exact h
  · exact setWarnIf_reserved _ (by decide) (.of_eq rfl rfl rfl rfl h)
  · exact .of_eq rfl rfl rfl rfl h
  · exact .of_eq rfl rfl rfl rfl h
  · exact .of_eq rfl rfl rfl rfl h
  · exact .of_eq rfl rfl rfl rfl h
  · exact deliverStage_reserved _ h

theorem finishTick_reserved {s : State} (h : ReservedBitsZero s) : ReservedBitsZero (finishTick s) :=
  finishTick_keeps (P := ReservedBitsZero) (fun _ i => runSlot_reserved i) (fun _ => backStage_reserved)
    (fun _ _ hs => hs) h

theorem writeGlobal_reserved (off : Nat) (v : Word32) {s : State} (h : ReservedBitsZero s) :
    ReservedBitsZero (writeGlobal off v s) := by
  obtain ⟨hstatus, hwarn, hen, hpend⟩ := id h
  rcases writeGlobal_cases off v s with ⟨x, hx⟩ | hx | hx | hx | hx <;> rw [hx]
  · exact h
  · exact ⟨hstatus, Within.and hwarn _, hen, hpend⟩
  · exact ⟨hstatus, hwarn, within_and_mask _ v, hpend⟩
  · exact ⟨hstatus, hwarn, hen, Within.and hpend _⟩
  · exact h

theorem reserved_carried : StepCarries ReservedBitsZero ReservedBitsZero where
  complete op c _ h := complete_reserved op c h
  stay _ h := h
  noop _ h := setWarn_reserved (by decide) h
  init s h _ := setWarnIf_reserved _ (by decide) (.of_eq (s := s) rfl rfl rfl rfl h)
  start _ h _ := h
  stop s h _ := .of_eq (s := finishTick s) rfl rfl rfl rfl (finishTick_reserved h)
  tick s h _ := finishTick_reserved (.of_eq (s := s) rfl rfl rfl rfl h)
  reset _ _ := ⟨BitVec.zero_and, BitVec.zero_and, BitVec.zero_and, BitVec.zero_and⟩
  retune _ _ h := h
  gain _ _ h := h.of_eq (by simp) (by simp) (by simp) (by simp)
  rate _ _ h := h.of_eq (by simp) (by simp) (by simp) (by simp)
  noiseEn _ _ h := h.of_eq (by simp) (by simp) (by simp) (by simp)
  noiseSigma _ _ h := h.of_eq (by simp [regenerateNoise]) (by simp [regenerateNoise]) (by simp [regenerateNoise])
    (by simp [regenerateNoise])
  before _ _ h := h
  after _ _ h := h
  global _ off v h := writeGlobal_reserved off v h
  station s i off v h := by
    rcases writeStation_cases i off v s with ⟨sl, _, _, hx⟩ | hx <;> rw [hx] <;> exact h
  fire s lag h _ _ := .of_eq (s := setWarnIf lag warnLag s) rfl rfl rfl rfl (setWarnIf_reserved lag (by decide) h)
  unit s _ i h _ _ := .of_eq (s := runSlot s i) rfl rfl rfl rfl (runSlot_reserved i h)
  back _ h _ := backStage_reserved h

/-- Settles O58: every write of a status register sets named bits only, or clears bits. -/
theorem reservedBitsStayZero : Obligations.ReservedBitsStayZero :=
  fun _ _ hs ht => step_carries reserved_carried hs ht

end Sys2Proof.Machine

/-! SUPPORT. One station run, outcome by outcome and sample by sample, and what it keeps of a station's RDS state and
histories (spec 41_rds.md R215 to R222; 43_polyphase_tuner.md R280 to R306). -/

namespace Sys2Proof.Machine

/-! ## The three outcomes of a station run (R303 to R305) -/

section

variable {p : Params} {i n : Nat} {tn : Tuning} {sl : Slot}

theorem stationRun_of_outOfBand (h : outOfBand sl.st.freq tn.tuned = true) :
    stationRun p i n tn sl = ({ sl with st := { sl.st with out := silence n, oobLast := true } }, false) := if_pos h

theorem stationRun_of_fail (h : outOfBand sl.st.freq tn.tuned = false) (ha : (audioPull i n sl.feed).1 = none) :
    stationRun p i n tn sl =
      ({ st := { sl.st with oobLast := false, out := silence n }, feed := (audioPull i n sl.feed).2 }, true) := by
  rw [stationRun, h]
  simp only [Bool.false_eq_true, if_false, ha]

/-- The slot that the signal chain of an in-band station starts from. -/
def inBandStart (i n : Nat) (sl : Slot) : Slot :=
  { st := { sl.st with oobLast := false }, feed := (audioPull i n sl.feed).2 }

theorem stationRun_of_samples {xs : List AudioPair} (h : outOfBand sl.st.freq tn.tuned = false)
    (ha : (audioPull i n sl.feed).1 = some xs) :
    stationRun p i n tn sl = (stationSignal p i tn xs (inBandStart i n sl), false) := by
  rw [stationRun, h]
  simp only [Bool.false_eq_true, if_false, ha]
  rfl

/-- The slot after a station run: silent with what the station had, or what the signal chain leaves. -/
theorem stationRun_slot_cases (p : Params) (i n : Nat) (tn : Tuning) (sl : Slot) :
    (∃ o b f, (stationRun p i n tn sl).1 = { st := { sl.st with out := o, oobLast := b }, feed := f }) ∨
    ∃ xs, (stationRun p i n tn sl).1 = stationSignal p i tn xs (inBandStart i n sl) := by
  cases h : outOfBand sl.st.freq tn.tuned with
  | true => exact .inl ⟨_, _, _, by rw [stationRun_of_outOfBand h]⟩
  | false =>
    cases ha : (audioPull i n sl.feed).1 with
    | none => exact .inl ⟨_, _, _, by rw [stationRun_of_fail h ha]⟩
    | some xs => exact .inr ⟨xs, by rw [stationRun_of_samples h ha]⟩

end

/-! ## The MPX loop, sample by sample (R254) -/

/-- The slot after one sample of the MPX loop. -/
def mpxNext (p : Params) (i : Nat) (sl : Slot) : Slot :=
  { st := { sl.st with rds := (rdsSample p i sl.st sl.feed).2.1, q12 := (sl.st.q12 + 1) % 12 },
    feed := (rdsSample p i sl.st sl.feed).2.2 }

theorem mpxRun_cons_slot (p : Params) (i : Nat) (a : AudioPair) (as : List AudioPair) (sl : Slot) :
    (mpxRun p i (a :: as) sl).2 = (mpxRun p i as (mpxNext p i sl)).2 := rfl

/-- The slot after the loop is the slot advanced once for each sample. -/
theorem mpxRun_slot (p : Params) (i : Nat) (xs : List AudioPair) (sl : Slot) :
    (mpxRun p i xs sl).2 = (mpxNext p i)^[xs.length] sl := by
  induction xs generalizing sl with
  | nil => rfl
  | cons a as ih => rw [mpxRun_cons_slot, ih, List.length_cons, Function.iterate_succ_apply]

theorem mpxRun_keeps {p : Params} {i : Nat} {P : Slot → Prop} (h : ∀ sl, P sl → P (mpxNext p i sl)) {sl : Slot}
    (hs : P sl) (xs : List AudioPair) : P (mpxRun p i xs sl).2 := by
  rw [mpxRun_slot]
  exact Function.Iterate.rec P hs h _

theorem mpxRun_hist (p : Params) (i : Nat) (xs : List AudioPair) (sl : Slot) :
    (mpxRun p i xs sl).2.st.hist = sl.st.hist :=
  mpxRun_keeps (P := fun x => x.st.hist = sl.st.hist) (fun _ hx => hx) rfl xs

/-! ## One RDS sample: the group type and the envelope (R200, R215) -/

/-- What GENERATE_GROUP never writes of the RDS state. -/
theorem generateGroup_rds (slot : Nat) (st : Station) (f : Feed) :
    ∃ m g ps rt, (generateGroup slot st f).2.1 = { st.rds with lastMin := m, grpCur := g, psIdx := ps, rtIdx := rt } := by
  by_cases h : st.rds.lastMin = some (clockRead slot f).1.minute.val
  · by_cases hcur : st.rds.grpCur < 4
    · rw [generateGroup_of_cursor_lt h hcur]; exact ⟨_, _, _, _, rfl⟩
    · rw [generateGroup_of_cursor_ge h hcur]; exact ⟨_, _, _, _, rfl⟩
  · rw [generateGroup_of_new_minute h]; exact ⟨_, _, _, _, rfl⟩

/-- The RDS state that the next bit is encoded from: a new group's where the buffer is consumed (R215). -/
def bitSource (slot : Nat) (st : Station) (f : Feed) : Rds × Feed :=
  if groupBits ≤ st.rds.bitPos then loadGroup slot st f else (st.rds, f)

theorem startSample_within {p : Params} {slot : Nat} {st : Station} {f : Feed} (h : ¬spb ≤ st.rds.sampleCnt) :
    startSample p slot st f = (st.rds, f) := if_neg h

theorem startSample_bit {p : Params} {slot : Nat} {st : Station} {f : Feed} (h : spb ≤ st.rds.sampleCnt) :
    startSample p slot st f = (encodeBit p (bitSource slot st f).1, (bitSource slot st f).2) := by
  rw [startSample, if_pos h, bitSource]
  split <;> rfl

theorem bitSource_phase4 (slot : Nat) (st : Station) (f : Feed) : (bitSource slot st f).1.phase4 = st.rds.phase4 := by
  rw [bitSource]
  split
  · obtain ⟨_, _, _, _, h⟩ := generateGroup_rds slot st f
    simp [loadGroup, h]
  · rfl

theorem startSample_phase4 (p : Params) (slot : Nat) (st : Station) (f : Feed) :
    (startSample p slot st f).1.phase4 = st.rds.phase4 := by
  by_cases h : spb ≤ st.rds.sampleCnt
  · rw [startSample_bit h]; exact bitSource_phase4 slot st f
  · rw [startSample_within h]

/-- Every RDS sample moves the carrier by one (R219). -/
theorem rdsSample_phase4 (p : Params) (slot : Nat) (st : Station) (f : Feed) :
    (rdsSample p slot st f).2.1.phase4 = (st.rds.phase4 + 1) % 4 := by
  rw [← startSample_phase4 p slot st f]; rfl

theorem mpxNext_q12 (p : Params) (i : Nat) (sl : Slot) : (mpxNext p i sl).st.q12 = (sl.st.q12 + 1) % 12 := rfl

theorem mpxNext_phase4 (p : Params) (i : Nat) (sl : Slot) :
    (mpxNext p i sl).st.rds.phase4 = (sl.st.rds.phase4 + 1) % 4 := rdsSample_phase4 p i sl.st sl.feed

/-! ## INIT, retuning and staging, on the parts of a slot they keep or build -/

/-- INIT rebuilds a slot or changes only what it records of it (R152, R153). -/
theorem initSlot_slot_cases (p : Params) (cf : F64) (i : Nat) (sl : Slot) :
    (∃ c d f, (initSlot p cf i sl).1 = { st := { sl.st with status := c, code := d }, feed := f }) ∨
    ∃ f, (initSlot p cf i sl).1 = { st := build p cf sl.st, feed := f } := by
  unfold initSlot
  split
  · exact .inl ⟨_, _, _, rfl⟩
  · split
    · exact .inl ⟨_, _, _, rfl⟩
    · dsimp only
      split
      · exact .inl ⟨_, _, _, rfl⟩
      · exact .inr ⟨_, rfl⟩

/-- A property of a station's RDS state, pilot counter and histories alone, which the signal chain, BUILD and RESET
establish or keep, is kept by every step. -/
theorem signalInvariant {p : Params} {S : Rds → Nat → Vector (Cplx × Cplx) 10 → Prop}
    (chain : ∀ i tn xs sl, S sl.st.rds sl.st.q12 sl.st.hist →
      S (stationSignal p i tn xs sl).st.rds (stationSignal p i tn xs sl).st.q12 (stationSignal p i tn xs sl).st.hist)
    (fresh : S (Rds.fresh p) 0 (Vector.replicate 10 (Cplx.zero, Cplx.zero))) :
    SlotInvariant p fun sl => S sl.st.rds sl.st.q12 sl.st.hist where
  run i n tn sl h := by
    rcases stationRun_slot_cases p i n tn sl with ⟨o, b, f, hr⟩ | ⟨xs, hr⟩ <;> rw [hr]
    · exact h
    · exact chain i tn xs _ h
  init cf i sl h := by
    rcases initSlot_slot_cases p cf i sl with ⟨c, d, f, hi⟩ | ⟨f, hi⟩ <;> rw [hi]
    · exact h
    · exact fresh
  staging off v sl h := by
    obtain ⟨-, -, -, -, -, -, -, -, -, -, hhist, hq, hrds, -⟩ := writeStaging_frame off v sl.st
    dsimp only
    rw [hrds, hq, hhist]; exact h
  retune busy f sl h := by
    rw [retuneSlot]; split <;> exact h
  fresh _ := fresh
  clear _ h := h

/-! ## What no step writes (R49, R48, R5) -/

/-- The parameters are `p` and there are `n` slots. -/
def Configured (p : Params) (n : Nat) (s : State) : Prop := s.par = p ∧ s.slots.length = n

theorem Configured.of_frame {p : Params} {n : Nat} {s t : State} (h : Configured p n s) (hf : TickFrame s t) :
    Configured p n t := ⟨hf.par.trans h.1, hf.nSlots.trans h.2⟩

theorem configured_carried (p : Params) (n : Nat) : StepCarries (Configured p n) (Configured p n) where
  complete _ _ _ h := h
  stay _ h := h
  noop _ h := h
  init s h _ := by simpa [Configured, initBody, initSlots_length] using h
  start _ h _ := h
  stop s h _ := Configured.of_frame (t := finishTick s) h (finishTick_frame s)
  tick s h _ := h.of_frame ((beginTick_frame s).trans (finishTick_frame _))
  reset s h := by
    have hkept : Configured p n (if s.life = .running then stopTimer s else s) := by
      split
      · exact Configured.of_frame (t := finishTick s) h (finishTick_frame s)
      · exact h
    exact ⟨hkept.1, (List.length_map _).trans hkept.2⟩
  retune s f h := ⟨h.1, (List.length_map _).trans h.2⟩
  gain _ _ h := by simpa [Configured] using h
  rate _ _ h := by simpa [Configured] using h
  noiseEn _ _ h := by simpa [Configured] using h
  noiseSigma _ _ h := by simpa [Configured, regenerateNoise] using h
  before _ _ h := h
  after _ _ h := h
  global s off v h := by
    rcases writeGlobal_cases off v s with ⟨x, hx⟩ | hx | hx | hx | hx <;> rw [hx] <;> exact h
  station s i off v h := by
    rcases writeStation_cases i off v s with ⟨sl, _, _, hx⟩ | hx <;> rw [hx]
    · exact ⟨h.1, (List.length_set).trans h.2⟩
    · exact h
  fire s lag h _ _ := by simpa [Configured, beginTick] using h
  unit s _ i h _ _ := h.of_frame ((runSlot_frame s i).trans (withTick_frame _ _))
  back s h _ := h.of_frame (backStage_frame s)

theorem step_par {s t : State} (h : step s = .next t) : t.par = s.par ∧ t.slots.length = s.slots.length :=
  step_carries (configured_carried s.par s.slots.length) ⟨rfl, rfl⟩ h

/-- The identity of a station and what INIT recorded of its slot (R48, R49). -/
abbrev slotIdentity (sl : Slot) :=
  (sl.st.freq, sl.st.csN, sl.st.psN, sl.st.rtN, sl.st.pi, sl.st.status, sl.st.code)

/-- What a tick keeps of every station includes its identity. -/
theorem identity_of_kept {s t : State} (h : keptOf t = keptOf s) :
    t.slots.map slotIdentity = s.slots.map slotIdentity := by
  have hpart := congrArg (List.map fun
    (_, _, _, _, _, _, _, _, status, code, freq, csN, psN, rtN, pi, _) => (freq, csN, psN, rtN, pi, status, code)) h
  simpa [keptOf, Function.comp_def] using hpart

/-- While stations exist their identity stands, or the block has returned to UNINIT. -/
theorem identity_carried (ids : List _) :
    StepCarries (fun s => s.life ≠ .uninit ∧ s.slots.map slotIdentity = ids)
      (fun t => t.life = .uninit ∨ t.slots.map slotIdentity = ids) where
  complete _ _ _ h := h
  stay _ h := .inr h.2
  noop _ h := .inr h.2
  init _ h hl := absurd hl h.1
  start _ h _ := .inr h.2
  stop s h _ := .inr ((identity_of_kept (finishTick_kept s)).trans h.2)
  tick s h _ := .inr ((identity_of_kept ((finishTick_kept _).trans (beginTick_kept s))).trans h.2)
  reset _ _ := .inl rfl
  retune s f h := by
    refine .inr (Eq.trans ?_ h.2)
    rw [retuneAll_slots, List.map_map]
    refine List.map_congr_left fun sl _ => ?_
    rw [Function.comp_apply, retuneSlot]
    split <;> rfl
  gain _ _ h := .inr (by simpa using h.2)
  rate _ _ h := .inr (by simpa using h.2)
  noiseEn _ _ h := .inr (by simpa using h.2)
  noiseSigma _ _ h := .inr (by simpa [regenerateNoise] using h.2)
  before _ _ h := h
  after _ _ h := h
  global s off v h := by
    rcases writeGlobal_cases off v s with ⟨x, hx⟩ | hx | hx | hx | hx <;> rw [hx] <;> exact .inr h.2
  station s i off v h := by
    rcases writeStation_cases i off v s with ⟨sl, hl, _, hx⟩ | hx
    · exact absurd hl h.1
    · rw [hx]; exact .inr h.2
  fire s lag h _ _ := .inr (by simpa [beginTick, Function.comp_def] using h.2)
  unit s _ i h _ _ := .inr ((identity_of_kept (runSlot_kept s i)).trans h.2)
  back s h _ := .inr ((identity_of_kept (backStage_kept s)).trans h.2)

/-- Settles O60: the parameters and slots from any state; the identity while it exists. -/
theorem stationIdentityIsImmutable : Obligations.StationIdentityIsImmutable :=
  fun _ _ ht => ⟨(step_par ht).1, (step_par ht).2, fun hl => step_carries (identity_carried _) ⟨hl, rfl⟩ ht⟩

/-! ## The carrier locked to the pilot (R253) -/

/-- The pilot counter and the carrier advance together: 4 divides 12. -/
theorem mpxNext_locked (p : Params) (i : Nat) (sl : Slot)
    (h : sl.st.q12 < 12 ∧ sl.st.rds.phase4 = sl.st.q12 % 4) :
    (mpxNext p i sl).st.q12 < 12 ∧ (mpxNext p i sl).st.rds.phase4 = (mpxNext p i sl).st.q12 % 4 := by
  rw [mpxNext_phase4, mpxNext_q12]
  omega

theorem phaseLocked_invariant (p : Params) : SlotInvariant p fun sl => sl.st.q12 < 12 ∧ sl.st.rds.phase4 = sl.st.q12 % 4 :=
  signalInvariant (S := fun r q _ => q < 12 ∧ r.phase4 = q % 4)
    (fun i _ xs _ h => mpxRun_keeps (P := fun sl => sl.st.q12 < 12 ∧ sl.st.rds.phase4 = sl.st.q12 % 4)
      (mpxNext_locked p i) h xs)
    ⟨by decide, rfl⟩

/-- Settles O55: a sample advances both counters, and nothing else moves one of them alone. -/
theorem pilotStaysLocked : Obligations.PilotStaysLocked :=
  fun s _ hs ht => step_all (phaseLocked_invariant s.par) rfl hs ht

/-! ## The ten histories (R284) -/

/-- Every branch has the history of branch 0. -/
def HistEqual (hist : Vector (Cplx × Cplx) 10) : Prop := ∀ b : Fin 10, hist[b] = hist[0]

theorem bank_histEqual (p : Params) {hist : Vector (Cplx × Cplx) 10} (h : HistEqual hist) (fm : List Cplx) :
    HistEqual (bank p hist fm).2 := by
  induction fm generalizing hist with
  | nil => exact h
  | cons x xs ih =>
    refine ih fun b => ?_
    have hb := h b
    simp only [Fin.getElem_fin, Vector.getElem_map] at hb ⊢
    rw [hb]

theorem histories_invariant (p : Params) : SlotInvariant p fun sl => HistEqual sl.st.hist :=
  signalInvariant (S := fun _ _ h => HistEqual h)
    (fun i _ xs sl h => bank_histEqual p ((mpxRun_hist p i xs sl).symm ▸ h) _)
    (fun b => by simp)

/-- Settles O57: every branch of the bank stores the same inputs. -/
theorem historiesStayEqual : Obligations.HistoriesStayEqual :=
  fun s _ hs ht => step_all (histories_invariant s.par) rfl hs ht

/-! ## The cursors (R56, R218) -/

theorem ringLen_pos (p : Params) : 0 < p.ringLen := Nat.add_pos_left (by decide) _

/-- Adding the kernel keeps the ring's length. -/
theorem addKernel_length (len : Nat) (d : Bool) (ks : List F64) (i : Nat) (ring : List F64) :
    (addKernel len d ks i ring).length = ring.length := by
  induction ks generalizing i ring with
  | nil => rfl
  | cons k ks ih => rw [addKernel, ih, List.length_set]

/-- A clock reading's minute is in range, and the group cursors wrap (R200). -/
theorem generateGroup_inRange {p : Params} {slot : Nat} {st : Station} (f : Feed) (h : RdsInRange p st.rds) :
    RdsInRange p (generateGroup slot st f).2.1 := by
  obtain ⟨hpos, hcnt, hring, hwr, hrd, hmeet, hphase, hcur, hps, hrt, hmin⟩ := h
  have hminute : (clockRead slot f).1.minute.val < 60 := (clockRead slot f).1.minute.isLt
  by_cases hm : st.rds.lastMin = some (clockRead slot f).1.minute.val
  · by_cases hc : st.rds.grpCur < 4
    · rw [generateGroup_of_cursor_lt hm hc]
      exact ⟨hpos, hcnt, hring, hwr, hrd, hmeet, hphase, hc, Nat.mod_lt _ (by decide), hrt, hmin⟩
    · rw [generateGroup_of_cursor_ge hm hc]
      exact ⟨hpos, hcnt, hring, hwr, hrd, hmeet, hphase, Nat.zero_le _, hps, Nat.mod_lt _ (by decide), hmin⟩
  · rw [generateGroup_of_new_minute hm]
    exact ⟨hpos, hcnt, hring, hwr, hrd, hmeet, hphase, hcur, hps, hrt, hminute⟩

/-- The state a bit is encoded from has a bit left to send. -/
theorem bitSource_inRange {p : Params} {slot : Nat} {st : Station} (f : Feed) (h : RdsInRange p st.rds) :
    RdsInRange p (bitSource slot st f).1 ∧ (bitSource slot st f).1.bitPos < groupBits := by
  rw [bitSource]
  split
  · obtain ⟨-, hrest⟩ := generateGroup_inRange (slot := slot) f h
    exact ⟨⟨Nat.zero_le _, hrest⟩, (by decide : 0 < groupBits)⟩
  · next hlt => exact ⟨h, Nat.lt_of_not_le hlt⟩

theorem bitSource_sampleCnt (slot : Nat) (st : Station) (f : Feed) :
    (bitSource slot st f).1.sampleCnt = st.rds.sampleCnt := by
  rw [bitSource]
  split
  · obtain ⟨_, _, _, _, h⟩ := generateGroup_rds slot st f
    simp [loadGroup, h]
  · rfl

/-- A bit starts where the cursors meet, and moves the write cursor one bit period ahead (R218). -/
theorem encodeBit_inRange {p : Params} {r : Rds} (h : RdsInRange p r) (hbit : r.bitPos < groupBits)
    (hcnt : spb ≤ r.sampleCnt) : RdsInRange p (encodeBit p r) := by
  obtain ⟨-, hle, hring, hwr, hrd, hmeet, hphase, hcur, hps, hrt, hmin⟩ := h
  have hequal : r.wrIdx = r.rdIdx := by
    rw [hmeet, Nat.sub_eq_zero_of_le hcnt, Nat.add_zero, Nat.mod_eq_of_lt hrd]
  refine ⟨hbit, Nat.zero_le _, (addKernel_length _ _ _ _ _).trans hring, Nat.mod_lt _ (ringLen_pos p), hrd, ?_, hphase,
    hcur, hps, hrt, hmin⟩
  show (r.wrIdx + spb) % p.ringLen = (r.rdIdx + (spb - 0)) % p.ringLen
  rw [hequal, Nat.sub_zero]

/-- Within a bit period the read cursor closes in on the write cursor, one entry a sample (R218). -/
theorem readEnvelope_inRange {p : Params} {r : Rds} (h : RdsInRange p r) (hcnt : r.sampleCnt < spb) :
    RdsInRange p (readEnvelope p r).2 := by
  obtain ⟨hpos, -, hring, hwr, hrd, hmeet, -, hcur, hps, hrt, hmin⟩ := h
  refine ⟨hpos, hcnt, by simpa [readEnvelope] using hring, hwr, Nat.mod_lt _ (ringLen_pos p), ?_,
    Nat.mod_lt _ (by decide), hcur, hps, hrt, hmin⟩
  show r.wrIdx = ((r.rdIdx + 1) % p.ringLen + (spb - (r.sampleCnt + 1))) % p.ringLen
  rw [hmeet, Nat.mod_add_mod]
  congr 1; omega

theorem startSample_inRange {p : Params} {slot : Nat} {st : Station} (f : Feed) (h : RdsInRange p st.rds) :
    RdsInRange p (startSample p slot st f).1 ∧ (startSample p slot st f).1.sampleCnt < spb := by
  by_cases hc : spb ≤ st.rds.sampleCnt
  · obtain ⟨hin, hbit⟩ := bitSource_inRange (slot := slot) f h
    rw [startSample_bit hc]
    exact ⟨encodeBit_inRange hin hbit (by rwa [bitSource_sampleCnt]), (by decide : 0 < spb)⟩
  · rw [startSample_within hc]
    exact ⟨h, Nat.lt_of_not_le hc⟩

theorem rdsSample_inRange {p : Params} {slot : Nat} {st : Station} (f : Feed) (h : RdsInRange p st.rds) :
    RdsInRange p (rdsSample p slot st f).2.1 :=
  readEnvelope_inRange (startSample_inRange f h).1 (startSample_inRange f h).2

theorem fresh_inRange (p : Params) : RdsInRange p (Rds.fresh p) := by
  have hpos := ringLen_pos p
  refine ⟨Nat.le_refl _, Nat.le_refl _, List.length_replicate, hpos, hpos, ?_, (by decide : 0 < 4), (by decide : 0 ≤ 4),
    (by decide : 0 < 4), (by decide : 0 < 16), (by decide : 0 < 60)⟩
  exact (Nat.zero_mod p.ringLen).symm

theorem cursors_invariant (p : Params) : SlotInvariant p fun sl => RdsInRange p sl.st.rds :=
  signalInvariant (S := fun r _ _ => RdsInRange p r)
    (fun _ _ xs _ h => mpxRun_keeps (P := fun sl => RdsInRange p sl.st.rds) (fun sl hs => rdsSample_inRange sl.feed hs) h xs)
    (fresh_inRange p)

/-- Settles O56: a sample keeps the ranges, whether it starts a bit or reads within one. -/
theorem rdsCursorsStayInRange : Obligations.RdsCursorsStayInRange := by
  intro s t hs ht
  have hpar : t.par = s.par := (step_par ht).1
  intro sl hsl
  rw [hpar]
  exact step_all (cursors_invariant s.par) rfl hs ht sl hsl

end Sys2Proof.Machine

/-! SUPPORT. The mixer, and the lengths of a tick's blocks from stage to stage (spec 44_backend.md R325 to R348). -/

namespace Sys2Proof.Machine

/-! ## The mixer (R325, R327) -/

/-- The blocks of the active stations, in slot order. -/
def activeBlocks (slots : List Slot) : List (List Cplx) :=
  (slots.filter fun sl => sl.st.status == .active).map fun sl => sl.st.out

/-- One station's block into the mix, or skipped and reported (R325). -/
def mixBlock (len : Nat) (acc : List Cplx × Bool) (o : List Cplx) : List Cplx × Bool :=
  if o.length ≠ len then (acc.1, true) else (List.zipWith Cplx.add acc.1 o, acc.2)

/-- Slots that are not active add nothing. -/
theorem foldl_mixInto (len : Nat) (slots : List Slot) (acc : List Cplx × Bool) :
    slots.foldl (mixInto len) acc = (activeBlocks slots).foldl (mixBlock len) acc := by
  induction slots generalizing acc with
  | nil => rfl
  | cons sl sls ih =>
    rw [List.foldl_cons, ih]
    by_cases hact : sl.st.status = .active
    · simp [activeBlocks, mixInto, mixBlock, Station.active, hact]
    · simp [activeBlocks, mixInto, Station.active, hact]

/-- Blocks of the right length are summed, the others reported. -/
theorem foldl_mixBlock (len : Nat) (os : List (List Cplx)) (acc : List Cplx × Bool) :
    os.foldl (mixBlock len) acc =
      ((os.filter fun o => o.length == len).foldl (List.zipWith Cplx.add) acc.1,
        acc.2 || os.any fun o => o.length != len) := by
  induction os generalizing acc with
  | nil => simp
  | cons o os ih =>
    rw [List.foldl_cons, ih]
    by_cases hlen : o.length = len
    · simp [mixBlock, hlen]
    · simp [mixBlock, hlen]

theorem mixer_eq (len : Nat) (slots : List Slot) :
    mixer len slots =
      (((activeBlocks slots).filter fun o => o.length == len).foldl (List.zipWith Cplx.add)
          (List.replicate len Cplx.zero),
        (activeBlocks slots).any fun o => o.length != len) := by
  rw [mixer, foldl_mixInto, foldl_mixBlock, Bool.false_or]

/-- A sum of blocks of one length, sample by sample. -/
theorem foldl_zipWith_getElem? {len i : Nat} (hi : i < len) (os : List (List Cplx)) (hos : ∀ o ∈ os, o.length = len)
    (acc : List Cplx) (hacc : acc.length = len) :
    (os.foldl (List.zipWith Cplx.add) acc)[i]? =
      some (os.foldl (fun a o => a.add (o.getD i Cplx.zero)) (acc.getD i Cplx.zero)) := by
  induction os generalizing acc with
  | nil => simp [hacc, hi]
  | cons o os ih =>
    have ho : o.length = len := hos o List.mem_cons_self
    rw [List.foldl_cons, ih (fun x hx => hos x (List.mem_cons_of_mem o hx)) _ (by simp [hacc, ho])]
    simp [hacc, ho, hi]

theorem mixer_mismatch_iff (len : Nat) (slots : List Slot) :
    (mixer len slots).2 = true ↔ ∃ o ∈ activeBlocks slots, o.length ≠ len := by
  rw [mixer_eq]
  simp

/-- Settles O43: the fold over the active blocks of the right length, read at one index. -/
theorem mixerSumsActiveStations : Obligations.MixerSumsActiveStations := by
  intro len slots
  refine ⟨mixer_length len slots, fun i hi => ?_, mixer_mismatch_iff len slots⟩
  rw [mixer_eq]
  dsimp only
  rw [foldl_zipWith_getElem? hi _ (by simp) _ List.length_replicate, List.getD_replicate _ hi]
  rfl

/-! ## The station units of a tick (R303, R306) -/

theorem mem_activeSlots_iff {s : State} {i : Nat} :
    i ∈ activeSlots s ↔ ∃ sl, s.slots[i]? = some sl ∧ sl.st.active = true := by
  rw [activeSlots, List.mem_filter, List.mem_range]
  constructor
  · rintro ⟨hi, hact⟩
    exact ⟨s.slots[i], List.getElem?_eq_getElem hi, by simpa [hi] using hact⟩
  · rintro ⟨sl, hsl, hact⟩
    exact ⟨(List.getElem?_eq_some_iff.mp hsl).1, by simp [hsl, hact]⟩

theorem runSlot_of_none {s : State} {i : Nat} (h : s.slots[i]? = none) : runSlot s i = s := by
  rw [runSlot, h]

/-- A unit writes its own slot, with the tuning snapshot read, and warns on a fault (R303, R305). -/
theorem runSlot_of_some {s : State} {i : Nat} {sl : Slot} (h : s.slots[i]? = some sl) :
    runSlot s i =
      setWarnIf (stationRun s.par i s.block (readShared sl.st.tuning sl.st.tuneOld s.env).1 sl).2 warnStationFault
        { s with
          slots := s.slots.set i (stationRun s.par i s.block (readShared sl.st.tuning sl.st.tuneOld s.env).1 sl).1
          env := (readShared sl.st.tuning sl.st.tuneOld s.env).2 } := by
  rw [runSlot, h]

/-- Every active station but those of `todo` has made its block. -/
def UnitsDone (todo : List Nat) (s : State) : Prop :=
  ∀ k sl, s.slots[k]? = some sl → sl.st.active = true → k ∉ todo → sl.st.out.length = lUp s

theorem unitsDone_iff_zipIdx (todo : List Nat) (s : State) :
    UnitsDone todo s ↔
      ∀ q ∈ s.slots.zipIdx, q.1.st.active = true → q.2 ∉ todo → q.1.st.out.length = lUp s := by
  simp only [UnitsDone, Prod.forall, List.mem_zipIdx_iff_getElem?]
  exact forall_comm

theorem lUp_of_frame {s t : State} (h : TickFrame s t) : lUp t = lUp s := by
  rw [lUp, lUp, h.block]

theorem unitsDone_begin (s : State) : UnitsDone (activeSlots s) (beginTick s) := by
  intro k sl hsl hact hk
  simp only [beginTick, List.getElem?_map, Option.map_eq_some_iff] at hsl
  obtain ⟨x, hx, rfl⟩ := hsl
  exact absurd (mem_activeSlots_iff.mpr ⟨x, hx, hact⟩) hk

/-- A unit makes its block of 10·BLOCK samples and leaves the others' alone. -/
theorem unitsDone_runSlot {todo : List Nat} {s : State} (h : UnitsDone todo s) (i : Nat) :
    UnitsDone (todo.erase i) (runSlot s i) := by
  intro k sl hsl hact hk
  rw [lUp_of_frame (runSlot_frame s i)]
  have htodo : k ≠ i → k ∉ todo := fun hne hmem => hk ((List.mem_erase_of_ne hne).mpr hmem)
  cases hx : s.slots[i]? with
  | none =>
    rw [runSlot_of_none hx] at hsl
    exact h k sl hsl hact (htodo (by rintro rfl; simp [hx] at hsl))
  | some x =>
    rw [runSlot_of_some hx, setWarnIf_slots] at hsl
    by_cases hki : i = k
    · subst hki
      rw [List.getElem?_set_self (List.getElem?_eq_some_iff.mp hx).1] at hsl
      rw [← Option.some.inj hsl]
      exact stationRun_out_length _ _ _ _ _
    · rw [List.getElem?_set_ne hki] at hsl
      exact h k sl hsl hact (htodo (Ne.symm hki))

theorem unitsDone_foldl {todo : List Nat} {s : State} (h : UnitsDone todo s) : UnitsDone [] (todo.foldl runSlot s) := by
  induction todo generalizing s with
  | nil => exact h
  | cons i is ih =>
    refine ih ?_
    have hrun := unitsDone_runSlot h i
    rwa [List.erase_cons_head] at hrun

/-- Where every active station has its block, MIXER reports none (R326). -/
theorem mixer_no_mismatch {s : State} (h : UnitsDone [] s) : (mixer (lUp s) s.slots).2 = false := by
  by_contra hne
  rw [Bool.not_eq_false, mixer_mismatch_iff] at hne
  obtain ⟨o, ho, hlen⟩ := hne
  obtain ⟨sl, hsl, rfl⟩ := List.mem_map.mp ho
  obtain ⟨hmem, hact⟩ := List.mem_filter.mp hsl
  obtain ⟨k, hk⟩ := List.mem_iff_getElem?.mp hmem
  exact hlen (h k sl hk hact List.not_mem_nil)

/-! ## The blocks from stage to stage -/

/-- The stage lengths, no reported mismatch, and a delivered block that fits the output window (R306, R326, R89). -/
structure BlockLengths (s : State) : Prop where
  fits : 8 * lUp s ≤ 0x01000000
  phase : PhaseLengths s
  warn : s.warn &&& warnLenMismatch = 0#32
  out : 8 * s.outLen ≤ 0x01000000

theorem PhaseLengths.of_stations {s : State} {todo : List Nat} (ht : s.tick = .stations todo) (h : UnitsDone todo s) :
    PhaseLengths s := by
  rw [PhaseLengths, ht]
  exact (unitsDone_iff_zipIdx todo s).mp h

theorem PhaseLengths.unitsDone {s : State} {todo : List Nat} (h : PhaseLengths s) (ht : s.tick = .stations todo) :
    UnitsDone todo s := by
  rw [PhaseLengths, ht] at h
  exact (unitsDone_iff_zipIdx todo s).mpr h

theorem PhaseLengths.of_idle {s : State} (ht : s.tick = .idle) : PhaseLengths s := by
  rw [PhaseLengths, ht]
  trivial

/-- The stage lengths depend on the stage, BLOCK, the mix buffer, and each slot's STATE and block alone. -/
theorem PhaseLengths.of_eq {s t : State} (htick : t.tick = s.tick) (hblock : t.block = s.block)
    (hmix : t.mixBuf = s.mixBuf)
    (hslots : t.slots.map (fun sl => (sl.st.status, sl.st.out)) = s.slots.map fun sl => (sl.st.status, sl.st.out))
    (h : PhaseLengths s) : PhaseLengths t := by
  have hup : lUp t = lUp s := congrArg (phases * ·) hblock
  cases ht : s.tick with
  | idle => exact .of_idle (htick.trans ht)
  | stations todo =>
    refine .of_stations (htick.trans ht) fun k sl hsl hact hk => ?_
    have hk? := congrArg (·[k]?) hslots
    simp only [List.getElem?_map, hsl, Option.map_some] at hk?
    obtain ⟨x, hx, hxs⟩ := Option.map_eq_some_iff.mp hk?.symm
    obtain ⟨hstatus, hout⟩ := Prod.mk.inj hxs
    rw [← hout, hup]
    refine h.unitsDone ht k x hx ?_ hk
    rw [Station.active, hstatus]; exact hact
  | _ => simpa only [PhaseLengths, htick, ht, hup, hmix] using h

theorem setWarnIf_lenMismatch (c : Bool) {b : Word32} (hb : b &&& warnLenMismatch = 0#32) {s : State}
    (h : s.warn &&& warnLenMismatch = 0#32) : (setWarnIf c b s).warn &&& warnLenMismatch = 0#32 := by
  rw [setWarnIf_warn]
  split
  · rw [BitVec.and_comm, BitVec.and_or_distrib_left, BitVec.and_comm _ s.warn, BitVec.and_comm _ b, h, hb]; rfl
  · exact h

theorem BlockLengths.of_eq {s t : State} (htick : t.tick = s.tick) (hblock : t.block = s.block)
    (hmix : t.mixBuf = s.mixBuf)
    (hslots : t.slots.map (fun sl => (sl.st.status, sl.st.out)) = s.slots.map fun sl => (sl.st.status, sl.st.out))
    (hwarn : t.warn &&& warnLenMismatch = 0#32) (hout : t.outLen = s.outLen) (h : BlockLengths s) : BlockLengths t where
  fits := by rw [lUp, hblock]; exact h.fits
  phase := h.phase.of_eq htick hblock hmix hslots
  warn := hwarn
  out := hout ▸ h.out

theorem runSlot_lenMismatch {s : State} (i : Nat) (h : s.warn &&& warnLenMismatch = 0#32) :
    (runSlot s i).warn &&& warnLenMismatch = 0#32 := by
  cases hx : s.slots[i]? with
  | none => rwa [runSlot_of_none hx]
  | some x => rw [runSlot_of_some hx]; exact setWarnIf_lenMismatch _ (by decide) h

theorem runSlot_outLen (s : State) (i : Nat) : (runSlot s i).outLen = s.outLen := (runSlot_engine s i).2.2.2.1

theorem runSlot_lengths {s : State} {todo : List Nat} (h : BlockLengths s) (ht : s.tick = .stations todo) (i : Nat) :
    BlockLengths { runSlot s i with tick := .stations (todo.erase i) } where
  fits := (lUp_of_frame (runSlot_frame s i)).symm ▸ h.fits
  phase := .of_stations rfl (unitsDone_runSlot (h.phase.unitsDone ht) i)
  warn := runSlot_lenMismatch i h.warn
  out := (runSlot_outLen s i).symm ▸ h.out

/-- A tick between stages: its station units have all run. -/
def UnitsFinished (s : State) : Prop := ∀ todo, s.tick = .stations todo → todo = []

theorem finishStations_finished (s : State) : UnitsFinished (finishStations s) := by
  intro todo ht
  rw [finishStations] at ht
  split at ht
  · cases ht; rfl
  · next hne => exact absurd ht (hne todo)

theorem backStage_finished {s : State} : UnitsFinished (backStage s) := by
  intro todo ht
  rw [backStage] at ht
  split at ht
  · next hidle => rw [hidle] at ht; cases ht
  · rw [mixStage_tick] at ht; cases ht
  all_goals cases ht

theorem finishStations_lengths {s : State} (h : BlockLengths s) : BlockLengths (finishStations s) := by
  rw [finishStations]
  split
  · next todo ht =>
    have hf := foldl_runSlot_frame todo s
    refine ⟨(lUp_of_frame hf).symm ▸ h.fits, .of_stations rfl (unitsDone_foldl (h.phase.unitsDone ht)), ?_, ?_⟩
    · exact List.foldlRecOn (motive := fun u => u.warn &&& warnLenMismatch = 0#32) todo runSlot h.warn
        (fun u hu i _ => runSlot_lenMismatch i hu)
    · exact List.foldlRecOn (motive := fun u => 8 * u.outLen ≤ 0x01000000) todo runSlot h.out
        (fun u hu i _ => (runSlot_outLen u i).symm ▸ hu)
  · exact h

/-- Every engine stage hands on a block of the rules' length. -/
theorem backStage_lengths {s : State} (h : BlockLengths s) (hfin : UnitsFinished s) : BlockLengths (backStage s) := by
  obtain ⟨hfits, hphase, hwarn, hout⟩ := id h
  have hup : ∀ c : State, c.block = s.block → lUp c = lUp s := fun c hc => congrArg (phases * ·) hc
  cases ht : s.tick with
  | idle => rwa [backStage_of_idle ht]
  | stations todo =>
    obtain rfl := hfin todo ht
    have hnone := mixer_no_mismatch (hphase.unitsDone ht)
    have hstage : backStage s = { s with mixBuf := (mixer (lUp s) s.slots).1, tick := .mixed } := by
      rw [backStage, ht]; simp only [mixStage, hnone, setWarnIf, Bool.false_eq_true, if_false]
    rw [hstage]
    exact ⟨hfits, mixer_length _ _, hwarn, hout⟩
  | mixed =>
    have hstage : backStage s = noiseStage s := by rw [backStage, ht]
    rw [PhaseLengths, ht] at hphase
    rw [hstage]
    refine ⟨hfits, ?_, hwarn, hout⟩
    show (if _ then _ else s.mixBuf).length = lUp s
    split
    · rw [noiseAdd_length]; exact hphase
    · exact hphase
  | noised =>
    have hstage : backStage s = filterStage s := by rw [backStage, ht]
    rw [PhaseLengths, ht] at hphase
    rw [hstage]
    exact ⟨hfits, (rateFilter_length _ _).trans hphase, hwarn, hout⟩
  | filtered y =>
    have hstage : backStage s = decimateStage y s := by rw [backStage, ht]
    rw [PhaseLengths, ht] at hphase
    rw [hstage]
    refine ⟨hfits, ?_, hwarn, hout⟩
    show (decimate _ y).length ≤ lUp s
    rw [decimate_length, ← hphase]
    exact decimatedLen_le _ _
  | decimated d =>
    have hstage : backStage s = gainStage d s := by rw [backStage, ht]
    rw [PhaseLengths, ht] at hphase
    rw [hstage]
    exact ⟨hfits, (gainApply_length _ _ _).trans_le hphase, hwarn, hout⟩
  | gained o =>
    have hstage : backStage s = deliverStage o s := by rw [backStage, ht]
    rw [PhaseLengths, ht] at hphase
    rw [hstage]
    exact ⟨hfits, trivial, hwarn, (Nat.mul_le_mul_left 8 hphase).trans hfits⟩

theorem finishTick_lengths {s : State} (h : BlockLengths s) : BlockLengths (finishTick s) := by
  rw [finishTick_eq_iterate]
  exact (Function.Iterate.rec (fun u => BlockLengths u ∧ UnitsFinished u)
    ⟨finishStations_lengths h, finishStations_finished s⟩ (fun _ hu => ⟨backStage_lengths hu.1 hu.2, backStage_finished⟩)
    6).1

theorem beginTick_lengths {s : State} (h : BlockLengths s) : BlockLengths (beginTick s) :=
  ⟨h.fits, .of_stations rfl (unitsDone_begin s), h.warn, h.out⟩

/-! ## The invariant (R306, R326, R38, R89) -/

/-- The largest block fits the output window (R5, R89). -/
theorem lUp_fits {s : State} (hwf : s.par.wf = true) (h : LifeConsistent s) : 8 * lUp s ≤ 0x01000000 := by
  have hcfg : s.par.blockCfg ≤ 200000 := by
    simp only [Params.wf, Bool.and_eq_true, decide_eq_true_eq] at hwf
    omega
  have hblock : s.block ≤ s.par.blockCfg := by
    by_cases hl : s.life = .uninit
    · rw [(h.1 hl).1]; exact Nat.zero_le _
    · exact (h.block_eq hl).le
  rw [lUp, phases]
  omega

/-- What is carried from step to step; the output window's form is `step_wf`'s. -/
structure Buffered (s : State) : Prop where
  wf : s.par.wf = true
  life : LifeConsistent s
  phase : PhaseLengths s
  warn : s.warn &&& warnLenMismatch = 0#32
  out : 8 * s.outLen ≤ 0x01000000

theorem Buffered.lengths {s : State} (h : Buffered s) : BlockLengths s :=
  ⟨lUp_fits h.wf h.life, h.phase, h.warn, h.out⟩

theorem BlockLengths.buffered {s : State} (h : BlockLengths s) (hwf : s.par.wf = true) (hl : LifeConsistent s) :
    Buffered s := ⟨hwf, hl, h.phase, h.warn, h.out⟩

theorem initBody_outLen (s : State) : (initBody s).outLen = s.outLen := by
  rw [initBody, setWarnIf_outLen]

theorem initBody_buffered {s : State} (h : Buffered s) (hl : s.life = .uninit) : Buffered (initBody s) where
  wf := by rw [initBody, setWarnIf_par]; exact h.wf
  life := initBody_consistent h.life hl
  phase := .of_idle ((initBody_tick s).trans (h.life.tick_idle (by simp [hl])))
  warn := setWarnIf_lenMismatch _ (by decide) h.warn
  out := (initBody_outLen s).symm ▸ h.out

/-- What leaves the tick, the mix buffer and each slot's STATE and block alone carries it. -/
theorem Buffered.of_eq {s t : State} (hpar : t.par = s.par) (hlife : LifeConsistent t) (htick : t.tick = s.tick)
    (hblock : t.block = s.block) (hmix : t.mixBuf = s.mixBuf)
    (hslots : t.slots.map (fun sl => (sl.st.status, sl.st.out)) = s.slots.map fun sl => (sl.st.status, sl.st.out))
    (hwarn : t.warn &&& warnLenMismatch = 0#32) (hout : t.outLen = s.outLen) (h : Buffered s) : Buffered t :=
  (h.lengths.of_eq htick hblock hmix hslots hwarn hout).buffered (hpar ▸ h.wf) hlife

theorem writeGlobal_buffered (off : Nat) (v : Word32) {s : State} (h : Buffered s) : Buffered (writeGlobal off v s) := by
  have hcleared : ∀ m : Word32, (s.warn &&& m) &&& warnLenMismatch = 0#32 := by
    intro m
    rw [BitVec.and_assoc, BitVec.and_comm m, ← BitVec.and_assoc, h.warn, BitVec.zero_and]
  rcases writeGlobal_cases off v s with ⟨x, hx⟩ | hx | hx | hx | hx <;> rw [hx]
  · exact ⟨h.wf, h.life, h.phase, h.warn, h.out⟩
  · exact ⟨h.wf, h.life, h.phase, hcleared _, h.out⟩
  · exact ⟨h.wf, h.life, h.phase, h.warn, h.out⟩
  · exact ⟨h.wf, h.life, h.phase, h.warn, h.out⟩
  · exact h

theorem buffered_carried : StepCarries Buffered Buffered where
  complete _ _ _ h := ⟨h.wf, h.life, h.phase, h.warn, h.out⟩
  stay _ h := h
  noop s h := ⟨h.wf, h.life, h.phase, setWarnIf_lenMismatch (s := s) true (by decide) h.warn, h.out⟩
  init _ h hl := initBody_buffered h hl
  start s h hl := ⟨h.wf, life_carried.start s h.life hl, h.phase, h.warn, h.out⟩
  stop s h hl := by
    have hdone := finishTick_lengths h.lengths
    exact ⟨(finishTick_frame s).par ▸ h.wf, life_carried.stop s h.life hl, .of_idle (finishTick_tick s), hdone.warn,
      hdone.out⟩
  tick s h hl :=
    (finishTick_lengths (beginTick_lengths h.lengths)).buffered
      (((beginTick_frame s).trans (finishTick_frame _)).par ▸ h.wf) (life_carried.tick s h.life hl)
  reset s h := by
    have hwf : (if s.life = .running then stopTimer s else s).par.wf = true := by
      split
      · exact (finishTick_frame s).par ▸ h.wf
      · exact h.wf
    exact ⟨hwf, resetAll_consistent _, trivial, BitVec.zero_and, Nat.zero_le _⟩
  retune s f h := by
    refine .of_eq (s := s) rfl (life_carried.retune s f h.life) rfl rfl rfl ?_ h.warn rfl h
    rw [retuneAll_slots, List.map_map]
    refine List.map_congr_left fun sl _ => ?_
    rw [Function.comp_apply, retuneSlot]
    split <;> rfl
  gain s g h := h.of_eq (by simp) (life_carried.gain s g h.life) (by simp) (by simp) (by simp) (by simp)
    (by simpa using h.warn) (by simp)
  rate s r h := h.of_eq (by simp) (life_carried.rate s r h.life) (by simp) (by simp) (by simp) (by simp)
    (by simpa using h.warn) (by simp)
  noiseEn s en h := h.of_eq (by simp) (life_carried.noiseEn s en h.life) (by simp) (by simp) (by simp) (by simp)
    (by simpa using h.warn) (by simp)
  noiseSigma s x h := h.of_eq (by simp [regenerateNoise]) (life_carried.noiseSigma s x h.life)
    (by simp [regenerateNoise]) (by simp [regenerateNoise]) (by simp [regenerateNoise]) (by simp [regenerateNoise])
    (by simpa [regenerateNoise] using h.warn) (by simp [regenerateNoise])
  before _ _ h := ⟨h.wf, h.life, h.phase, h.warn, h.out⟩
  after _ _ h := ⟨h.wf, h.life, h.phase, h.warn, h.out⟩
  global _ off v h := writeGlobal_buffered off v h
  station s i off v h := by
    have hlife := life_carried.station s i off v h.life
    rcases writeStation_cases i off v s with ⟨sl, hl, _, hx⟩ | hx <;> rw [hx] at hlife ⊢
    · exact ⟨h.wf, hlife, .of_idle (h.life.tick_idle (by simp [hl])), h.warn, h.out⟩
    · exact h
  fire s lag h hl ht :=
    (beginTick_lengths (h.lengths.of_eq (t := rearmTimer (setWarnIf lag warnLag s)) (by simp) (by simp) (by simp)
      (by simp) (setWarnIf_lenMismatch lag (by decide) h.warn) (by simp))).buffered (by simpa using h.wf)
      (life_carried.fire s lag h.life hl ht)
  unit s todo i h ht hi := (runSlot_lengths h.lengths ht i).buffered ((runSlot_frame s i).par ▸ h.wf)
    (life_carried.unit s todo i h.life ht hi)
  back s h hfin := (backStage_lengths h.lengths hfin).buffered ((backStage_frame s).par ▸ h.wf)
    (life_carried.back s h.life hfin)

/-- Settles O54: the stage lengths from stage to stage, and OUT_BUF's form by `step_wf`. -/
theorem buffersStayConsistent : Obligations.BuffersStayConsistent := by
  intro s t hs ht
  obtain ⟨hwf, hlife, hphase, hwarn, hmem, hout⟩ := hs
  have h := step_carries buffered_carried ⟨hwf, hlife, hphase, hwarn, hout⟩ ht
  exact ⟨h.wf, h.life, h.phase, h.warn, step_wf hmem ht, h.out⟩

end Sys2Proof.Machine

/-! SUPPORT. What a tick in progress delivers (spec 44_backend.md R320; 40_commands.md R155, R157): the remaining stages,
each shared resource read old or new (R96). -/

namespace Sys2Proof.Machine

/-! ## One stage of the tick in progress -/

/-- The stages that a tick still has before it, its delivery among them (R320). -/
def stagesLeft : TickPhase → Nat
  | .idle => 0
  | .gained _ => 1
  | .decimated _ => 2
  | .filtered _ => 3
  | .noised => 4
  | .mixed => 5
  | .stations [] => 6
  | .stations (_ :: _) => 7

/-- A block that the stage's own reads lead to is one the tick in progress could deliver. -/
theorem Delivers.of_backStage {s : State} {o : List Cplx} (hleft : 2 ≤ stagesLeft s.tick) (hfin : UnitsFinished s)
    (h : Delivers (backStage s) o) : Delivers s o := by
  obtain ⟨en, hen, tab, htab, c, hc, n, hn, g, hg, ho⟩ := h
  cases ht : s.tick with
  | idle => simp [ht, stagesLeft] at hleft
  | stations todo =>
    obtain rfl := hfin todo ht
    have hstage : backStage s = mixStage s := by rw [backStage, ht]
    rw [hstage] at hen htab hc hn hg ho
    simp only [mixStage_noiseEn, mixStage_noiseTab, mixStage_rateCoef, mixStage_decim, mixStage_gainDb,
      mixStage_old] at hen htab hc hn hg
    refine ⟨en, hen, tab, htab, c, hc, n, hn, g, hg, ?_⟩
    rw [ho, pendingBlock, mixStage_tick, pendingBlock, ht]
    simp only [mixStage_par, mixStage_mixBuf, List.foldl_nil]
  | mixed =>
    have hstage : backStage s = noiseStage s := by rw [backStage, ht]
    rw [hstage] at hc hn hg ho
    refine ⟨_, readShared_mem s.noiseEn s.old.noiseEn s.env, _, readShared_mem s.noiseTab s.old.noiseTab
      (readShared s.noiseEn s.old.noiseEn s.env).2, c, hc, n, hn, g, hg, ?_⟩
    rw [ho, pendingBlock, pendingBlock, ht]
    rfl
  | noised =>
    have hstage : backStage s = filterStage s := by rw [backStage, ht]
    rw [hstage] at hen htab hn hg ho
    refine ⟨en, hen, tab, htab, _, readShared_mem s.rateCoef s.old.rateCoef s.env, n, hn, g, hg, ?_⟩
    rw [ho, pendingBlock, pendingBlock, ht]
    rfl
  | filtered y =>
    have hstage : backStage s = decimateStage y s := by rw [backStage, ht]
    rw [hstage] at hen htab hc hg ho
    refine ⟨en, hen, tab, htab, c, hc, _, readShared_mem s.decim s.old.decim s.env, g, hg, ?_⟩
    rw [ho, pendingBlock, pendingBlock, ht]
    rfl
  | decimated d =>
    have hstage : backStage s = gainStage d s := by rw [backStage, ht]
    rw [hstage] at hen htab hc hn ho
    refine ⟨en, hen, tab, htab, c, hc, n, hn, _, readShared_mem s.gainDb s.old.gainDb s.env, ?_⟩
    rw [ho, pendingBlock, pendingBlock, ht]
    rfl
  | gained o => simp [ht, stagesLeft] at hleft

/-- The station units run before the barrier read no resource of the engine. -/
theorem Delivers.of_finishStations {s : State} {o : List Cplx} (h : Delivers (finishStations s) o) : Delivers s o := by
  cases ht : s.tick with
  | stations todo =>
    have hfs : finishStations s = { todo.foldl runSlot s with tick := .stations [] } := by rw [finishStations, ht]
    have hf := foldl_runSlot_frame todo s
    have hold : (todo.foldl runSlot s).old = s.old :=
      List.foldlRecOn (motive := fun u => u.old = s.old) todo runSlot rfl
        (fun u hu i _ => (runSlot_engine u i).2.2.2.2.2.1.trans hu)
    obtain ⟨en, hen, tab, htab, c, hc, n, hn, g, hg, ho⟩ := h
    rw [hfs] at hen htab hc hn hg ho
    dsimp only at hen htab hc hn hg
    rw [hold, hf.noiseEn] at hen
    rw [hold, hf.noiseTab] at htab
    rw [hold, hf.rateCoef] at hc
    rw [hold, hf.decim] at hn
    rw [hold, hf.gainDb] at hg
    refine ⟨en, hen, tab, htab, c, hc, n, hn, g, hg, ?_⟩
    rw [ho, pendingBlock, pendingBlock, ht]
    simp only [List.foldl_nil, lUp, hf.par, hf.block]
  | _ => simpa only [finishStations, ht] using h

/-! ## The tick run to its delivery -/

/-- `t` is `s` after its tick has delivered the block `o`, and no other (R348). -/
structure DeliveredFrom (s t : State) (o : List Cplx) : Prop where
  tick : t.tick = .idle
  delivered : t.env.delivered = s.env.delivered ++ [o]
  outLen : t.outLen = o.length
  outBuf : t.outBuf = o.map outSample
  tickCount : t.tickCount = s.tickCount + 1#32
  pend : t.irqPend.getLsbD 0 = true

/-- What comes before the delivery delivers nothing. -/
theorem DeliveredFrom.of_before {s u t : State} {o : List Cplx} (h : DeliveredFrom u t o)
    (hdelivered : u.env.delivered = s.env.delivered) (hcount : u.tickCount = s.tickCount) : DeliveredFrom s t o :=
  ⟨h.tick, hdelivered ▸ h.delivered, h.outLen, h.outBuf, hcount ▸ h.tickCount, h.pend⟩

theorem deliverStage_deliveredFrom (o : List Cplx) (s : State) : DeliveredFrom s (deliverStage o s) o := by
  refine ⟨rfl, rfl, rfl, rfl, rfl, ?_⟩
  rw [deliverStage_irqPend, BitVec.getLsbD_or]
  exact Bool.or_true _

/-- A stage before the delivery moves the tick on by one and delivers nothing. -/
theorem backStage_progress {s : State} (hleft : 2 ≤ stagesLeft s.tick) (hfin : UnitsFinished s) :
    stagesLeft (backStage s).tick + 1 = stagesLeft s.tick ∧ (backStage s).env.delivered = s.env.delivered ∧
      (backStage s).tickCount = s.tickCount := by
  cases ht : s.tick with
  | idle => simp [ht, stagesLeft] at hleft
  | stations todo =>
    obtain rfl := hfin todo ht
    rw [backStage, ht]; simp [stagesLeft]
  | mixed => rw [backStage, ht]; simp [stagesLeft, noiseStage]
  | noised => rw [backStage, ht]; simp [stagesLeft, filterStage]
  | filtered y => rw [backStage, ht]; simp [stagesLeft, decimateStage]
  | decimated d => rw [backStage, ht]; simp [stagesLeft, gainStage]
  | gained o => simp [ht, stagesLeft] at hleft

/-- Stage after stage, a tick in progress delivers exactly one block, and it is one of those R96 allows. -/
theorem backStages_deliver (n : Nat) {s : State} (hfin : UnitsFinished s) (hpos : 1 ≤ stagesLeft s.tick)
    (hleft : stagesLeft s.tick ≤ n) : ∃ o, Delivers s o ∧ DeliveredFrom s (backStage^[n] s) o := by
  induction n generalizing s with
  | zero => omega
  | succ n ih =>
    rw [Function.iterate_succ_apply]
    rcases Nat.lt_or_ge (stagesLeft s.tick) 2 with hlast | hmore
    · obtain ⟨o, ho⟩ : ∃ o, s.tick = .gained o := by
        cases ht : s.tick with
        | gained o => exact ⟨o, rfl⟩
        | stations todo => obtain rfl := hfin todo ht; simp [ht, stagesLeft] at hlast
        | _ => simp [ht, stagesLeft] at hlast hpos
      have hstage : backStage s = deliverStage o s := by rw [backStage, ho]
      rw [hstage, Function.iterate_fixed (backStage_of_idle (deliverStage_tick o s))]
      refine ⟨o, ⟨s.noiseEn, List.mem_cons_self, s.noiseTab, List.mem_cons_self, s.rateCoef, List.mem_cons_self, s.decim,
        List.mem_cons_self, s.gainDb, List.mem_cons_self, ?_⟩, deliverStage_deliveredFrom o s⟩
      rw [pendingBlock, ho]
    · obtain ⟨hstep, hdelivered, hcount⟩ := backStage_progress hmore hfin
      obtain ⟨o, ho, hdone⟩ := ih (s := backStage s) backStage_finished (by omega) (by omega)
      exact ⟨o, ho.of_backStage hmore hfin, hdone.of_before hdelivered hcount⟩

theorem finishStations_progress {s : State} (h : s.tick ≠ .idle) :
    1 ≤ stagesLeft (finishStations s).tick ∧ stagesLeft (finishStations s).tick ≤ 6 ∧
      (finishStations s).env.delivered = s.env.delivered ∧ (finishStations s).tickCount = s.tickCount := by
  cases ht : s.tick with
  | idle => exact absurd ht h
  | stations todo =>
    have hfs : finishStations s = { todo.foldl runSlot s with tick := .stations [] } := by rw [finishStations, ht]
    rw [hfs]
    refine ⟨by simp [stagesLeft], by simp [stagesLeft], ?_⟩
    exact List.foldlRecOn (motive := fun u => u.env.delivered = s.env.delivered ∧ u.tickCount = s.tickCount) todo runSlot
      ⟨rfl, rfl⟩ fun u hu i _ => by
        obtain ⟨-, -, -, -, hcount, -, hdelivered, -⟩ := runSlot_engine u i
        exact ⟨hdelivered.trans hu.1, hcount.trans hu.2⟩
  | _ => simp [finishStations, ht, stagesLeft]

/-- A tick in progress, run to its end, delivers exactly one block (R155, R320). -/
theorem finishTick_delivers {s : State} (h : s.tick ≠ .idle) : ∃ o, Delivers s o ∧ DeliveredFrom s (finishTick s) o := by
  obtain ⟨hpos, hleft, hdelivered, hcount⟩ := finishStations_progress h
  obtain ⟨o, ho, hdone⟩ := backStages_deliver 6 (finishStations_finished s) hpos hleft
  exact ⟨o, ho.of_finishStations, hdone.of_before hdelivered hcount⟩

theorem finishTick_of_idle {s : State} (h : s.tick = .idle) : finishTick s = s := by
  have hfs : finishStations s = s := by rw [finishStations, h]
  rw [finishTick_eq_iterate, hfs, Function.iterate_fixed (backStage_of_idle h)]

/-! ## STOP (R155) and RESET (R157) -/

/-- A lifecycle no-op, field by field (R382). -/
theorem lifecycleNoop_eq (i : Instr) (s : State) :
    lifecycleNoop i s = { s with
      warn := s.warn ||| 0x4#32
      cmdStatus := 0#16 ++ i.opcode ++ 0x05#8
      irqPend := (if s.warn &&& 0x4#32 = 0#32 then s.irqPend ||| 0x8#32 else s.irqPend) ||| 0x2#32 } := rfl

/-- Settles O14: without a tick the timer alone is cancelled; a tick is run to its delivery first; else the no-op. -/
theorem stopCancelsTheTimer : Obligations.StopCancelsTheTimer := by
  intro s
  refine ⟨fun hl ht => ?noTick, fun hl ht => ?inTick, fun hl => ?noop⟩
  case noTick =>
    rw [exec_stop_of_running hl, stopTimer, finishTick_of_idle ht]
    rfl
  case inTick =>
    obtain ⟨o, ho, hdone⟩ := finishTick_delivers ht
    have hf := finishTick_frame s
    refine ⟨_, o, exec_stop_of_running hl, ho, rfl, rfl, hdone.tick, hdone.delivered, hdone.outLen, hdone.outBuf,
      hdone.tickCount, ?block, ?done, rfl, hf.centerFreq, hf.gainDb, hf.sampleRate, hf.decim, hf.rateCoef, hf.noiseEn,
      hf.noiseSigma, hf.noiseTab, hf.block, hf.arg0, hf.irqEn, hf.par, finishTick_kept s⟩
    case block =>
      rw [complete_irqPend, BitVec.getLsbD_or]
      exact Bool.or_eq_true_iff.mpr (.inl hdone.pend)
    case done =>
      rw [complete_irqPend, BitVec.getLsbD_or]
      exact Bool.or_true _
  case noop => rw [exec_stop_of_ne_running hl, lifecycleNoop_eq]; rfl

/-- The state that RESET clears: in RUNNING the timer is stopped and its tick delivered first (R157). -/
def resetSource (s : State) : State := if s.life = .running then stopTimer s else s

theorem resetSource_par (s : State) : (resetSource s).par = s.par := by
  rw [resetSource]
  split
  · exact (finishTick_frame s).par
  · rfl

theorem resetSource_slots_length (s : State) : (resetSource s).slots.length = s.slots.length := by
  rw [resetSource]
  split
  · exact (finishTick_frame s).nSlots
  · rfl

theorem resetSource_of_running {s : State} (h : s.life = .running) :
    resetSource s = { finishTick s with nextDeadline := none } := if_pos h

/-- Where no tick is in progress, RESET finds the world and the slots as they were. -/
theorem resetSource_of_noTick {s : State} (h : s.life ≠ .running ∨ s.tick = .idle) :
    (resetSource s).env = s.env ∧ (resetSource s).slots = s.slots := by
  by_cases hl : s.life = .running
  · rw [resetSource_of_running hl, finishTick_of_idle (h.resolve_left (not_not_intro hl))]
    exact ⟨rfl, rfl⟩
  · rw [resetSource, if_neg hl]
    exact ⟨rfl, rfl⟩

/-- The values of R410's table for a slot, one by one. -/
theorem stationAtReset_fresh (p : Params) : StationAtReset p (Station.fresh p) := by
  refine ⟨rfl, rfl, rfl, rfl, rfl, ?bufs, rfl, rfl, rfl, ?texts, rfl, rfl, rfl, rfl, ?hist, rfl, rfl, rfl⟩
  case bufs => intro b hb; simp [Station.fresh] at hb; exact hb
  case texts => intro b hb; simp [Station.fresh] at hb; exact hb
  case hist => intro h hh; exact List.eq_of_mem_replicate hh

theorem resetAll_slots (s : State) :
    (resetAll s).slots = s.slots.map fun sl => { sl with st := Station.fresh s.par } := rfl

theorem resetAll_slots_fresh (s : State) :
    ∀ sl ∈ (resetAll s).slots, sl.st = Station.fresh s.par ∧ StationAtReset s.par sl.st := by
  intro sl hsl
  obtain ⟨x, -, rfl⟩ := List.mem_map.mp hsl
  exact ⟨rfl, stationAtReset_fresh s.par⟩

/-- With nothing enabled the interrupt output is low (R380). -/
theorem irqLine_of_none_enabled {s : State} (h : s.irqEn = 0#32) : irqLine s = false := by
  rw [irqLine, h, BitVec.and_zero, BitVec.zero_and]
  rfl

/-- Settles O17: every field by R410's table over the parameters, which RESET keeps; a tick delivers its block first. -/
theorem resetRestoresResetState : Obligations.ResetRestoresResetState := by
  intro s
  have hpar := resetSource_par s
  have hrate : rateCoeffs (resetSource s).par 1 = rateCoeffs s.par 1 := by rw [hpar]
  have hnoise : List.replicate (resetSource s).par.noiseLen Cplx.zero = List.replicate s.par.noiseLen Cplx.zero := by
    rw [hpar]
  refine ⟨complete (Instr.opcode .reset) .ok (resetAll (resetSource s)), exec_reset s, rfl, rfl, rfl, rfl, ?pend, rfl, rfl,
    rfl, rfl, rfl, congrArg Params.cf0 hpar, rfl, rfl, rfl, hrate, rfl, rfl, hnoise, rfl, rfl, ?length, ?fresh, ?line,
    hpar, fun hnone => ?world, fun hl ht => ?delivers⟩
  case pend => exact BitVec.zero_or
  case length => exact (List.length_map _).trans (resetSource_slots_length s)
  case fresh => rw [← hpar]; exact resetAll_slots_fresh (resetSource s)
  case line => exact irqLine_of_none_enabled rfl
  case world =>
    obtain ⟨henv, hslots⟩ := resetSource_of_noTick hnone
    refine ⟨henv, ?_⟩
    rw [complete_slots, resetAll_slots, hslots, List.map_map]
    rfl
  case delivers =>
    obtain ⟨o, ho, hdone⟩ := finishTick_delivers ht
    have henv : (resetSource s).env = (finishTick s).env := by rw [resetSource_of_running hl]
    refine ⟨o, ho, ?_, ?_⟩
    · show (resetSource s).env.delivered = _
      rw [henv]; exact hdone.delivered
    · show (resetSource s).env.inbox = _
      rw [henv]; exact (finishTick_frame s).inbox

end Sys2Proof.Machine

/-! SUPPORT. The station units of one tick, whatever their order, and the whole of a TICK (spec 20_memory.md R98;
40_commands.md R156; 44_backend.md R320). -/

namespace Sys2Proof.Machine

/-! ## Units where no retune fell within the tick (R98, R303) -/

/-- The run of slot `k` with the tuning that stands. -/
def unitRun (s : State) (k : Nat) (sl : Slot) : Slot × Bool := stationRun s.par k s.block sl.st.tuning sl

theorem unitRun_frame (s : State) (k : Nat) (sl : Slot) : StationFrame sl.st (unitRun s k sl).1.st := by
  rw [unitRun]
  exact stationRun_frame s.par k s.block sl.st.tuning sl

/-- Whether the run of slot `k` faults. -/
def unitFault (s : State) (k : Nat) : Bool := (s.slots[k]?).elim false fun sl => (unitRun s k sl).2

/-- The state after the units of the slots in `l`, said without their order. -/
def afterUnits (s : State) (l : List Nat) : State :=
  setWarnIf (l.any (unitFault s)) warnStationFault
    { s with slots := s.slots.mapIdx fun k sl => if k ∈ l then (unitRun s k sl).1 else sl }

/-- No slot has a replaced tuning to read. -/
abbrev NoRetune (s : State) : Prop := ∀ sl ∈ s.slots, sl.st.tuneOld = []

theorem runSlot_of_noRetune {s : State} {i : Nat} {sl : Slot} (h : s.slots[i]? = some sl) (ht : sl.st.tuneOld = []) :
    runSlot s i = setWarnIf (unitFault s i) warnStationFault { s with slots := s.slots.set i (unitRun s i sl).1 } := by
  rw [runSlot_of_some h, ht, readShared_nil, unitFault, h]
  rfl

theorem runSlot_noRetune {s : State} (h : NoRetune s) (i : Nat) : NoRetune (runSlot s i) := by
  cases hsl : s.slots[i]? with
  | none => rwa [runSlot_of_none hsl]
  | some sl =>
    have ht := h sl (List.mem_of_getElem? hsl)
    rw [runSlot_of_noRetune hsl ht, NoRetune, setWarnIf_slots]
    intro x hx
    rcases List.mem_or_eq_of_mem_set hx with hx | hx
    · exact h x hx
    · rw [hx]; exact (unitRun_frame s i sl).tuneOld.trans ht

/-- Two warnings of one bit are one warning: the pending bit is set when the warning bit first is (R382). -/
theorem setWarnIf_setWarnIf (c d : Bool) (b : Word32) (s : State) :
    setWarnIf c b (setWarnIf d b s) = setWarnIf (d || c) b s := by
  cases c with
  | false => rw [Bool.or_false]; rfl
  | true =>
    cases d with
    | false => rfl
    | true =>
      by_cases h : s.warn &&& b = 0#32
      · simp only [Bool.true_or, setWarnIf, setWarn, if_true, h, BitVec.or_assoc, BitVec.or_self]
        split <;> rfl
      · have hset : (s.warn ||| b) &&& b ≠ 0#32 := by
          have hkeep : (s.warn ||| b) &&& b = b := by ext k hk; simpa using .inr
          rw [hkeep]
          rintro rfl
          exact h BitVec.and_zero
        simp only [Bool.true_or, setWarnIf, setWarn, if_true, h, hset, if_false, BitVec.or_assoc, BitVec.or_self]

theorem afterUnits_nil (s : State) : afterUnits s [] = s := by
  have hslots : (s.slots.mapIdx fun _ sl => sl) = s.slots := List.ext_getElem (by simp) (by simp)
  simp [afterUnits, setWarnIf, hslots]

/-- A unit leaves every other slot as it was, and what the others' runs depend on. -/
theorem unitFault_runSlot {s : State} {i k : Nat} (hne : k ≠ i) : unitFault (runSlot s i) k = unitFault s k := by
  have hrun : unitRun (runSlot s i) k = unitRun s k := by
    funext sl
    rw [unitRun, unitRun, (runSlot_frame s i).par, (runSlot_frame s i).block]
  have hslot : (runSlot s i).slots[k]? = s.slots[k]? := by
    cases hsl : s.slots[i]? with
    | none => rw [runSlot_of_none hsl]
    | some sl => rw [runSlot_of_some hsl, setWarnIf_slots, List.getElem?_set_ne hne.symm]
  rw [unitFault, unitFault, hrun, hslot]

/-- The first unit and then the rest are the units of the whole list. -/
theorem afterUnits_cons {s : State} (h : NoRetune s) {i : Nat} {is : List Nat} (hi : i ∉ is) :
    afterUnits (runSlot s i) is = afterUnits s (i :: is) := by
  cases hsl : s.slots[i]? with
  | none =>
    have hlen : s.slots.length ≤ i := List.getElem?_eq_none_iff.mp hsl
    have hslots : (s.slots.mapIdx fun k sl => if k ∈ is then (unitRun s k sl).1 else sl) =
        s.slots.mapIdx fun k sl => if k ∈ i :: is then (unitRun s k sl).1 else sl := by
      refine List.ext_getElem (by simp) fun k hk _ => ?_
      have hne : k ≠ i := by simp at hk; omega
      simp [hne]
    rw [runSlot_of_none hsl, afterUnits, afterUnits, hslots, List.any_cons]
    simp [unitFault, hsl]
  | some sl =>
    have ht := h sl (List.mem_of_getElem? hsl)
    have hin : i < s.slots.length := (List.getElem?_eq_some_iff.mp hsl).1
    have hself : s.slots[i] = sl := (List.getElem?_eq_some_iff.mp hsl).2
    have hfault : is.any (unitFault (runSlot s i)) = is.any (unitFault s) := by
      rw [Bool.eq_iff_iff, List.any_eq_true, List.any_eq_true]
      refine exists_congr fun k => and_congr_right fun hk => ?_
      rw [unitFault_runSlot (by rintro rfl; exact hi hk)]
    have hslots : ((runSlot s i).slots.mapIdx fun k sl => if k ∈ is then (unitRun (runSlot s i) k sl).1 else sl) =
        s.slots.mapIdx fun k sl => if k ∈ i :: is then (unitRun s k sl).1 else sl := by
      have hrun : unitRun (runSlot s i) = unitRun s := by
        funext k sl
        rw [unitRun, unitRun, (runSlot_frame s i).par, (runSlot_frame s i).block]
      rw [hrun, runSlot_of_noRetune hsl ht, setWarnIf_slots]
      refine List.ext_getElem (by simp) fun k hk _ => ?_
      rw [List.getElem_mapIdx, List.getElem_mapIdx, List.getElem_set]
      by_cases hki : i = k
      · subst hki; simp [hi, hself]
      · simp [hki, Ne.symm hki]
    rw [afterUnits, hfault, hslots, runSlot_of_noRetune hsl ht, afterUnits, List.any_cons, ← setWarnIf_setWarnIf]
    cases unitFault s i <;> rfl

theorem foldl_runSlot_eq {l : List Nat} (hl : l.Nodup) {s : State} (h : NoRetune s) :
    l.foldl runSlot s = afterUnits s l := by
  induction l generalizing s with
  | nil => exact (afterUnits_nil s).symm
  | cons i is ih =>
    obtain ⟨hi, his⟩ := List.nodup_cons.mp hl
    rw [List.foldl_cons, ih his (runSlot_noRetune h i), afterUnits_cons h hi]

/-- Settles O42: `afterUnits` asks of a slot only whether it is among the units. -/
theorem stationOrderUnobservable : Obligations.StationOrderUnobservable := by
  intro s l l' hl hperm h
  rw [foldl_runSlot_eq hl h, foldl_runSlot_eq (hperm.nodup_iff.mp hl) h, afterUnits, afterUnits, hperm.any_eq]
  simp only [hperm.mem_iff]

end Sys2Proof.Machine

/-! SUPPORT. The TICK command from its stages (spec 40_commands.md R156; 44_backend.md R320), and the silence of a block
without stations (R327). -/

namespace Sys2Proof.Machine

/-! ## The engine stages where nothing was replaced (R320) -/

/-- The mix with its noise, where NOISE_EN is 1 (R330). -/
def noisyMix (s : State) (mix : List Cplx) : List Cplx :=
  if s.noiseEn then noiseAdd s.par.noiseLen s.noiseTab mix else mix

/-- The state after a tick that delivers the block made of the noisy mix `m`. -/
def tickDone (s : State) (m : List Cplx) : State :=
  deliverStage (engineBlock s.par s.rateCoef s.decim s.gainDb m) { s with mixBuf := m }

/-- Past the barrier the engine reads what stands, and delivers. -/
theorem backStages_of_mixed {s : State} (ht : s.tick = .mixed) (hold : s.old = Replaced.none) :
    backStage^[5] s = tickDone s (noisyMix s s.mixBuf) := by
  have hen : s.old.noiseEn = [] := by rw [hold]; rfl
  have htab : s.old.noiseTab = [] := by rw [hold]; rfl
  have hcoef : s.old.rateCoef = [] := by rw [hold]; rfl
  have hdecim : s.old.decim = [] := by rw [hold]; rfl
  have hgain : s.old.gainDb = [] := by rw [hold]; rfl
  have hnoise : backStage s = { s with mixBuf := noisyMix s s.mixBuf, tick := .noised } := by
    simp only [backStage, ht, noiseStage, hen, htab, readShared_nil, noisyMix]
  have hback : ∀ m, backStage^[4] { s with mixBuf := m, tick := .noised } = tickDone s m := by
    intro m
    simp only [Function.iterate_succ_apply, Function.iterate_zero_apply, backStage, filterStage, decimateStage, gainStage,
      hcoef, hdecim, hgain, readShared_nil]
    rfl
  rw [Function.iterate_succ_apply, hnoise, hback]

/-- A tick none of whose resources was replaced: its units, the mix, and the engine's block. -/
theorem finishTick_of_stations {s : State} {todo : List Nat} (ht : s.tick = .stations todo)
    (hold : (todo.foldl runSlot s).old = Replaced.none)
    (hmix : (mixer (lUp (todo.foldl runSlot s)) (todo.foldl runSlot s).slots).2 = false) :
    finishTick s = tickDone (todo.foldl runSlot s)
      (noisyMix (todo.foldl runSlot s) (mixer (lUp (todo.foldl runSlot s)) (todo.foldl runSlot s).slots).1) := by
  have hfs : finishStations s = { todo.foldl runSlot s with tick := .stations [] } := by rw [finishStations, ht]
  generalize todo.foldl runSlot s = u at *
  have hstage : backStage { u with tick := .stations [] } =
      { u with mixBuf := (mixer (lUp u) u.slots).1, tick := .mixed } := by
    have hmix' : (mixer (lUp { u with tick := .stations [] }) u.slots).2 = false := hmix
    simp only [backStage, mixStage, hmix', setWarnIf, Bool.false_eq_true, if_false]
    rfl
  rw [finishTick_eq_iterate, hfs, Function.iterate_succ_apply, hstage]
  exact backStages_of_mixed (s := { u with mixBuf := (mixer (lUp u) u.slots).1, tick := .mixed }) rfl hold

/-! ## TICK (R156) -/

/-- A slot of the block with nothing to read of an earlier tuning. -/
def clearRetune (sl : Slot) : Slot := { sl with st := { sl.st with tuneOld := [] } }

theorem beginTick_slots (s : State) : (beginTick s).slots = s.slots.map clearRetune := rfl

theorem beginTick_noRetune (s : State) : NoRetune (beginTick s) := by
  intro sl hsl
  obtain ⟨x, -, rfl⟩ := List.mem_map.mp hsl
  rfl

theorem activeSlots_nodup (s : State) : (activeSlots s).Nodup := List.nodup_range.filter _

theorem mem_activeSlots_of_getElem {s : State} {k : Nat} (hk : k < s.slots.length) :
    k ∈ activeSlots s ↔ s.slots[k].st.status = .active := by
  rw [mem_activeSlots_iff]
  simp [List.getElem?_eq_getElem hk, Station.active]

/-- What a tick makes of slot `k`: an active station runs, with its tuning (R303). -/
def tickRun (s : State) (k : Nat) (sl : Slot) : Slot × Bool :=
  if sl.st.status = .active then stationRun s.par k s.block sl.st.tuning (clearRetune sl) else (clearRetune sl, false)

theorem tickUnits_slots (s : State) :
    ((beginTick s).slots.mapIdx fun k sl => if k ∈ activeSlots s then (unitRun (beginTick s) k sl).1 else sl) =
      (s.slots.mapIdx (tickRun s)).map fun r => r.1 := by
  refine List.ext_getElem (by simp [beginTick_slots]) fun k hk _ => ?_
  have hk' : k < s.slots.length := by simpa [beginTick_slots] using hk
  simp only [List.getElem_mapIdx, List.getElem_map, beginTick_slots, mem_activeSlots_of_getElem hk', tickRun]
  split <;> rfl

theorem tickUnits_fault (s : State) :
    (activeSlots s).any (unitFault (beginTick s)) = (s.slots.mapIdx (tickRun s)).any fun r => r.2 := by
  have hfault : ∀ (k : Nat) (hk : k < s.slots.length), s.slots[k].st.status = .active →
      unitFault (beginTick s) k = (tickRun s k s.slots[k]).2 := by
    intro k hk hact
    rw [unitFault, beginTick_slots, List.getElem?_map, List.getElem?_eq_getElem hk, tickRun, if_pos hact]
    rfl
  rw [Bool.eq_iff_iff, List.any_eq_true, List.any_eq_true]
  constructor
  · rintro ⟨k, hk, hf⟩
    obtain ⟨sl, hsl, -⟩ := mem_activeSlots_iff.mp hk
    obtain ⟨hlt, -⟩ := List.getElem?_eq_some_iff.mp hsl
    refine ⟨_, List.mem_mapIdx.mpr ⟨k, hlt, rfl⟩, ?_⟩
    rw [← hfault k hlt ((mem_activeSlots_of_getElem hlt).mp hk)]; exact hf
  · rintro ⟨r, hr, hf⟩
    obtain ⟨k, hlt, rfl⟩ := List.mem_mapIdx.mp hr
    have hact : s.slots[k].st.status = .active := by
      by_contra hne
      rw [tickRun, if_neg hne] at hf
      cases hf
    exact ⟨k, (mem_activeSlots_of_getElem hlt).mpr hact, (hfault k hlt hact).trans hf⟩

/-- The units of a TICK, slot by slot. -/
theorem tickUnits_eq (s : State) :
    (activeSlots s).foldl runSlot (beginTick s) =
      setWarnIf ((s.slots.mapIdx (tickRun s)).any fun r => r.2) warnStationFault
        { beginTick s with slots := (s.slots.mapIdx (tickRun s)).map fun r => r.1 } := by
  rw [foldl_runSlot_eq (activeSlots_nodup s) (beginTick_noRetune s), afterUnits, tickUnits_fault, tickUnits_slots]

theorem tickBody_eq (s : State) :
    tickBody s =
      let u := (activeSlots s).foldl runSlot (beginTick s)
      tickDone u (noisyMix u (mixer (lUp u) u.slots).1) := by
  refine finishTick_of_stations (beginTick_tick s) ?_ (mixer_no_mismatch (unitsDone_foldl (unitsDone_begin s)))
  rw [tickUnits_eq, setWarnIf_old]
  rfl

theorem tickRun_kept (s : State) (k : Nat) (sl : Slot) : (tickRun s k sl).1.st.kept = sl.st.kept := by
  rw [tickRun]
  split
  · exact (stationRun_frame _ _ _ _ _).kept
  · rfl

/-- The slots' runs of a TICK. -/
def tickRuns (s : State) : List (Slot × Bool) := s.slots.mapIdx (tickRun s)

/-- The mix of a TICK, with its noise. -/
def tickMix (s : State) : List Cplx := noisyMix s (mixer (10 * s.block) ((tickRuns s).map fun r => r.1)).1

/-- The block that a TICK delivers. -/
def tickBlock (s : State) : List Cplx := engineBlock s.par s.rateCoef s.decim s.gainDb (tickMix s)

/-- TICK from IDLE, field by field. -/
theorem exec_tick_state {s : State} (hl : s.life = .idle) :
    exec .tick s = .next { s with
      slots := (tickRuns s).map fun r => r.1
      mixBuf := tickMix s
      tick := .idle
      old := Replaced.none
      outBuf := (tickBlock s).map outSample
      outLen := (tickBlock s).length
      tickCount := s.tickCount + 1#32
      warn := if (tickRuns s).any fun r => r.2 then s.warn ||| warnStationFault else s.warn
      irqPend := ((if ((tickRuns s).any fun r => r.2) = true ∧ s.warn &&& warnStationFault = 0#32
        then s.irqPend ||| irqWarn else s.irqPend) ||| irqBlock) ||| irqCmdDone
      cmdStatus := 0#16 ++ Instr.opcode .tick ++ 0x00#8
      env := { s.env with delivered := s.env.delivered ++ [tickBlock s] } } := by
  rw [exec_tick_of_idle hl, tickBody_eq]
  dsimp only
  rw [tickUnits_eq, ← tickRuns]
  cases hfault : (tickRuns s).any fun r => r.2 with
  | false => rfl
  | true =>
    simp only [true_and, if_true]
    rfl

theorem tickMix_length (s : State) : (tickMix s).length = 10 * s.block := by
  rw [tickMix, noisyMix]
  split
  · rw [noiseAdd_length, mixer_length]
  · rw [mixer_length]

/-- Settles O15: the units slot by slot, then the engine's stages over what stands; from another LIFE the no-op. -/
theorem tickDeliversOneBlock : Obligations.TickDeliversOneBlock := by
  intro s
  refine ⟨fun hl => ⟨?state, ?length, ?kept⟩, fun hl => ?noop⟩
  case state =>
    rw [exec_tick_state hl, BitVec.or_assoc]
    rfl
  case length =>
    show (tickBlock s).length = _
    rw [tickBlock, engineBlock, gainApply_length, decimate_length, rateFilter_length, tickMix_length]
    rfl
  case kept =>
    refine List.ext_getElem (by simp) fun k hk _ => ?_
    rw [List.getElem_map, List.getElem_mapIdx, List.getElem_map]
    exact tickRun_kept s k _
  case noop => rw [exec_tick_of_ne_idle hl, lifecycleNoop_eq]; rfl

end Sys2Proof.Machine

namespace Sys2Proof

/-! ## Sums with zeros (R7, R8) -/

theorem F64.isZero_zero : F64.zero.isZero = true := by decide

/-- A finite value times `+0.0` adds nothing to `+0.0`. -/
theorem F64.zero_add_mul_zero {a : F64} (ha : a.isFinite = true) : F64.zero.add (a.mul F64.zero) = F64.zero := by
  have hprod := F64.mul_zero_right a F64.zero ha F64.isZero_zero
  have hzero : (a.mul F64.zero).isZero = true := by
    rw [hprod, F64.isZero, F64.mag_ofSignMag _ _ (by decide)]; rfl
  rw [F64.zero_add _ (F64.isFinite_of_isZero hzero), if_pos hzero]

/-- A non-negative finite value times `+0.0` is `+0.0`. -/
theorem F64.mul_zero_of_nonneg {a : F64} (ha : a.isFinite = true) (hs : a.sign = false) :
    a.mul F64.zero = F64.zero := by
  rw [F64.mul_zero_right a F64.zero ha F64.isZero_zero, hs]
  decide

theorem Cplx.zero_add_scale_zero {c : F64} (hc : c.isFinite = true) :
    Cplx.zero.add (Cplx.scale c Cplx.zero) = Cplx.zero := by
  show Cplx.mk (F64.zero.add (c.mul F64.zero)) (F64.zero.add (c.mul F64.zero)) = Cplx.zero
  rw [F64.zero_add_mul_zero hc]
  rfl

theorem Cplx.scale_zero_of_nonneg {c : F64} (hc : c.isFinite = true) (hs : c.sign = false) :
    Cplx.scale c Cplx.zero = Cplx.zero := by
  show Cplx.mk (c.mul F64.zero) (c.mul F64.zero) = Cplx.zero
  rw [F64.mul_zero_of_nonneg hc hs]
  rfl

theorem F64.eq_self {x : F64} (h : x.isFinite = true) : x.eq x = true := by
  simp [F64.eq, F64.isNaN_of_isFinite h]

/-- `+0.0 + c` is `c` as a value: both zeros compare equal. -/
theorem F64.zero_add_eq {x : F64} (h : x.isFinite = true) : (F64.zero.add x).eq x = true := by
  rw [F64.zero_add x h]
  split
  · next hz =>
    have hmag : x.mag = 0 := by simpa [F64.isZero] using hz
    have hkey : x.key = 0 := by rw [F64.key, hmag]; split <;> rfl
    have hkey0 : F64.zero.key = 0 := by decide
    simp [F64.eq, F64.isNaN_of_isFinite h, F64.isNaN_of_isFinite (F64.isFinite_of_isZero F64.isZero_zero), hkey, hkey0]
  · exact F64.eq_self h

theorem F64.toF32_zero : F64.zero.toF32 = 0#32 := by decide +kernel

end Sys2Proof

namespace Sys2Proof.Machine

/-! ## Silence (R327) -/

/-- The filter's sum over zeros is zero, whatever the signs of the coefficients. -/
theorem firSum_of_zeros {c : List F64} {h : List Cplx} (hc : ∀ x ∈ c, x.isFinite = true) (hh : ∀ z ∈ h, z = Cplx.zero) :
    firSum c h = Cplx.zero := by
  refine List.foldlRecOn (motive := fun acc => acc = Cplx.zero) (c.zip h) _ rfl fun acc hacc ch hch => ?_
  obtain ⟨hx, hz⟩ := List.of_mem_zip hch
  rw [hacc, hh _ hz, Cplx.zero_add_scale_zero (hc _ hx)]

theorem rateFilterFrom_of_zeros {c : List F64} (hc : ∀ x ∈ c, x.isFinite = true) (n : Nat) (past : List Cplx)
    (hpast : ∀ z ∈ past, z = Cplx.zero) :
    rateFilterFrom c past (List.replicate n Cplx.zero) = List.replicate n Cplx.zero := by
  induction n generalizing past with
  | zero => rfl
  | succ n ih =>
    have hnext : ∀ z ∈ Cplx.zero :: past, z = Cplx.zero := by
      intro z hz
      rcases List.mem_cons.mp hz with rfl | hz
      · rfl
      · exact hpast z hz
    rw [List.replicate_succ, rateFilterFrom, firSum_of_zeros hc hnext, ih _ hnext]

theorem decimate_of_zeros (n len : Nat) :
    decimate n (List.replicate len Cplx.zero) = List.replicate (decimatedLen len n) Cplx.zero := by
  refine List.eq_replicate_iff.mpr ⟨by simp, fun z hz => ?_⟩
  obtain ⟨m, -, rfl⟩ := List.mem_map.mp hz
  rw [List.getD_eq_getElem?_getD, List.getElem?_replicate]
  split <;> rfl

theorem gainApply_of_zeros {p : Params} {g : F64} (hfin : (linearGain p g).isFinite = true)
    (hsign : (linearGain p g).sign = false) (n : Nat) :
    gainApply p g (List.replicate n Cplx.zero) = List.replicate n Cplx.zero := by
  rw [gainApply, List.map_replicate, Cplx.scale_zero_of_nonneg hfin hsign]

/-- With no active station the mix is all zero. -/
theorem mixer_of_no_active {len : Nat} {slots : List Slot} (h : ∀ sl ∈ slots, sl.st.status ≠ .active) :
    (mixer len slots).1 = List.replicate len Cplx.zero := by
  have hnone : activeBlocks slots = [] := by
    rw [activeBlocks, List.filter_eq_nil_iff.mpr (fun sl hsl => by simpa using h sl hsl), List.map_nil]
  rw [mixer_eq, hnone]
  rfl

theorem tickRuns_status (s : State) (h : ∀ sl ∈ s.slots, sl.st.status ≠ .active) :
    ∀ sl ∈ (tickRuns s).map fun r => r.1, sl.st.status ≠ .active := by
  intro sl hsl
  obtain ⟨r, hr, rfl⟩ := List.mem_map.mp hsl
  obtain ⟨k, hk, rfl⟩ := List.mem_mapIdx.mp hr
  have hne := h _ (List.getElem_mem hk)
  rw [tickRun, if_neg hne]
  exact hne

/-- Settles O16: each stage of the tick keeps an all-zero block all zero. -/
theorem tickWithoutStationsIsSilent : Obligations.TickWithoutStationsIsSilent := by
  intro s t hl hslots hnoise hcoef hfin hsign ht
  rw [exec_tick_state hl] at ht
  have hmix : tickMix s = List.replicate (10 * s.block) Cplx.zero := by
    rw [tickMix, mixer_of_no_active (tickRuns_status s hslots), noisyMix, hnoise]
    rfl
  have hblock : tickBlock s = List.replicate (decimatedLen (10 * s.block) s.decim) Cplx.zero := by
    rw [tickBlock, engineBlock, hmix, rateFilter, rateFilterFrom_of_zeros hcoef _ _ (by simp), decimate_of_zeros,
      gainApply_of_zeros hfin hsign]
  have hsample : outSample Cplx.zero = (0#32, 0#32) := by
    rw [outSample, Cplx.zero, F64.toF32_zero]
  cases ht
  show (tickBlock s).map outSample = _
  rw [hblock, List.map_replicate, hsample]
  rfl

/-! ## The impulse response (R336) -/

theorem getD_isFinite {coef : List F64} (hc : ∀ x ∈ coef, x.isFinite = true) (j : Nat) :
    (coef.getD j F64.zero).isFinite = true := by
  by_cases hj : j < coef.length
  · rw [List.getD_eq_getElem _ _ hj]; exact hc _ (List.getElem_mem hj)
  · rw [List.getD_eq_default _ _ (by omega)]; decide

/-- A unit impulse and the zeros after it. -/
def impulse (len : Nat) : List Cplx := ⟨F64.one, F64.zero⟩ :: List.replicate (len - 1) Cplx.zero

theorem impulse_length {len : Nat} (h : 0 < len) : (impulse len).length = len := by
  rw [impulse, List.length_cons, List.length_replicate]; omega

theorem impulse_getD_pos (len : Nat) {j : Nat} (h : 0 < j) : (impulse len).getD j Cplx.zero = Cplx.zero := by
  obtain ⟨i, rfl⟩ : ∃ i, j = i + 1 := ⟨j - 1, by omega⟩
  rw [impulse, List.getD_cons_succ, List.getD_eq_getElem?_getD, List.getElem?_replicate]
  split <;> rfl

/-- The terms before the impulse's own add nothing. -/
theorem impulse_terms_before {coef : List F64} (hc : ∀ x ∈ coef, x.isFinite = true) (len : Nat) {n k : Nat} (h : n ≤ k) :
    (List.range n).foldl
      (fun acc j => acc.add (Cplx.scale (coef.getD j F64.zero) ((impulse len).getD (k - j) Cplx.zero))) Cplx.zero =
      Cplx.zero := by
  refine List.foldlRecOn (motive := fun acc => acc = Cplx.zero) (List.range n) _ rfl fun acc hacc j hj => ?_
  have hjn : j < n := List.mem_range.mp hj
  rw [hacc, impulse_getD_pos len (by omega), Cplx.zero_add_scale_zero (getD_isFinite hc j)]

/-- The impulse's own term is the coefficient. -/
theorem impulse_term {x : F64} (hx : x.isFinite = true) :
    Cplx.zero.add (Cplx.scale x ⟨F64.one, F64.zero⟩) = ⟨F64.zero.add x, F64.zero⟩ := by
  show Cplx.mk (F64.zero.add (x.mul F64.one)) (F64.zero.add (x.mul F64.zero)) = _
  rw [F64.mul_one_right x hx, F64.zero_add_mul_zero hx]

theorem rateFilter_impulse {coef : List F64} (hc : ∀ x ∈ coef, x.isFinite = true) {len k : Nat} (hk : k < len) :
    (rateFilter coef (impulse len)).getD k Cplx.zero =
      if k < coef.length then ⟨F64.zero.add (coef.getD k F64.zero), F64.zero⟩ else Cplx.zero := by
  obtain ⟨-, hsum⟩ := rateFilterIsCausalConvolution coef (impulse len)
  rw [List.getD_eq_getElem?_getD, hsum k (by rwa [impulse_length (by omega)]), Option.getD_some]
  split
  · next hin =>
    rw [Nat.min_eq_left hin, List.range_succ, List.foldl_concat, impulse_terms_before hc len (Nat.le_refl k), Nat.sub_self]
    exact impulse_term (getD_isFinite hc k)
  · next hout => exact impulse_terms_before hc len (by omega)

/-- Settles O45: of the causal sum only the impulse's own term is not zero, and it is the coefficient. -/
theorem impulseReproducesCoefficients : Obligations.ImpulseReproducesCoefficients := by
  intro coef len hc _ hpos
  refine ⟨(rateFilter_length _ _).trans (impulse_length hpos), fun k hk => ?_⟩
  have hzero : F64.zero.eq F64.zero = true := F64.eq_self (F64.isFinite_of_isZero F64.isZero_zero)
  have hval := rateFilter_impulse hc hk
  rw [impulse] at hval
  rw [hval]
  split
  · exact ⟨F64.zero_add_eq (getD_isFinite hc k), hzero⟩
  · next hout => rw [List.getD_eq_default _ _ (by omega)]; exact ⟨hzero, hzero⟩

end Sys2Proof.Machine

/-! SUPPORT. A station's run in its tick: silent, faulted or in band (spec 43_polyphase_tuner.md R303 to R306). -/

namespace Sys2Proof.Machine

/-- Settles O40: the two silent outcomes of a station run, then the unit's write of its own slot and its warning. -/
theorem silentStationsDoNotAdvance : Obligations.SilentStationsDoNotAdvance := by
  refine ⟨fun p i n tn sl => ⟨fun hoob => ?outOfBand, fun hoob hfail => ?failed, ?length⟩,
    fun s i sl hsl => ⟨fun hoob => ?unitOutOfBand, fun hoob hfail => ?unitFailed⟩⟩
  case outOfBand => exact stationRun_of_outOfBand hoob
  case failed => exact stationRun_of_fail hoob hfail
  case length => exact stationRun_out_length p i n tn sl
  case unitOutOfBand =>
    rw [runSlot_of_some hsl, stationRun_of_outOfBand hoob]
    rfl
  case unitFailed =>
    rw [runSlot_of_some hsl, stationRun_of_fail hoob hfail]
    rfl

/-! ## In band (R303) -/

/-- A counter that every sample moves by one, modulo `m`, has moved by the length of the block after it. -/
theorem mpxRun_counter {p : Params} {i m : Nat} {count : Slot → Nat}
    (hnext : ∀ sl, count (mpxNext p i sl) = (count sl + 1) % m) (xs : List AudioPair) {sl : Slot} (h : count sl < m) :
    count (mpxRun p i xs sl).2 = (count sl + xs.length) % m := by
  induction xs generalizing sl with
  | nil => exact (Nat.mod_eq_of_lt h).symm
  | cons a as ih =>
    have hlt : count (mpxNext p i sl) < m := (hnext sl).trans_lt (Nat.mod_lt _ (Nat.zero_lt_of_lt h))
    rw [mpxRun_cons_slot, ih hlt, hnext, Nat.mod_add_mod, List.length_cons]
    congr 1; omega

/-- What the signal chain leaves, over the MPX loop's own results: the loop writes the RDS state and Q12 alone (R303). -/
theorem stationSignal_eq (p : Params) (i : Nat) (tn : Tuning) (xs : List AudioPair) (sl : Slot) :
    let m := mpxRun p i xs sl
    let f := fmRun p sl.st.fmPhase m.1
    let b := bank p sl.st.hist f.1
    let t := tunerRun p sl.st.tunerPhase tn.normFc tn.inc b.1
    stationSignal p i tn xs sl =
      { feed := m.2.feed
        st := { sl.st with
          rds := m.2.st.rds, q12 := m.2.st.q12, fmPhase := f.2, hist := b.2, tunerPhase := t.2, out := t.1
          mpxBuf := m.1, fmBuf := f.1, upBuf := b.1 } } := by
  obtain ⟨r, q, h⟩ := mpxRun_station p i xs sl
  simp only [stationSignal, h]

/-- Settles O41: the chain's results over the counters' laws, then the unit's write of its own slot. -/
theorem inBandStationAdvancesByBlock : Obligations.InBandStationAdvancesByBlock := by
  refine ⟨fun p i n tn sl xs hband haudio => ?run, fun s i sl hsl => ?unit⟩
  case run =>
    have hlen : xs.length = n := audioPull_length haudio
    have hrun := stationRun_of_samples (p := p) hband haudio
    refine ⟨hlen, ?_, (stationRun_frame p i n tn sl).kept, fun hq => ?_, fun hphase => ?_⟩
    · rw [hrun, stationSignal_eq]; rfl
    · rw [hrun, ← hlen]
      exact mpxRun_counter (count := fun sl => sl.st.q12) (mpxNext_q12 p i) xs hq
    · rw [hrun, ← hlen]
      exact mpxRun_counter (count := fun sl => sl.st.rds.phase4) (mpxNext_phase4 p i) xs hphase
  case unit =>
    intro snap hband haudio
    obtain ⟨xs, hxs⟩ := Option.ne_none_iff_exists'.mp haudio
    rw [runSlot_of_some hsl, stationRun_of_samples hband hxs]
    rfl

end Sys2Proof.Machine

/-! SUPPORT. The RDS sample and the MPX buffer (spec 41_rds.md R215 to R219; 42_mpx_fm.md R251 to R255). -/

namespace Sys2Proof.Machine

/-! ## The carrier (R219) -/

theorem carrier_eq {phase : Nat} (h : phase < 4) (env : F64) :
    carrier phase env = ([F64.zero, env, F64.zero, env.neg] : List F64).getD phase F64.zero := by
  match phase with
  | 0 => rfl
  | 1 => rfl
  | 2 => rfl
  | 3 => rfl

/-- The sample read from an RDS state that has its bit, field by field (R218). -/
theorem readEnvelope_eq (p : Params) {r : Rds} (h : r.phase4 < 4) :
    readEnvelope p r =
      (([F64.zero, r.ring.getD r.rdIdx F64.zero, F64.zero, (r.ring.getD r.rdIdx F64.zero).neg] : List F64).getD r.phase4
          F64.zero,
        { r with
          ring := r.ring.set r.rdIdx F64.zero
          rdIdx := (r.rdIdx + 1) % (192 + p.kernel.length)
          phase4 := (r.phase4 + 1) % 4
          sampleCnt := r.sampleCnt + 1 }) := by
  rw [← carrier_eq h]
  rfl

/-- Settles O34: within a bit the sample is the envelope's, and nothing is loaded or encoded. -/
theorem rdsSampleWithinABit : Obligations.RdsSampleWithinABit := by
  intro p slot st f hcnt hphase
  rw [rdsSample, startSample_within (by simpa [spb] using hcnt)]
  dsimp only
  rw [readEnvelope_eq p hphase]

/-! ## The kernel in the ring (R217) -/

/-- Positions less than one turn apart are different entries of the ring. -/
theorem ring_position_ne {len i j : Nat} (h : j + 1 < len) : (i + 1 + j) % len ≠ i % len := by
  intro heq
  have hmod : i + (1 + j) ≡ i + 0 [MOD len] := by
    rw [Nat.ModEq, Nat.add_zero, ← Nat.add_assoc]; exact heq
  have hdvd : len ∣ 1 + j := (Nat.modEq_zero_iff_dvd).mp (Nat.ModEq.add_left_cancel' i hmod)
  exact absurd (Nat.le_of_dvd (by omega) hdvd) (by omega)

/-- Entries that the kernel does not reach are kept. -/
theorem addKernel_getD_of_ne (len : Nat) (d : Bool) (ks : List F64) (i : Nat) (ring : List F64) {m : Nat}
    (h : ∀ j, j < ks.length → m ≠ (i + j) % len) :
    (addKernel len d ks i ring).getD m F64.zero = ring.getD m F64.zero := by
  induction ks generalizing i ring with
  | nil => rfl
  | cons k ks ih =>
    have hrest : ∀ j, j < ks.length → m ≠ (i + 1 + j) % len := by
      intro j hj
      have hne := h (j + 1) (Nat.succ_lt_succ hj)
      rwa [← Nat.add_assoc, Nat.add_right_comm] at hne
    have hfirst : i % len ≠ m := fun heq => h 0 (Nat.succ_pos _) heq.symm
    rw [addKernel, ih _ _ hrest, List.getD_eq_getElem?_getD, List.getElem?_set_ne hfirst, List.getD_eq_getElem?_getD]

/-- The kernel's value `j` is added, with the bit's sign, `j` entries on; a kernel of at most one turn meets each entry
once. -/
theorem addKernel_getD {len : Nat} (d : Bool) (ks : List F64) (i : Nat) (ring : List F64) (hring : ring.length = len)
    (hks : ks.length ≤ len) {j : Nat} (hj : j < ks.length) :
    (addKernel len d ks i ring).getD ((i + j) % len) F64.zero =
      (ring.getD ((i + j) % len) F64.zero).add
        (if d then (ks.getD j F64.zero).neg else ks.getD j F64.zero) := by
  induction ks generalizing i ring j with
  | nil => cases hj
  | cons k ks ih =>
    rw [List.length_cons] at hks hj
    have hin : i % len < ring.length := hring ▸ Nat.mod_lt _ (by omega)
    have hlater : ∀ j', j' < ks.length → i % len ≠ (i + 1 + j') % len := fun j' hj' =>
      (ring_position_ne (by omega)).symm
    rw [addKernel]
    cases j with
    | zero =>
      have hpos : i + 0 = i := rfl
      rw [hpos, addKernel_getD_of_ne _ _ _ _ _ hlater, List.getD_eq_getElem?_getD, List.getElem?_set_self hin,
        List.getD_cons_zero]
      rfl
    | succ j =>
      have hpos : i + (j + 1) = i + 1 + j := by omega
      rw [hpos, ih _ _ ((List.length_set).trans hring) (by omega) (Nat.lt_of_succ_lt_succ hj), List.getD_cons_succ,
        List.getD_eq_getElem?_getD, List.getElem?_set_ne (hlater j (Nat.lt_of_succ_lt_succ hj)),
        ← List.getD_eq_getElem?_getD]

/-! ## The sample that starts a bit (R215) -/

/-- The state that the bit is encoded from, by the one count at which a group is consumed. -/
theorem bitSource_eq {slot : Nat} {st : Station} (f : Feed) (h : st.rds.bitPos ≤ groupBits) :
    bitSource slot st f =
      (if st.rds.bitPos = 104 then
          { (generateGroup slot st f).2.1 with bitBuf := serialise (generateGroup slot st f).1, bitPos := 0 }
        else st.rds,
        if st.rds.bitPos = 104 then (generateGroup slot st f).2.2 else f) := by
  have hiff : groupBits ≤ st.rds.bitPos ↔ st.rds.bitPos = 104 := by
    rw [groupBits] at h ⊢; omega
  rw [bitSource]
  by_cases hpos : st.rds.bitPos = 104
  · rw [if_pos (hiff.mpr hpos), if_pos hpos, if_pos hpos]; rfl
  · rw [if_neg (hiff.not.mpr hpos), if_neg hpos, if_neg hpos]

/-- Settles O35: the source of the bit, the kernel in the ring, then the envelope read from it. -/
theorem rdsBitIsDifferentiallyEncoded : Obligations.RdsBitIsDifferentiallyEncoded := by
  intro p slot st f hcnt hrange
  have hsource := bitSource_eq (slot := slot) f hrange.1
  obtain ⟨⟨-, -, hring, -, -, -, hphase, -⟩, -⟩ := bitSource_inRange (slot := slot) f hrange
  intro len g r d
  have hr : (bitSource slot st f).1 = r := congrArg Prod.fst hsource
  rw [hr] at hring hphase
  refine ⟨(encodeBit p r).ring, (addKernel_length _ _ _ _ _).trans hring, fun j hj => ?added, fun i _ hne => ?kept,
    ?sample⟩
  case added => exact addKernel_getD d p.kernel r.wrIdx r.ring hring (Nat.le_add_left _ _) hj
  case kept => exact addKernel_getD_of_ne len d p.kernel r.wrIdx r.ring hne
  case sample =>
    have hstart : startSample p slot st f = (encodeBit p r, if st.rds.bitPos = 104 then g.2.2 else f) := by
      rw [startSample_bit hcnt.ge, hsource]
    rw [rdsSample, hstart]
    dsimp only
    rw [readEnvelope_eq p (r := encodeBit p r) hphase]
    rfl

/-! ## The MPX buffer (R251 to R255) -/

/-- Settles O36: R254's loop, one turn of it written out. -/
theorem mpxBufferSampleBySample : Obligations.MpxBufferSampleBySample :=
  fun _ _ _ _ _ => ⟨rfl, rfl⟩

end Sys2Proof.Machine

/-! SUPPORT. What each command reports and what each setter replaces, field by field (spec 40_commands.md R150 to R164). -/

namespace Sys2Proof.Machine

/-! ## Every command reports (R150) -/

/-- A command completes with OK, an error of three codes or WARN_NOOP, over some state. -/
theorem exec_completes (i : Instr) (s : State) :
    ∃ c u, exec i s = .next (complete i.opcode c u) ∧
      (c = .ok ∨ c = .configError ∨ c = .outOfRange ∨ c = .invalidValue ∨ c = .warnNoop) := by
  rcases exec_cases i s with ⟨c, hc, hraise⟩ | ⟨-, hnoop⟩ | ⟨u, hok⟩
  · exact ⟨c, s, hraise, by tauto⟩
  · exact ⟨.warnNoop, _, hnoop, by tauto⟩
  · exact ⟨.ok, u, hok, by tauto⟩

theorem complete_done (op : BitVec 8) (c : ResultCode) (s : State) : (complete op c s).irqPend.getLsbD 1 = true := by
  rw [complete_irqPend, BitVec.getLsbD_or, Bool.or_eq_true]
  right
  split <;> decide

theorem complete_err (op : BitVec 8) {c : ResultCode} (s : State) (h : c.isError = true) :
    (complete op c s).irqPend.getLsbD 2 = true := by
  rw [complete_irqPend, if_pos h, BitVec.getLsbD_or, Bool.or_eq_true]
  exact .inr (by decide)

/-- Settles O5: a completion's status, and the ways a command completes. -/
theorem everyCommandReportsItsStatus : Obligations.EveryCommandReportsItsStatus := by
  intro i s
  obtain ⟨c, u, hexec, hc⟩ := exec_completes i s
  refine ⟨_, c.byte, hexec, ?_, rfl, complete_done _ _ _, fun herr => complete_err _ _ ?_⟩
  · rcases hc with rfl | rfl | rfl | rfl | rfl <;> decide
  · rw [isError_iff_byte_mem]
    revert herr
    cases c <;> decide

/-- Settles O8: the kinds of event, and for a command its completion. -/
theorem noStepStops : Obligations.NoStepStops := by
  intro s
  match h : s.env.inbox with
  | [] => exact ⟨_, step_of_empty h⟩
  | .fire _ :: _ => exact ⟨_, step_of_fire h⟩
  | .advance :: _ => exact ⟨_, step_of_advance h⟩
  | .bus op :: rest =>
    match he : busEffect op (takeEvent rest s) with
    | .answer _ => exact ⟨_, step_of_answer h he⟩
    | .store _ => exact ⟨_, step_of_store h he⟩
    | .command w =>
      rw [step_of_command h he]
      match hw : decode w with
      | .ok i =>
        rw [issueCommand_of_ok hw]
        obtain ⟨c, u, hexec, -⟩ := exec_completes i _
        exact ⟨_, hexec⟩
      | .error _ => exact ⟨_, issueCommand_of_error hw _⟩

/-! ## INIT and START (R152, R154) -/

theorem setWarnIf_eq (c : Bool) (bit : Word32) (s : State) :
    setWarnIf c bit s = { s with
      warn := if c then s.warn ||| bit else s.warn
      irqPend := if c = true ∧ s.warn &&& bit = 0#32 then s.irqPend ||| 0x8#32 else s.irqPend } := by
  cases c
  · rfl
  · simp [setWarnIf, setWarn, irqWarn]

/-- Settles O10: INIT's loop is the slots' turns by number, and its warning. -/
theorem initBuildsEverySlot : Obligations.InitBuildsEverySlot := by
  intro s
  refine ⟨fun hlife => ?_, fun hlife => ?_⟩
  · rw [exec_init_of_uninit hlife, initBody, initSlots_eq, setWarnIf_eq]
    simp only [Nat.zero_add]
    rfl
  · rw [exec_init_of_ne_uninit hlife, raise_error .init .configError s rfl]
    rfl

/-- Settles O11: the four branches of INIT's turn. -/
theorem initSlotOutcomes : Obligations.InitSlotOutcomes := by
  intro p cf i sl
  refine ⟨fun habsent => if_pos habsent, fun hpresent hbad => ?_, fun hpresent hgood hclosed => ?_,
    fun hpresent hgood hopens => ⟨?_, rfl, rfl⟩⟩ <;>
    rw [initSlot, if_neg (by rw [descBit, hpresent]; simp)]
  · refine if_pos ?_
    by_contra hall
    simp only [descBit, not_or, Bool.not_eq_false] at hall
    exact hbad ⟨hall.1, hall.2.1, hall.2.2⟩
  · obtain ⟨hfile, hfreq, hfinite⟩ := hgood
    rw [if_neg (by simp [descBit, hfile, hfreq, hfinite])]
    exact if_pos hclosed
  · obtain ⟨hfile, hfreq, hfinite⟩ := hgood
    rw [if_neg (by simp [descBit, hfile, hfreq, hfinite])]
    exact if_neg (by simp [hopens])

/-- Settles O13: the timer armed from IDLE, or the no-op. -/
theorem startArmsTheTimer : Obligations.StartArmsTheTimer := by
  intro s
  refine ⟨fun hlife => ?_, fun hlife => ?_⟩
  · rw [exec_start_of_idle hlife]
    rfl
  · rw [exec_start_of_ne_idle hlife, lifecycleNoop_eq]
    rfl

/-! ## What a replacement leaves for a tick in progress (R96) -/

theorem noteOld_eq (f : Replaced → Replaced) (s : State) :
    noteOld f s = { s with old := if s.tick = .idle then s.old else f s.old } := by
  by_cases htick : s.tick = .idle
  · rw [noteOld, tickBusy, htick, if_neg (by decide), if_pos rfl, ← htick]
  · simp [noteOld, tickBusy, htick]

theorem tuneSet_eq (p : Params) (s : State) (f : F64) (st : Station) :
    tuneSet p (tickBusy s) f st = { st with
      tuning := tuningFor p st.freq f
      tuneOld := if s.tick = .idle then st.tuneOld else st.tuning :: st.tuneOld } := by
  by_cases htick : s.tick = .idle
  · simp [tuneSet, tickBusy, htick]
  · simp [tuneSet, tickBusy, htick]

theorem retuneSlot_eq (s : State) (f : F64) (sl : Slot) :
    retuneSlot s.par (tickBusy s) f sl =
      if sl.st.status = .active then
        { sl with st := { sl.st with
            tuning := tuningFor s.par sl.st.freq f
            tuneOld := if s.tick = .idle then sl.st.tuneOld else sl.st.tuning :: sl.st.tuneOld } }
      else sl := by
  simp only [retuneSlot, Station.active, tuneSet_eq, beq_iff_eq]

/-! ## The setters -/

/-- Settles O19: the check's two answers, and each slot's retuning. -/
theorem setCenterFreqRetunes : Obligations.SetCenterFreqRetunes := by
  refine ⟨decode_encode .setCenterFreq, fun s => ⟨fun hbounds => ?_, fun hbounds => ?_⟩⟩
  · rw [exec_setCenterFreq, if_pos (by exact hbounds), retuneAll, funext (retuneSlot_eq s (argF64 s))]
    rfl
  · rw [exec_setCenterFreq, if_neg (by rw [Bool.not_eq_true]; exact hbounds), raise_error _ .outOfRange _ rfl]
    rfl

/-- Settles O20: the check's two answers. -/
theorem setGainSetsGain : Obligations.SetGainSetsGain := by
  refine ⟨decode_encode .setGain, fun s => ⟨fun hbounds => ?_, fun hbounds => ?_⟩⟩
  · rw [exec_setGain, if_pos (by exact hbounds), replaceGain, noteOld_eq]
    rfl
  · rw [exec_setGain, if_neg (by rw [Bool.not_eq_true]; exact hbounds), raise_error _ .outOfRange _ rfl]
    rfl

/-- The distance of R162, as an absolute difference. -/
theorem rateDistance_eq (r : F64) (d : Nat) :
    rateDistance r d = ((d * F64.unitsOne : Nat) - (r.units : Int)).natAbs := by
  rw [rateDistance]
  omega

/-- No divisor in range is nearer than the chosen one, nor larger and as near (R162). -/
theorem nearestRate_nearest (p : Params) (r : F64) {d : Nat} (hdvd : d ∣ maxRate) (hmin : p.minRate ≤ d) :
    rateDistance r (nearestRate p r) ≤ rateDistance r d ∧
      (rateDistance r (nearestRate p r) = rateDistance r d → d ≤ nearestRate p r) := by
  have hvalid : d ∈ validRates p := List.mem_filter.mpr ⟨mem_rateDivisors_of_dvd hdvd, decide_eq_true hmin⟩
  have hbest := nearestRate_best r d hvalid
  simp only [rateBetter, Bool.or_eq_false_iff, Bool.and_eq_false_iff, decide_eq_false_iff_not,
    beq_eq_false_iff_ne] at hbest
  omega

/-- Settles O21: the chosen rate is a divisor in range and none is chosen before it. -/
theorem setSampleRateSnapsToNearestDivisor : Obligations.SetSampleRateSnapsToNearestDivisor := by
  refine ⟨decode_encode .setSampleRate, fun s hpar => ⟨fun hbounds => ?_, fun hbounds => ?_⟩⟩
  · have hvalid : nearestRate s.par ⟨s.arg0⟩ ∈ validRates s.par := nearestRate_mem hpar _
    refine ⟨nearestRate s.par ⟨s.arg0⟩, validRates_dvd hvalid, ?_, fun d hdvd hmin => ?_, ?_⟩
    · simpa using (List.mem_filter.mp hvalid).2
    · dsimp only
      rw [← rateDistance_eq, ← rateDistance_eq]
      exact nearestRate_nearest s.par _ hdvd hmin
    · rw [exec_setSampleRate, if_pos (by exact hbounds), replaceRate, noteOld_eq]
      rfl
  · rw [exec_setSampleRate, if_neg (by rw [Bool.not_eq_true]; exact hbounds), raise_error _ .invalidValue _ rfl]
    rfl

/-- A set bit among 31..9 is a reserved bit of SET_NOISE_ENABLE's format (R124). -/
theorem decode_setNoiseEnable_reserved {w : Word32} (hop : w.extractLsb' 0 8 = 0x13#8)
    (hreserved : w.extractLsb' 9 23 ≠ 0#23) : ∃ e, decode w = .error e := by
  match hw : decode w with
  | .error e => exact ⟨e, rfl⟩
  | .ok i =>
    obtain rfl : w = encode i := eq_encode_of_decode hw
    exfalso
    cases i with
    | setNoiseEnable en => cases en <;> exact hreserved (by decide)
    | _ => exact absurd hop (by decide)

theorem opcode_setNoiseEnable (en : Bool) : Instr.opcode (.setNoiseEnable en) = 0x13#8 := by
  cases en <;> rfl

/-- Settles O22: both words, the replacement, and the reserved bits. -/
theorem setNoiseEnableSetsTheSwitch : Obligations.SetNoiseEnableSetsTheSwitch := by
  refine ⟨decode_encode (.setNoiseEnable false), decode_encode (.setNoiseEnable true), fun en s => ?_,
    fun w hop hreserved => decode_setNoiseEnable_reserved hop hreserved⟩
  rw [exec_setNoiseEnable, replaceNoiseEn, noteOld_eq, opcode_setNoiseEnable]
  rfl

/-! ## The noise table (R164) -/

theorem FinF64.toF64_isFinite (u : FinF64) : u.toF64.isFinite = true := by
  have hmag := u.mag.isLt
  rw [F64.isFinite, FinF64.toF64, F64.mag_ofSignMag _ _ (by omega)]
  exact decide_eq_true hmag

/-- A draw is finite and takes one draw of the tape. -/
theorem drawNoise_spec (e : Env) :
    (drawNoise e).1.isFinite = true ∧
      ∃ ins, (drawNoise e).2 = { e with noiseIn := ins, noiseDraws := e.noiseDraws + 1 } := by
  rw [drawNoise]
  split
  · next hin => exact ⟨FinF64.toF64_isFinite _, [], by rw [← hin]⟩
  · next xs _ => exact ⟨FinF64.toF64_isFinite _, xs, rfl⟩

/-- A drawn table is finite, and drawing it takes two draws an entry and nothing else of the agents' answers. -/
theorem drawNoiseTab_spec (n : Nat) (e : Env) :
    (∀ z ∈ (drawNoiseTab n e).1, z.re.isFinite = true ∧ z.im.isFinite = true) ∧
      ∃ ins, (drawNoiseTab n e).2 = { e with noiseIn := ins, noiseDraws := e.noiseDraws + 2 * n } := by
  induction n generalizing e with
  | zero => exact ⟨by simp [drawNoiseTab], e.noiseIn, rfl⟩
  | succ n ih =>
    obtain ⟨hre, insRe, hafterRe⟩ := drawNoise_spec e
    obtain ⟨him, insIm, hafterIm⟩ := drawNoise_spec (drawNoise e).2
    obtain ⟨hrest, ins, hafter⟩ := ih (drawNoise (drawNoise e).2).2
    rw [drawNoiseTab]
    refine ⟨fun z hz => ?_, ins, ?_⟩
    · rcases List.mem_cons.mp hz with rfl | hz
      · exact ⟨hre, him⟩
      · exact hrest z hz
    · rw [hafter, hafterIm, hafterRe]
      congr 1
      dsimp only
      omega

theorem regenerateNoise_env (x : F64) (s : State) :
    ∃ ins draws, (regenerateNoise x s).env = { s.env with noiseIn := ins, noiseDraws := draws } := by
  rw [regenerateNoise]
  split
  · exact ⟨_, _, rfl⟩
  · obtain ⟨-, ins, hafter⟩ := drawNoiseTab_spec s.par.noiseLen s.env
    exact ⟨ins, _, hafter⟩

/-- Settles O23: the check, the comparison with NOISE_SIGMA, and the two ways the table is made. -/
theorem setNoiseSigmaRegeneratesTheTable : Obligations.SetNoiseSigmaRegeneratesTheTable := by
  refine ⟨decode_encode .setNoiseSigma, fun s => ⟨fun hbad => ?_, fun hgood heq => ?_, fun hgood hne hzero => ?_,
    fun hgood hne hzero => ?_⟩⟩ <;> rw [exec_setNoiseSigma]
  · rw [if_neg (by rw [Bool.not_eq_true]; exact hbad), raise_error _ .invalidValue _ rfl]
    rfl
  · rw [if_pos (by exact hgood), if_pos (by exact heq)]
    rfl
  · rw [if_pos (by exact hgood), if_neg (by rw [Bool.not_eq_true]; exact hne), regenerateNoise, if_pos (by exact hzero),
      replaceNoiseTab, noteOld_eq]
    rfl
  · obtain ⟨hfinite, ins, hafter⟩ := drawNoiseTab_spec s.par.noiseLen s.env
    refine ⟨(drawNoiseTab s.par.noiseLen s.env).1, ins, drawNoiseTab_length _ _, hfinite, ?_⟩
    rw [if_pos (by exact hgood), if_neg (by rw [Bool.not_eq_true]; exact hne), regenerateNoise,
      if_neg (by rw [Bool.not_eq_true]; exact hzero), replaceNoiseTab, noteOld_eq, hafter]
    rfl

end Sys2Proof.Machine

/-! SUPPORT. The host bus: where an access goes, what it answers, what a write does (spec 20_memory.md R80 to R89). -/

namespace Sys2Proof.Machine

/-! ## The address map (R80, R83, R84) -/

section

variable {n o width : Nat}

/-- The accesses that reach something: aligned, 32 bits wide, in the registers, a slot's window or the output window. -/
def Mapped (n o width : Nat) : Prop :=
  width = 32 ∧ o % 4 = 0 ∧ (o < 0x100 + 0x100 * n ∨ (0x01000000 ≤ o ∧ o < 0x02000000))

theorem busTarget_eq_slvErr_iff : busTarget n o width = .slvErr ↔ ¬Mapped n o width := by
  rw [busTarget, Mapped]
  split_ifs with hform hglobal hstation hwindow
  · simp; omega
  · simp; omega
  · simp; omega
  · simp; omega
  · simp; omega

theorem busTarget_of_not_mapped (h : ¬Mapped n o width) : busTarget n o width = .slvErr :=
  busTarget_eq_slvErr_iff.mpr h

theorem busTarget_of_global (halign : o % 4 = 0) (h : o < 0x100) : busTarget n o 32 = .global o := by
  simp [busTarget, halign, h]

theorem busTarget_of_station (halign : o % 4 = 0) (hlow : 0x100 ≤ o) (hhigh : o < 0x100 + 0x100 * n) :
    busTarget n o 32 = .station ((o - 0x100) / 0x100) (o % 0x100) := by
  have hoff : (o - 0x100) % 0x100 = o % 0x100 := by omega
  rw [busTarget, if_neg (by omega), if_neg (by omega), if_pos hhigh, hoff]

theorem busTarget_of_window (halign : o % 4 = 0) (hslots : 0x100 + 0x100 * n ≤ o) (hlow : 0x01000000 ≤ o)
    (hhigh : o < 0x02000000) : busTarget n o 32 = .window (o - 0x01000000) := by
  rw [busTarget, if_neg (by omega), if_neg (by omega), if_neg (by omega), if_pos ⟨hlow, hhigh⟩]

end

/-! ## Writes (R86) -/

section

variable {s : State} {rest : List Event} {off : Word32} {width : Nat} {v : Word32}

theorem step_write_of_slvErr (h : s.env.inbox = .bus (.write off width v) :: rest)
    (ht : busTarget s.slots.length off.toNat width = .slvErr) :
    step s = .next (respond ⟨0#32, true⟩ (takeEvent rest s)) := by
  refine step_of_answer h ?_
  rw [busEffect, takeEvent_slots, ht]

theorem step_write_of_command (h : s.env.inbox = .bus (.write off width v) :: rest)
    (ht : busTarget s.slots.length off.toNat width = .global 0x008) :
    step s = issueCommand v (respond writeAccepted (takeEvent rest s)) := by
  refine step_of_command h ?_
  rw [busEffect, takeEvent_slots, ht]
  rfl

theorem step_write_of_global {o : Nat} (h : s.env.inbox = .bus (.write off width v) :: rest)
    (ht : busTarget s.slots.length off.toNat width = .global o) (ho : o ≠ 0x008) :
    step s = .next (respond writeAccepted (writeGlobal o v (takeEvent rest s))) := by
  refine step_of_store h ?_
  rw [busEffect, takeEvent_slots, ht]
  exact if_neg ho

theorem step_write_of_station {i o : Nat} (h : s.env.inbox = .bus (.write off width v) :: rest)
    (ht : busTarget s.slots.length off.toNat width = .station i o) :
    step s = .next (respond writeAccepted (writeStation i o v (takeEvent rest s))) := by
  refine step_of_store h ?_
  rw [busEffect, takeEvent_slots, ht]

theorem step_write_of_window {o : Nat} (h : s.env.inbox = .bus (.write off width v) :: rest)
    (ht : busTarget s.slots.length off.toNat width = .window o) :
    step s = .next (respond writeAccepted (takeEvent rest s)) := by
  refine step_of_answer h ?_
  rw [busEffect, takeEvent_slots, ht]
  rfl

/-- A write to CMD runs its word (R150). -/
theorem step_write_cmd (h : s.env.inbox = .bus (.write 0x008#32 32 v) :: rest) :
    step s = issueCommand v { s with env := { s.env with inbox := rest, busResp := some ⟨0#32, false⟩ } } :=
  step_write_of_command h (busTarget_of_global rfl (by decide))

end

/-- Settles O3: the write to CMD, and the word's decoding. -/
theorem stepRunsDecodedCommand : Obligations.StepRunsDecodedCommand := by
  intro s rest w i hinbox hdecode
  rw [step_write_cmd hinbox, issueCommand_of_ok hdecode]

/-- Settles O4: the illegal words are those that encode no command; one of them only completes (R126). -/
theorem illegalWordChangesOnlyStatus : Obligations.IllegalWordChangesOnlyStatus := by
  intro w
  refine ⟨(exists_decode_error_iff w).trans (not_mem_commandWords_iff w.toNat), fun s rest e hinbox hdecode => ?_⟩
  rw [step_write_cmd hinbox, issueCommand_of_error hdecode]
  rfl

/-- Settles O26: the two cases of R36's write. -/
theorem arg0WrittenByHalves : Obligations.Arg0WrittenByHalves := by
  intro s v rest
  refine ⟨fun hinbox => ?low, fun hinbox => ?high⟩
  case low =>
    rw [step_write_of_global hinbox (o := 0x010) (busTarget_of_global rfl (by decide)) (by decide)]
    rfl
  case high =>
    rw [step_write_of_global hinbox (o := 0x014) (busTarget_of_global rfl (by decide)) (by decide)]
    rfl

/-! ## Status registers (R34, R35, R380) -/

theorem warnMask_bit : ∀ b, b < 32 → warnMask.getLsbD b = decide (b < 5) := by decide

theorem irqMask_bit : ∀ b, b < 32 → irqMask.getLsbD b = decide (b < 4) := by decide

/-- Writing 1s clears exactly the named bits written 1 (R86). -/
theorem cleared_bit (x v m : Word32) {b : Nat} (hb : b < 32) :
    (x &&& ~~~(v &&& m)).getLsbD b = (x.getLsbD b && !(v.getLsbD b && m.getLsbD b)) := by
  simp [hb]

theorem ne_zero_iff_exists_bit (x : Word32) : x ≠ 0#32 ↔ ∃ b, b < 32 ∧ x.getLsbD b = true := by
  constructor
  · intro hne
    by_contra hall
    push Not at hall
    exact hne (BitVec.eq_of_getLsbD_eq fun b hb => by simpa using hall b hb)
  · rintro ⟨b, -, hb⟩ rfl
    simp at hb

theorem irqLine_iff (s : State) :
    irqLine s = true ↔ ∃ b, b < 4 ∧ s.irqPend.getLsbD b = true ∧ s.irqEn.getLsbD b = true := by
  rw [irqLine, bne_iff_ne, ne_zero_iff_exists_bit]
  refine exists_congr fun b => ?_
  rw [BitVec.getLsbD_and, BitVec.getLsbD_and, Bool.and_eq_true, Bool.and_eq_true]
  constructor
  · rintro ⟨hb, hbits, hmask⟩
    rw [irqMask_bit b hb, decide_eq_true_eq] at hmask
    exact ⟨hmask, hbits⟩
  · rintro ⟨hb, hbits⟩
    exact ⟨by omega, hbits, by rw [irqMask_bit b (by omega)]; exact decide_eq_true hb⟩

/-- Settles O27: the three writes bit by bit, and the interrupt line. -/
theorem statusRegisterWrites : Obligations.StatusRegisterWrites := by
  intro s v rest
  refine ⟨fun hinbox => ⟨s.warn &&& ~~~(v &&& warnMask), ?_, fun b hb => ?_⟩,
    fun hinbox => ⟨s.irqPend &&& ~~~(v &&& irqMask), ?_, fun b hb => ?_⟩,
    fun hinbox => ⟨v &&& irqMask, ?_, fun b hb => ?_⟩, irqLine_iff s⟩
  · rw [step_write_of_global hinbox (o := 0x01C) (busTarget_of_global rfl (by decide)) (by decide)]
    rfl
  · rw [cleared_bit _ _ _ hb, warnMask_bit b hb]
  · rw [step_write_of_global hinbox (o := 0x024) (busTarget_of_global rfl (by decide)) (by decide)]
    rfl
  · rw [cleared_bit _ _ _ hb, irqMask_bit b hb]
  · rw [step_write_of_global hinbox (o := 0x020) (busTarget_of_global rfl (by decide)) (by decide)]
    rfl
  · rw [BitVec.getLsbD_and, irqMask_bit b hb]

/-! ## Every access (R83 to R86) -/

/-- No command touches the bus's answer: it was given when the write was accepted (R93). -/
theorem busResp_carried (r : Option BusResp) :
    ExecCarries (fun s => s.env.busResp = r) (fun t => t.env.busResp = r) := by
  have hfinish : ∀ s : State, s.env.busResp = r → (finishTick s).env.busResp = r := fun s hs =>
    finishTick_keeps (P := fun u => u.env.busResp = r)
      (fun u i hu => by
        obtain ⟨-, -, -, -, -, -, -, hresp, -⟩ := runSlot_engine u i
        exact hresp.trans hu)
      (fun u hu => by
        rw [backStage]
        split <;> simpa [noiseStage, filterStage, decimateStage, gainStage] using hu)
      (fun _ _ hu => hu) hs
  exact {
    complete := fun _ _ _ h => h
    stay := fun _ h => h
    noop := fun _ h => h
    init := fun s h _ => by rw [initBody, setWarnIf_env]; exact h
    start := fun _ h _ => h
    stop := fun s h _ => hfinish s h
    tick := fun s h _ => hfinish (beginTick s) h
    reset := fun s h => by
      show (resetSource s).env.busResp = r
      rw [resetSource]
      split
      · exact hfinish s h
      · exact h
    retune := fun _ _ h => h
    gain := fun _ _ h => by simpa using h
    rate := fun _ _ h => by simpa using h
    noiseEn := fun _ _ h => by simpa using h
    noiseSigma := fun s x h => by
      obtain ⟨ins, draws, henv⟩ := regenerateNoise_env x s
      rw [henv]
      exact h }


theorem issueCommand_goesOn (w : Word32) (s : State) :
    ∃ t, issueCommand w s = .next t ∧ t.env.busResp = s.env.busResp := by
  match hw : decode w with
  | .error _ => exact ⟨_, issueCommand_of_error hw s, rfl⟩
  | .ok i =>
    rw [issueCommand_of_ok hw]
    obtain ⟨c, u, hexec, -⟩ := exec_completes i s
    exact ⟨_, hexec, exec_carries (busResp_carried s.env.busResp) rfl hexec⟩

section

variable {s : State} {rest : List Event} {off : Word32} {width : Nat} {v : Word32}

/-- Every mapped write is accepted (R86). -/
theorem step_write_accepted (h : s.env.inbox = .bus (.write off width v) :: rest)
    (hmapped : Mapped s.slots.length off.toNat width) :
    ∃ t, step s = .next t ∧ t.env.busResp = some ⟨0#32, false⟩ := by
  match ht : busTarget s.slots.length off.toNat width with
  | .slvErr => exact absurd hmapped (busTarget_eq_slvErr_iff.mp ht)
  | .global o =>
    by_cases hcmd : o = 0x008
    · rw [step_write_of_command h (hcmd ▸ ht)]
      exact issueCommand_goesOn v _
    · exact ⟨_, step_write_of_global h ht hcmd, rfl⟩
  | .station _ _ => exact ⟨_, step_write_of_station h ht, rfl⟩
  | .window _ => exact ⟨_, step_write_of_window h ht, rfl⟩

theorem step_read_of_none (h : s.env.inbox = .bus (.read off width) :: rest)
    (hread : busRead s off width = none) : step s = .next (respond ⟨0#32, true⟩ (takeEvent rest s)) := by
  refine step_of_answer h ?_
  have hread' : busRead (takeEvent rest s) off width = none := hread
  rw [busEffect, hread']

theorem step_read_of_some (h : s.env.inbox = .bus (.read off width) :: rest)
    (hread : busRead s off width = some v) : step s = .next (respond ⟨v, false⟩ (takeEvent rest s)) := by
  refine step_of_answer h ?_
  have hread' : busRead (takeEvent rest s) off width = some v := hread
  rw [busEffect, hread']

end

theorem busRead_eq_none_iff {s : State} {off : Word32} {width : Nat} :
    busRead s off width = none ↔ ¬Mapped s.slots.length off.toNat width := by
  rw [← busTarget_eq_slvErr_iff, busRead]
  split <;> simp_all

/-- The registers of R60 that a write does not change, CMD apart. -/
theorem writeGlobal_of_readOnly {o : Nat} (h : o ∉ [0x008, 0x010, 0x014, 0x01C, 0x020, 0x024]) (v : Word32) (s : State) :
    writeGlobal o v s = s := by
  simp only [List.mem_cons, List.not_mem_nil, or_false, not_or] at h
  obtain ⟨-, hlow, hhigh, hwarn, hen, hpend⟩ := h
  rw [writeGlobal] <;> assumption

/-- The registers of a station window that no write changes. -/
theorem writeStaging_of_readOnly {o : Nat} (hoff : o = 0x04 ∨ o = 0x14 ∨ 0x70 ≤ o) (v : Word32) (st : Station) :
    writeStaging o v st = st := by
  rw [writeStaging, if_neg (by omega), if_neg (by omega), if_neg (by omega), if_neg (by omega), if_neg (by omega),
    if_neg (by omega), if_neg (by omega)]

theorem writeStation_of_readOnly {o : Nat} (hoff : o = 0x04 ∨ o = 0x14 ∨ 0x70 ≤ o) (i : Nat) (v : Word32) (s : State) :
    writeStation i o v s = s := by
  rw [writeStation]
  split
  · split
    · rfl
    · next sl hsl =>
      obtain ⟨hi, rfl⟩ := List.getElem?_eq_some_iff.mp hsl
      rw [writeStaging_of_readOnly hoff, List.set_getElem_self hi]
  · rfl

/-- Settles O24: where each access goes, and for reads the register read. -/
theorem slvErrExactlyWhereUnmapped : Obligations.SlvErrExactlyWhereUnmapped := by
  intro s off width v rest
  refine ⟨fun hinbox => ?_, fun hinbox => ⟨fun hnot => ?_, step_write_accepted hinbox,
    fun hmapped hglobal hreadOnly => ?_, fun hmapped hlow hhigh hreadOnly => ?_, fun hmapped hslots hwindow => ?_⟩⟩
  · match hread : busRead s off width with
    | none =>
      exact ⟨_, _, step_read_of_none hinbox hread, iff_of_true rfl (busRead_eq_none_iff.mp hread), fun _ => rfl, nofun⟩
    | some d =>
      refine ⟨_, _, step_read_of_some hinbox hread, iff_of_false nofun fun hnot => ?_, nofun, fun _ => rfl⟩
      exact nomatch hread.symm.trans (busRead_eq_none_iff.mpr hnot)
  · exact step_write_of_slvErr hinbox (busTarget_of_not_mapped hnot)
  · obtain ⟨rfl, halign, -⟩ := hmapped
    have hcmd : off.toNat ≠ 0x008 := fun h => hreadOnly (by simp [h])
    rw [step_write_of_global hinbox (busTarget_of_global halign hglobal) hcmd, writeGlobal_of_readOnly hreadOnly]
    rfl
  · obtain ⟨rfl, halign, hreach⟩ := hmapped
    rw [step_write_of_station hinbox (busTarget_of_station halign hlow (by omega)), writeStation_of_readOnly hreadOnly]
    rfl
  · obtain ⟨rfl, halign, hreach⟩ := hmapped
    exact step_write_of_window hinbox (busTarget_of_window halign (by omega) hwindow (by omega))

/-! ## The output window (R88, R89) -/

theorem busRead_window {s : State} {off : Nat} (hslots : s.slots.length ≤ 32) (halign : off % 4 = 0)
    (hoff : off < 0x01000000) :
    busRead s (BitVec.ofNat 32 (0x01000000 + off)) 32 = some (readWindow s off) := by
  have hnat : (BitVec.ofNat 32 (0x01000000 + off)).toNat = 0x01000000 + off := by
    rw [BitVec.toNat_ofNat]; omega
  rw [busRead, hnat, busTarget_of_window (by omega) (by omega) (by omega) (by omega), Nat.add_sub_cancel_left]

theorem readWindow_re {s : State} {m : Nat} {z : F32 × F32} (hlen : s.outBuf.length = s.outLen)
    (hz : s.outBuf[m]? = some z) : readWindow s (8 * m) = z.1 := by
  have hm : m < s.outLen := by
    rw [← hlen]; exact (List.getElem?_eq_some_iff.mp hz).1
  rw [readWindow, Nat.mul_div_cancel_left m (by decide), if_pos hm, hz, Option.elim_some, if_pos (by omega)]

theorem readWindow_im {s : State} {m : Nat} {z : F32 × F32} (hlen : s.outBuf.length = s.outLen)
    (hz : s.outBuf[m]? = some z) : readWindow s (8 * m + 4) = z.2 := by
  have hm : m < s.outLen := by
    rw [← hlen]; exact (List.getElem?_eq_some_iff.mp hz).1
  have hdiv : (8 * m + 4) / 8 = m := by omega
  rw [readWindow, hdiv, if_pos hm, hz, Option.elim_some, if_neg (by omega)]

theorem readWindow_beyond {s : State} {off : Nat} (h : s.outLen ≤ off / 8) : readWindow s off = 0#32 :=
  if_neg (by omega)

/-- Settles O29: the two words of a sample, and the words beyond the block. -/
theorem outputWindowHoldsTheBlock : Obligations.OutputWindowHoldsTheBlock := by
  intro s m hslots hlen hm
  rw [Nat.add_assoc, busRead_window hslots (by omega) (by omega), busRead_window hslots (by omega) (by omega)]
  refine ⟨fun z hz => ⟨by rw [readWindow_re hlen hz], by rw [readWindow_im hlen hz]⟩, fun hbeyond => ⟨?_, ?_⟩⟩
  · rw [readWindow_beyond (by omega)]
  · rw [readWindow_beyond (by omega)]

end Sys2Proof.Machine

/-! SUPPORT. What every register reads, and what a staging write stores (spec 10_state.md R60, R61; 20_memory.md R82, R86). -/

namespace Sys2Proof.Machine

/-! ## Text fields, four bytes a word (R82) -/

section

variable {n : Nat} (t : Vector Byte n)

theorem textWord_byte (i : Nat) {j : Nat} (hj : j < 4) :
    (textWord t i).extractLsb' (8 * j) 8 = t.getD (i + j) 0 := by
  rw [textWord]
  obtain rfl | rfl | rfl | rfl : j = 0 ∨ j = 1 ∨ j = 2 ∨ j = 3 := by omega
  · exact BitVec.extractLsb'_append_eq_right
  · rw [BitVec.extractLsb'_append_eq_of_le (by decide)]
    exact BitVec.extractLsb'_append_eq_right
  · rw [BitVec.extractLsb'_append_eq_of_le (by decide), BitVec.extractLsb'_append_eq_of_le (by decide)]
    exact BitVec.extractLsb'_append_eq_right
  · rw [BitVec.extractLsb'_append_eq_of_le (by decide), BitVec.extractLsb'_append_eq_of_le (by decide)]
    exact BitVec.extractLsb'_append_eq_left

/-- Byte `k` of a text is byte `k mod 4` of its word at `4·(k / 4)`. -/
theorem textWord_byte_at (k : Nat) : (textWord t (4 * (k / 4))).extractLsb' (8 * (k % 4)) 8 = t.getD k 0 := by
  rw [textWord_byte t _ (Nat.mod_lt k (by decide)), Nat.div_add_mod]

theorem getD_setIfInBounds (i k : Nat) (x : Byte) :
    (t.setIfInBounds i x).getD k 0 = if i = k ∧ k < n then x else t.getD k 0 := by
  by_cases hk : k < n
  · simp [Vector.getD, Array.getElem_setIfInBounds, hk]
  · simp [Vector.getD, hk]

/-- The bytes of a text after one of its words is stored. -/
theorem getD_setTextWord_of_mem {i j : Nat} (hi : i + 4 ≤ n) (hj : j < 4) (v : Word32) :
    (setTextWord t i v).getD (i + j) 0 = v.extractLsb' (8 * j) 8 := by
  rw [setTextWord]
  obtain rfl | rfl | rfl | rfl : j = 0 ∨ j = 1 ∨ j = 2 ∨ j = 3 := by omega
  · rw [getD_setIfInBounds, if_neg (by omega), getD_setIfInBounds, if_neg (by omega), getD_setIfInBounds,
      if_neg (by omega), getD_setIfInBounds, if_pos (by omega)]
  · rw [getD_setIfInBounds, if_neg (by omega), getD_setIfInBounds, if_neg (by omega), getD_setIfInBounds,
      if_pos (by omega)]
  · rw [getD_setIfInBounds, if_neg (by omega), getD_setIfInBounds, if_pos (by omega)]
  · rw [getD_setIfInBounds, if_pos (by omega)]

theorem getD_setTextWord_of_not_mem {i k : Nat} (hk : k < i ∨ i + 4 ≤ k) (v : Word32) :
    (setTextWord t i v).getD k 0 = t.getD k 0 := by
  rw [setTextWord, getD_setIfInBounds, if_neg (by omega), getD_setIfInBounds, if_neg (by omega), getD_setIfInBounds,
    if_neg (by omega), getD_setIfInBounds, if_neg (by omega)]

theorem word_of_bytes (v : Word32) :
    v.extractLsb' 24 8 ++ v.extractLsb' 16 8 ++ v.extractLsb' 8 8 ++ v.extractLsb' 0 8 = v := by
  rw [BitVec.extractLsb'_append_extractLsb'_eq_extractLsb' (show 24 = 16 + 8 from rfl),
    BitVec.extractLsb'_append_extractLsb'_eq_extractLsb' (show 16 = 8 + 8 from rfl),
    BitVec.extractLsb'_append_extractLsb'_eq_extractLsb' (show 8 = 0 + 8 from rfl)]
  exact BitVec.extractLsb'_eq_self

theorem textWord_setTextWord_same {i : Nat} (hi : i + 4 ≤ n) (v : Word32) : textWord (setTextWord t i v) i = v := by
  rw [textWord, getD_setTextWord_of_mem t hi (by decide), getD_setTextWord_of_mem t hi (by decide),
    getD_setTextWord_of_mem t hi (by decide)]
  have hfirst := getD_setTextWord_of_mem t hi (j := 0) (by decide) v
  rw [Nat.add_zero] at hfirst
  rw [hfirst]
  exact word_of_bytes v

theorem textWord_setTextWord_other {i j : Nat} (h : j + 4 ≤ i ∨ i + 4 ≤ j) (v : Word32) :
    textWord (setTextWord t i v) j = textWord t j := by
  rw [textWord, textWord, getD_setTextWord_of_not_mem t (by omega), getD_setTextWord_of_not_mem t (by omega),
    getD_setTextWord_of_not_mem t (by omega), getD_setTextWord_of_not_mem t (by omega)]

end

/-! ## The halves of a 64-bit register (R82) -/

section

variable (x : BitVec 64) (v : Word32)

@[simp] theorem lo32_withLo : lo32 (withLo x v) = v := BitVec.extractLsb'_append_eq_right
@[simp] theorem hi32_withLo : hi32 (withLo x v) = hi32 x := BitVec.extractLsb'_append_eq_left
@[simp] theorem lo32_withHi : lo32 (withHi x v) = lo32 x := BitVec.extractLsb'_append_eq_right
@[simp] theorem hi32_withHi : hi32 (withHi x v) = v := BitVec.extractLsb'_append_eq_left

end

/-! ## The station window, register by register (R61) -/

section

variable {st : Station} {o : Nat}

theorem readStation_csBuf (hlow : 0x18 ≤ o) (hhigh : o < 0x20) : readStation st o = textWord st.csBuf (o - 0x18) := by
  rw [readStation, if_neg (by omega), if_neg (by omega), if_neg (by omega), if_neg (by omega), if_neg (by omega),
    if_pos ⟨hlow, hhigh⟩]

theorem readStation_psBuf (hlow : 0x20 ≤ o) (hhigh : o < 0x30) : readStation st o = textWord st.psBuf (o - 0x20) := by
  rw [readStation, if_neg (by omega), if_neg (by omega), if_neg (by omega), if_neg (by omega), if_neg (by omega),
    if_neg (by omega), if_pos ⟨hlow, hhigh⟩]

theorem readStation_rtBuf (hlow : 0x30 ≤ o) (hhigh : o < 0x70) : readStation st o = textWord st.rtBuf (o - 0x30) := by
  rw [readStation, if_neg (by omega), if_neg (by omega), if_neg (by omega), if_neg (by omega), if_neg (by omega),
    if_neg (by omega), if_neg (by omega), if_pos ⟨hlow, hhigh⟩]

theorem readStation_live (h : 0x70 ≤ o) : readStation st o = if st.active then readLive st o else 0#32 := by
  rw [readStation, if_neg (by omega), if_neg (by omega), if_neg (by omega), if_neg (by omega), if_neg (by omega),
    if_neg (by omega), if_neg (by omega), if_neg (by omega)]

theorem writeStaging_csBuf (hlow : 0x18 ≤ o) (hhigh : o < 0x20) (v : Word32) :
    writeStaging o v st = { st with csBuf := setTextWord st.csBuf (o - 0x18) v } := by
  rw [writeStaging, if_neg (by omega), if_neg (by omega), if_neg (by omega), if_neg (by omega), if_pos ⟨hlow, hhigh⟩]

theorem writeStaging_psBuf (hlow : 0x20 ≤ o) (hhigh : o < 0x30) (v : Word32) :
    writeStaging o v st = { st with psBuf := setTextWord st.psBuf (o - 0x20) v } := by
  rw [writeStaging, if_neg (by omega), if_neg (by omega), if_neg (by omega), if_neg (by omega), if_neg (by omega),
    if_pos ⟨hlow, hhigh⟩]

theorem writeStaging_rtBuf (hlow : 0x30 ≤ o) (hhigh : o < 0x70) (v : Word32) :
    writeStaging o v st = { st with rtBuf := setTextWord st.rtBuf (o - 0x30) v } := by
  rw [writeStaging, if_neg (by omega), if_neg (by omega), if_neg (by omega), if_neg (by omega), if_neg (by omega),
    if_neg (by omega), if_pos ⟨hlow, hhigh⟩]

/-- A station with other staging fields reads alike where those fields do. -/
theorem readStation_staged {desc csBuf psBuf rtBuf dfreq csLen psLen rtLen}
    (hdesc : o = 0x00 → desc = st.desc)
    (hlo : o = 0x08 → lo32 (F64.bits dfreq) = lo32 st.dfreq.bits)
    (hhi : o = 0x0C → hi32 (F64.bits dfreq) = hi32 st.dfreq.bits)
    (hlens : o = 0x10 → csLen = st.csLen ∧ psLen = st.psLen ∧ rtLen = st.rtLen)
    (hcs : 0x18 ≤ o → o < 0x20 → textWord csBuf (o - 0x18) = textWord st.csBuf (o - 0x18))
    (hps : 0x20 ≤ o → o < 0x30 → textWord psBuf (o - 0x20) = textWord st.psBuf (o - 0x20))
    (hrt : 0x30 ≤ o → o < 0x70 → textWord rtBuf (o - 0x30) = textWord st.rtBuf (o - 0x30)) :
    readStation { st with
      desc := desc, dfreq := dfreq, csLen := csLen, psLen := psLen, rtLen := rtLen
      csBuf := csBuf, psBuf := psBuf, rtBuf := rtBuf } o = readStation st o := by
  rw [readStation, readStation]
  simp only [Station.active]
  split_ifs with h0 h4 h8 hC h10 hcsRange hpsRange hrtRange
  · rw [hdesc h0]
  · rfl
  · exact hlo h8
  · exact hhi hC
  · obtain ⟨rfl, rfl, rfl⟩ := hlens h10
    rfl
  · exact hcs hcsRange.1 hcsRange.2
  · exact hps hpsRange.1 hpsRange.2
  · exact hrt hrtRange.1 hrtRange.2
  · rfl
  · rfl

end

/-- The offsets of the staging registers (R47, R61). -/
def StagingOffset (off : Nat) : Prop :=
  off = 0x00 ∨ off = 0x08 ∨ off = 0x0C ∨ off = 0x10 ∨ (0x18 ≤ off ∧ off < 0x70)

/-- The named bits of a staging register (R61). -/
def stagingMask (off : Nat) : Word32 :=
  if off = 0x00 then 0x3F#32 else if off = 0x10 then 0xFFFFFF#32 else 0xFFFFFFFF#32

theorem stagingMask_text {off : Nat} (h : 0x18 ≤ off) (v : Word32) : v &&& stagingMask off = v := by
  rw [stagingMask, if_neg (by omega), if_neg (by omega)]
  exact BitVec.and_allOnes

theorem lowBytes_eq_and (v : Word32) :
    0#8 ++ v.extractLsb' 16 8 ++ v.extractLsb' 8 8 ++ v.extractLsb' 0 8 = v &&& 0xFFFFFF#32 := by
  conv_rhs => rw [← word_of_bytes v]
  rw [show (0xFFFFFF#32 : Word32) = 0x00#8 ++ 0xFF#8 ++ 0xFF#8 ++ 0xFF#8 from rfl, BitVec.and_append, BitVec.and_append,
    BitVec.and_append, BitVec.and_zero]
  exact congrArg₂ _ (congrArg₂ _ (congrArg₂ _ rfl BitVec.and_allOnes.symm) BitVec.and_allOnes.symm)
    BitVec.and_allOnes.symm

/-- A staging register keeps the named bits written to it (R61). -/
theorem readStation_writeStaging_same {off : Nat} (hoff : StagingOffset off) (halign : off % 4 = 0) (v : Word32)
    (st : Station) : readStation (writeStaging off v st) off = v &&& stagingMask off := by
  rcases hoff with rfl | rfl | rfl | rfl | ⟨hlow, hhigh⟩
  · show (v &&& 0x3F#32) &&& 0x3F#32 = v &&& 0x3F#32
    rw [BitVec.and_assoc, BitVec.and_self]
  · exact (lo32_withLo _ v).trans BitVec.and_allOnes.symm
  · exact (hi32_withHi _ v).trans BitVec.and_allOnes.symm
  · exact lowBytes_eq_and v
  · rw [stagingMask_text hlow]
    by_cases hcs : off < 0x20
    · rw [writeStaging_csBuf hlow hcs, readStation_csBuf hlow hcs]
      exact textWord_setTextWord_same _ (by omega) v
    by_cases hps : off < 0x30
    · rw [writeStaging_psBuf (by omega) hps, readStation_psBuf (by omega) hps]
      exact textWord_setTextWord_same _ (by omega) v
    · rw [writeStaging_rtBuf (by omega) hhigh, readStation_rtBuf (by omega) hhigh]
      exact textWord_setTextWord_same _ (by omega) v

/-- Every other register of the window reads as before. -/
theorem readStation_writeStaging_other {off o : Nat} (hoff : StagingOffset off) (halign : off % 4 = 0)
    (ho : o % 4 = 0) (hne : o ≠ off) (v : Word32) (st : Station) :
    readStation (writeStaging off v st) o = readStation st o := by
  rcases hoff with rfl | rfl | rfl | rfl | ⟨hlow, hhigh⟩
  · exact readStation_staged (fun h => absurd h hne) (fun _ => rfl) (fun _ => rfl) (fun _ => ⟨rfl, rfl, rfl⟩) (fun _ _ => rfl) (fun _ _ => rfl) (fun _ _ => rfl)
  · exact readStation_staged (fun _ => rfl) (fun h => absurd h hne) (fun _ => hi32_withLo _ v)
      (fun _ => ⟨rfl, rfl, rfl⟩) (fun _ _ => rfl) (fun _ _ => rfl) (fun _ _ => rfl)
  · exact readStation_staged (fun _ => rfl) (fun _ => lo32_withHi _ v) (fun h => absurd h hne)
      (fun _ => ⟨rfl, rfl, rfl⟩) (fun _ _ => rfl) (fun _ _ => rfl) (fun _ _ => rfl)
  · exact readStation_staged (fun _ => rfl) (fun _ => rfl) (fun _ => rfl) (fun h => absurd h hne)
      (fun _ _ => rfl) (fun _ _ => rfl) (fun _ _ => rfl)
  · by_cases hcs : off < 0x20
    · rw [writeStaging_csBuf hlow hcs]
      exact readStation_staged (fun _ => rfl) (fun _ => rfl) (fun _ => rfl) (fun _ => ⟨rfl, rfl, rfl⟩)
        (fun _ _ => textWord_setTextWord_other _ (by omega) v) (fun _ _ => rfl) (fun _ _ => rfl)
    by_cases hps : off < 0x30
    · rw [writeStaging_psBuf (by omega) hps]
      exact readStation_staged (fun _ => rfl) (fun _ => rfl) (fun _ => rfl) (fun _ => ⟨rfl, rfl, rfl⟩)
        (fun _ _ => rfl) (fun _ _ => textWord_setTextWord_other _ (by omega) v) (fun _ _ => rfl)
    · rw [writeStaging_rtBuf (by omega) hhigh]
      exact readStation_staged (fun _ => rfl) (fun _ => rfl) (fun _ => rfl) (fun _ => ⟨rfl, rfl, rfl⟩)
        (fun _ _ => rfl) (fun _ _ => rfl) (fun _ _ => textWord_setTextWord_other _ (by omega) v)

/-- A write to a staging register changes staging fields alone. -/
theorem writeStaging_keeps (off : Nat) (v : Word32) (st : Station) :
    writeStaging off v st = { st with
      desc := (writeStaging off v st).desc, dfreq := (writeStaging off v st).dfreq
      csLen := (writeStaging off v st).csLen, psLen := (writeStaging off v st).psLen
      rtLen := (writeStaging off v st).rtLen, csBuf := (writeStaging off v st).csBuf
      psBuf := (writeStaging off v st).psBuf, rtBuf := (writeStaging off v st).rtBuf } := by
  rw [writeStaging]
  split_ifs <;> rfl

/-! ## Reading and writing slot `i`'s window over the bus -/

section

variable {s : State} {i o : Nat} {sl : Slot}

theorem toNat_windowOffset (hi : i < 32) (ho : o < 0x100) :
    (BitVec.ofNat 32 (0x100 + 0x100 * i + o)).toNat = 0x100 + 0x100 * i + o := by
  rw [BitVec.toNat_ofNat]
  omega

theorem busTarget_window_register (hi : i < 32) (hlen : i < s.slots.length) (ho : o < 0x100) (halign : o % 4 = 0) :
    busTarget s.slots.length (BitVec.ofNat 32 (0x100 + 0x100 * i + o)).toNat 32 = .station i o := by
  rw [toNat_windowOffset hi ho, busTarget_of_station (by omega) (by omega) (by omega)]
  congr 1 <;> omega

theorem busRead_station (hsl : s.slots[i]? = some sl) (hi : i < 32) (ho : o < 0x100) (halign : o % 4 = 0) :
    busRead s (BitVec.ofNat 32 (0x100 + 0x100 * i + o)) 32 = some (readStation sl.st o) := by
  rw [busRead, busTarget_window_register hi (List.getElem?_eq_some_iff.mp hsl).1 ho halign]
  dsimp only
  rw [hsl, Option.elim_some]

theorem busRead_station_misaligned (hi : i < 32) (ho : o < 0x100) (halign : o % 4 ≠ 0) :
    busRead s (BitVec.ofNat 32 (0x100 + 0x100 * i + o)) 32 = none := by
  rw [busRead_eq_none_iff, toNat_windowOffset hi ho]
  rintro ⟨-, haligned, -⟩
  omega

theorem writeStation_of_uninit (hlife : s.life = .uninit) (hsl : s.slots[i]? = some sl) (v : Word32) :
    writeStation i o v s = { s with slots := s.slots.set i { sl with st := writeStaging o v sl.st } } := by
  rw [writeStation, if_pos hlife, hsl]

theorem writeStation_of_ne_uninit (hlife : s.life ≠ .uninit) (v : Word32) : writeStation i o v s = s :=
  if_neg hlife

end

/-- Settles O28: the write reaches the staging register, which then reads what was written, and no other does. -/
theorem stagingWritesOnlyInUninit : Obligations.StagingWritesOnlyInUninit := by
  intro s i off v sl rest hsl hi halign hoff
  dsimp only
  intro hinbox
  have hlen : i < s.slots.length := (List.getElem?_eq_some_iff.mp hsl).1
  have hhigh : off < 0x100 := by omega
  rw [step_write_of_station hinbox (busTarget_window_register hi hlen hhigh halign)]
  refine ⟨fun hlife => ⟨writeStaging off v sl.st, ?_, writeStaging_keeps off v sl.st, ?_, fun o ho hne => ?_⟩,
    fun hlife => ?_⟩
  · rw [writeStation_of_uninit (s := takeEvent rest s) hlife hsl]
    rfl
  · rw [busRead_station (List.getElem?_set_self hlen) hi hhigh halign]
    exact congrArg some (readStation_writeStaging_same hoff halign v sl.st)
  · by_cases ho4 : o % 4 = 0
    · rw [busRead_station (List.getElem?_set_self hlen) hi ho ho4, busRead_station hsl hi ho ho4]
      exact congrArg some (readStation_writeStaging_other hoff halign ho4 hne v sl.st)
    · rw [busRead_station_misaligned hi ho ho4, busRead_station_misaligned hi ho ho4]
  · rw [writeStation_of_ne_uninit (s := takeEvent rest s) hlife]
    rfl

end Sys2Proof.Machine

/-! SUPPORT. The value of every register (spec 10_state.md R60, R61, R62). -/

namespace Sys2Proof.Machine

/-! ## Fields of a word as one number -/

theorem ofBool_eq_ofNat_toNat (b : Bool) : BitVec.ofBool b = BitVec.ofNat 1 b.toNat := by
  cases b <;> rfl

/-- Three byte fields of a word, the lowest first. -/
theorem bytes_eq_ofNat (a b c : Byte) :
    0#8 ++ c ++ b ++ a = BitVec.ofNat 32 (a.toNat + 2 ^ 8 * b.toNat + 2 ^ 16 * c.toNat) := by
  calc 0#8 ++ c ++ b ++ a
      = 0#8 ++ BitVec.ofNat 8 c.toNat ++ BitVec.ofNat 8 b.toNat ++ BitVec.ofNat 8 a.toNat := by
        simp only [BitVec.ofNat_toNat, BitVec.setWidth_eq]
    _ = _ := by
        rw [ofNat_append_ofNat 0 c.isLt, ofNat_append_ofNat _ b.isLt, ofNat_append_ofNat _ a.isLt]
        congr 1
        omega

theorem piWord_eq (x : BitVec 16) : 0#16 ++ x = BitVec.ofNat 32 x.toNat := by
  calc 0#16 ++ x = 0#16 ++ BitVec.ofNat 16 x.toNat := by simp only [BitVec.ofNat_toNat, BitVec.setWidth_eq]
    _ = _ := by rw [ofNat_append_ofNat 0 x.isLt, Nat.mul_zero, Nat.zero_add]

theorem statusWord_eq (st : Station) :
    0#16 ++ st.code.byte ++ 0#6 ++ st.status.code.extractLsb' 0 2 =
      BitVec.ofNat 32 ((match st.status with | .empty => 0 | .active => 1 | .skipped => 2) +
        256 * st.code.byte.toNat) := by
  cases st.status <;> cases st.code <;> rfl

theorem capsWord_eq {n : Nat} (h : n ≤ 32) :
    0#8 ++ BitVec.ofNat 8 tapsPerPhase ++ BitVec.ofNat 8 phases ++ BitVec.ofNat 8 n = BitVec.ofNat 32 (n + 0x030A00) := by
  rw [ofNat_append_ofNat 0 (by decide), ofNat_append_ofNat _ (by decide), ofNat_append_ofNat _ (by omega)]
  congr 1
  rw [tapsPerPhase, phases]
  omega

theorem rds0Word_eq {p : Params} {r : Rds} (h : RdsInRange p r) :
    rds0Word r = BitVec.ofNat 32 (r.grpCur + 2 ^ 8 * r.psIdx + 2 ^ 16 * r.rtIdx + 2 ^ 24 * r.phase4 +
      (if r.diffPrev then 2 ^ 31 else 0)) := by
  obtain ⟨-, -, -, -, -, -, hphase, hgrp, hps, hrt, -⟩ := h
  rw [rds0Word, ofBool_eq_ofNat_toNat, ofNat_append_ofNat _ (by decide), ofNat_append_ofNat _ (by omega),
    ofNat_append_ofNat _ (by decide), ofNat_append_ofNat _ (by omega), ofNat_append_ofNat _ (by decide),
    ofNat_append_ofNat _ (by omega), ofNat_append_ofNat _ (by decide), ofNat_append_ofNat _ (by omega)]
  congr 1
  cases r.diffPrev <;> simp <;> omega

theorem rds1Word_eq {p : Params} {r : Rds} (h : RdsInRange p r) :
    rds1Word r = BitVec.ofNat 32 (r.bitPos + 2 ^ 8 * r.sampleCnt) := by
  obtain ⟨hpos, hcnt, -⟩ := h
  rw [groupBits] at hpos
  rw [spb] at hcnt
  rw [rds1Word, ofNat_append_ofNat 0 (by omega), ofNat_append_ofNat _ (by decide), ofNat_append_ofNat _ (by omega)]
  congr 1
  omega

theorem rds2Word_eq {p : Params} {r : Rds} (h : RdsInRange p r) :
    rds2Word r = match r.lastMin with | none => 0xFF#32 | some m => BitVec.ofNat 32 m := by
  obtain ⟨-, -, -, -, -, -, -, -, -, -, hmin⟩ := h
  rw [rds2Word]
  cases hlast : r.lastMin with
  | none => rfl
  | some m =>
    rw [hlast, Option.getD_some] at hmin
    rw [Option.elim_some, ofNat_append_ofNat 0 (by omega), Nat.mul_zero, Nat.zero_add]

theorem mpxWord_eq {st : Station} (h : st.q12 < 12) :
    mpxWord st = BitVec.ofNat 32 (st.q12 + (if st.oobLast then 2 ^ 8 else 0)) := by
  rw [mpxWord, ofBool_eq_ofNat_toNat, ofNat_append_ofNat 0 (by cases st.oobLast <;> decide),
    ofNat_append_ofNat _ (by decide), ofNat_append_ofNat _ (by omega)]
  congr 1
  cases st.oobLast
  · simp
  · simp; omega

/-! ## ACTIVE_MASK (R60) -/

theorem getLsbD_two_pow (i : Nat) {b : Nat} (hb : b < 32) : (BitVec.ofNat 32 (2 ^ i)).getLsbD b = decide (i = b) := by
  rw [BitVec.getLsbD_ofNat, Nat.testBit_two_pow, decide_eq_true hb, Bool.true_and]

/-- Setting one bit per member of a list sets the bits that are members. -/
theorem getLsbD_foldl_or (l : List Nat) (m : Word32) {b : Nat} (hb : b < 32) :
    (l.foldl (fun m i => m ||| BitVec.ofNat 32 (2 ^ i)) m).getLsbD b = true ↔ m.getLsbD b = true ∨ b ∈ l := by
  induction l generalizing m with
  | nil => simp
  | cons i l ih =>
    rw [List.foldl_cons, ih, BitVec.getLsbD_or, getLsbD_two_pow i hb, List.mem_cons, Bool.or_eq_true, decide_eq_true_eq,
      or_assoc, @eq_comm _ i b]

theorem activeMask_bit (s : State) {b : Nat} (hb : b < 32) :
    (activeMask s).getLsbD b = true ↔ ∃ sl, s.slots[b]? = some sl ∧ sl.st.status = .active := by
  rw [activeMask, getLsbD_foldl_or _ _ hb, mem_activeSlots_iff]
  simp [Station.active]

/-! ## The global registers (R60) -/

theorem busRead_global (s : State) {o : Nat} (halign : o % 4 = 0) (ho : o < 0x100) :
    busRead s (BitVec.ofNat 32 o) 32 = some (readGlobal s o) := by
  have hnat : (BitVec.ofNat 32 o).toNat = o := by
    rw [BitVec.toNat_ofNat]; omega
  rw [busRead, hnat, busTarget_of_global halign ho]

theorem readGlobal_reserved (s : State) {o : Nat} (h : 0x060 ≤ o) : readGlobal s o = 0#32 := by
  rw [readGlobal] <;> omega

/-- A byte of a text over the bus is the byte of its word, where `reg` holds the text's words from `off` on. -/
theorem byte_of_word {n : Nat} {t : Vector Byte n} {reg : Nat → Word32} {read : Nat → Option Word32} {off : Nat}
    (hread : ∀ o, off ≤ o → o < off + n → o % 4 = 0 → read o = some (reg o)) (hoff : off % 4 = 0)
    (hword : ∀ o, off ≤ o → o < off + n → o % 4 = 0 → reg o = textWord t (o - off)) {k : Nat} (hk : k < n) :
    (read (off + 4 * (k / 4))).map (fun w => w.extractLsb' (8 * (k % 4)) 8) = some (t.getD k 0) := by
  rw [hread _ (by omega) (by omega) (by omega), Option.map_some, hword _ (by omega) (by omega) (by omega),
    Nat.add_sub_cancel_left, textWord_byte_at]

theorem readStation_of_inactive {st : Station} {o : Nat} (h : st.status ≠ .active) (ho : 0x70 ≤ o) :
    readStation st o = 0#32 := by
  rw [readStation_live ho, if_neg (by simpa [Station.active] using h)]

theorem readStation_of_active {st : Station} {o : Nat} (h : st.status = .active) (ho : 0x70 ≤ o) :
    readStation st o = readLive st o := by
  rw [readStation_live ho, if_pos (by simpa [Station.active] using h)]

theorem readLive_csN (st : Station) {o : Nat} (hlow : 0x70 ≤ o) (hhigh : o < 0x70 + 4) (halign : o % 4 = 0) :
    readLive st o = textWord st.csN (o - 0x70) := by
  obtain rfl : o = 0x70 := by omega
  rfl

theorem readLive_psN (st : Station) {o : Nat} (hlow : 0xB0 ≤ o) (hhigh : o < 0xB0 + 8) :
    readLive st o = textWord st.psN (o - 0xB0) :=
  if_pos ⟨hlow, hhigh⟩

theorem readLive_rtN (st : Station) {o : Nat} (hlow : 0xC0 ≤ o) (hhigh : o < 0xC0 + 64) :
    readLive st o = textWord st.rtN (o - 0xC0) :=
  (if_neg (by omega)).trans (if_pos ⟨hlow, hhigh⟩)

/-- The reserved registers of a station window. -/
theorem readStation_reserved (st : Station) : ∀ o ∈ [0x14, 0xA8, 0xAC, 0xB8, 0xBC], readStation st o = 0#32 := by
  intro o ho
  simp only [List.mem_cons, List.not_mem_nil, or_false] at ho
  rcases ho with rfl | rfl | rfl | rfl | rfl
  all_goals
    show (if st.active then 0#32 else 0#32) = 0#32
    exact ite_self _

/-- The staging registers, ST_STATUS and the reserved registers of a window, at bus offsets that `read` answers. -/
theorem staging_registers {st : Station} {read : Nat → Option Word32}
    (hread : ∀ o, o < 0x100 → o % 4 = 0 → read o = some (readStation st o)) :
    read 0x00 = some (st.desc &&& 0x3F#32) ∧
    read 0x04 = some (BitVec.ofNat 32 ((match st.status with | .empty => 0 | .active => 1 | .skipped => 2) +
      256 * st.code.byte.toNat)) ∧
    read 0x08 = some (lo32 st.dfreq.bits) ∧ read 0x0C = some (hi32 st.dfreq.bits) ∧
    read 0x10 = some (BitVec.ofNat 32 (st.csLen.toNat + 2 ^ 8 * st.psLen.toNat + 2 ^ 16 * st.rtLen.toNat)) ∧
    (∀ k, k < 8 → (read (0x18 + 4 * (k / 4))).map (fun w => w.extractLsb' (8 * (k % 4)) 8) = some (st.csBuf.getD k 0)) ∧
    (∀ k, k < 16 → (read (0x20 + 4 * (k / 4))).map (fun w => w.extractLsb' (8 * (k % 4)) 8) = some (st.psBuf.getD k 0)) ∧
    (∀ k, k < 64 → (read (0x30 + 4 * (k / 4))).map (fun w => w.extractLsb' (8 * (k % 4)) 8) = some (st.rtBuf.getD k 0)) ∧
    ∀ o ∈ [0x14, 0xA8, 0xAC, 0xB8, 0xBC], read o = some 0#32 := by
  have hword : ∀ {o : Nat} {w : Word32}, o < 0x100 → o % 4 = 0 → readStation st o = w → read o = some w :=
    fun ho h4 hw => (hread _ ho h4).trans (congrArg some hw)
  refine ⟨hword (by decide) (by decide) rfl, hword (by decide) (by decide) (statusWord_eq st),
    hword (by decide) (by decide) rfl, hword (by decide) (by decide) rfl,
    hword (by decide) (by decide) (bytes_eq_ofNat _ _ _), fun k hk => ?_, fun k hk => ?_, fun k hk => ?_,
    fun o ho => hword ?_ ?_ (readStation_reserved st o ho)⟩
  · exact byte_of_word (fun o _ _ h4 => hread o (by omega) h4) (by decide) (fun _ hlow hhigh _ => readStation_csBuf hlow hhigh) hk
  · exact byte_of_word (fun o _ _ h4 => hread o (by omega) h4) (by decide) (fun _ hlow hhigh _ => readStation_psBuf hlow hhigh) hk
  · exact byte_of_word (fun o _ _ h4 => hread o (by omega) h4) (by decide) (fun _ hlow hhigh _ => readStation_rtBuf hlow hhigh) hk
  · exact (by decide : ∀ o ∈ [0x14, 0xA8, 0xAC, 0xB8, 0xBC], o < 0x100) o ho
  · exact (by decide : ∀ o ∈ [0x14, 0xA8, 0xAC, 0xB8, 0xBC], o % 4 = 0) o ho

/-- The live registers of an active station, at bus offsets that `read` answers; the counters in their ranges. -/
theorem live_registers {p : Params} {st : Station} {read : Nat → Option Word32}
    (hread : ∀ o, 0x70 ≤ o → o < 0x100 → o % 4 = 0 → read o = some (readLive st o)) :
    (∀ k, k < 4 → (read (0x70 + 4 * (k / 4))).map (fun w => w.extractLsb' (8 * (k % 4)) 8) = some (st.csN.getD k 0)) ∧
    (∀ k, k < 8 → (read (0xB0 + 4 * (k / 4))).map (fun w => w.extractLsb' (8 * (k % 4)) 8) = some (st.psN.getD k 0)) ∧
    (∀ k, k < 64 → (read (0xC0 + 4 * (k / 4))).map (fun w => w.extractLsb' (8 * (k % 4)) 8) = some (st.rtN.getD k 0)) ∧
    read 0x74 = some (BitVec.ofNat 32 st.pi.toNat) ∧
    read 0x78 = some (lo32 st.tuning.tuned.bits) ∧ read 0x7C = some (hi32 st.tuning.tuned.bits) ∧
    read 0x80 = some (lo32 st.tuning.normFc.bits) ∧ read 0x84 = some (hi32 st.tuning.normFc.bits) ∧
    read 0x88 = some (lo32 st.fmPhase.bits) ∧ read 0x8C = some (hi32 st.fmPhase.bits) ∧
    read 0x90 = some (lo32 st.tunerPhase.bits) ∧ read 0x94 = some (hi32 st.tunerPhase.bits) ∧
    (RdsInRange p st.rds → st.q12 < 12 →
      read 0x98 = some (BitVec.ofNat 32 (st.rds.grpCur + 2 ^ 8 * st.rds.psIdx + 2 ^ 16 * st.rds.rtIdx +
        2 ^ 24 * st.rds.phase4 + (if st.rds.diffPrev then 2 ^ 31 else 0))) ∧
      read 0x9C = some (BitVec.ofNat 32 (st.rds.bitPos + 2 ^ 8 * st.rds.sampleCnt)) ∧
      read 0xA0 = some (match st.rds.lastMin with | none => 0xFF#32 | some m => BitVec.ofNat 32 m) ∧
      read 0xA4 = some (BitVec.ofNat 32 (st.q12 + (if st.oobLast then 2 ^ 8 else 0)))) := by
  have hword : ∀ {o : Nat} {w : Word32}, 0x70 ≤ o → o < 0x100 → o % 4 = 0 → readLive st o = w → read o = some w :=
    fun hlow hhigh h4 hw => (hread _ hlow hhigh h4).trans (congrArg some hw)
  refine ⟨fun k hk => ?_, fun k hk => ?_, fun k hk => ?_, hword (by decide) (by decide) (by decide) (piWord_eq st.pi),
    hword (by decide) (by decide) (by decide) rfl, hword (by decide) (by decide) (by decide) rfl,
    hword (by decide) (by decide) (by decide) rfl, hword (by decide) (by decide) (by decide) rfl,
    hword (by decide) (by decide) (by decide) rfl, hword (by decide) (by decide) (by decide) rfl,
    hword (by decide) (by decide) (by decide) rfl, hword (by decide) (by decide) (by decide) rfl,
    fun hrds hq12 => ⟨hword (by decide) (by decide) (by decide) (rds0Word_eq hrds),
      hword (by decide) (by decide) (by decide) (rds1Word_eq hrds),
      hword (by decide) (by decide) (by decide) (rds2Word_eq hrds),
      hword (by decide) (by decide) (by decide) (mpxWord_eq hq12)⟩⟩
  · exact byte_of_word (fun o hlow _ h4 => hread o (by omega) (by omega) h4) (by decide)
      (fun o hlow hhigh h4 => readLive_csN st hlow hhigh h4) hk
  · exact byte_of_word (fun o hlow _ h4 => hread o (by omega) (by omega) h4) (by decide)
      (fun o hlow hhigh _ => readLive_psN st hlow hhigh) hk
  · exact byte_of_word (fun o hlow _ h4 => hread o (by omega) (by omega) h4) (by decide)
      (fun o hlow hhigh _ => readLive_rtN st hlow hhigh) hk

/-- Settles O25: the global registers by offset, then a window's staging registers and its live ones. -/
theorem registersRead : Obligations.RegistersRead := by
  intro s hslots
  refine ⟨?_, fun i sl hsl => ?_⟩
  · have hcaps : busRead s 0x004#32 32 = _ := busRead_global s (o := 0x004) (by decide) (by decide)
    refine ⟨busRead_global s (by decide) (by decide), hcaps.trans (congrArg some (capsWord_eq hslots)),
      busRead_global s (by decide) (by decide), busRead_global s (by decide) (by decide),
      busRead_global s (by decide) (by decide), busRead_global s (by decide) (by decide), ?life,
      busRead_global s (by decide) (by decide), busRead_global s (by decide) (by decide),
      busRead_global s (by decide) (by decide), busRead_global s (by decide) (by decide),
      busRead_global s (by decide) (by decide), busRead_global s (by decide) (by decide),
      busRead_global s (by decide) (by decide), busRead_global s (by decide) (by decide),
      busRead_global s (by decide) (by decide), busRead_global s (by decide) (by decide),
      busRead_global s (by decide) (by decide), ?noiseEn, busRead_global s (by decide) (by decide),
      busRead_global s (by decide) (by decide), busRead_global s (by decide) (by decide),
      busRead_global s (by decide) (by decide),
      ⟨_, busRead_global s (by decide) (by decide), fun b hb => activeMask_bit s hb⟩, fun off hlow hhigh h4 => ?reserved⟩
    case life =>
      refine (busRead_global s (o := 0x018) (by decide) (by decide)).trans (congrArg some ?_)
      show s.life.code = _
      cases s.life <;> rfl
    case noiseEn =>
      refine (busRead_global s (o := 0x048) (by decide) (by decide)).trans (congrArg some ?_)
      show BitVec.setWidth 32 (BitVec.ofBool s.noiseEn) = _
      cases s.noiseEn <;> rfl
    case reserved =>
      rw [← readGlobal_reserved s hlow, busRead, busTarget_of_global h4 hhigh]
  · have hi : i < 32 := lt_of_lt_of_le (List.getElem?_eq_some_iff.mp hsl).1 hslots
    have hread : ∀ o, o < 0x100 → o % 4 = 0 →
        busRead s (BitVec.ofNat 32 (0x100 + 0x100 * i + o)) 32 = some (readStation sl.st o) :=
      fun o ho h4 => busRead_station hsl hi ho h4
    refine ⟨staging_registers hread, fun hinactive o hlow hhigh h4 => ?_, fun hactive => ?_⟩
    · exact (hread o hhigh h4).trans (congrArg some (readStation_of_inactive hinactive hlow))
    · exact live_registers (fun o hlow hhigh h4 => (hread o hhigh h4).trans
        (congrArg some (readStation_of_active hactive hlow)))

end Sys2Proof.Machine

/-! SUPPORT. The machine after power-on; the timer, the stages of a tick in RUNNING and the choices of R96 (spec
70_reset_and_hazards.md R410; 44_backend.md R320; 60_exceptions.md R391 to R395; 20_memory.md R96, R97). -/

namespace Sys2Proof.Machine

/-! ## Power-on (R410) -/

/-- Resetting the machine after power-on changes nothing. -/
theorem resetAll_reset : resetAll State.reset = State.reset := by
  rw [resetAll, State.reset]
  simp only [State.resetWith, List.map_replicate]

theorem mem_reset_slots {sl : Slot} (h : sl ∈ State.reset.slots) :
    sl.st = Station.fresh State.reset.par ∧ StationAtReset State.reset.par sl.st :=
  resetAll_slots_fresh State.reset sl (by rwa [resetAll_reset])

theorem reset_slots_length : State.reset.slots.length = Config.anySlots.val + 1 := List.length_replicate

/-- Settles O18: R410's table over the configuration, whose slots are fresh. -/
theorem powerOnState : Obligations.PowerOnState := by
  refine ⟨rfl, rfl, rfl, rfl, rfl, rfl, rfl, rfl, rfl, rfl, rfl, rfl, rfl, rfl, rfl, rfl, rfl, rfl, rfl,
    fun sl hsl => mem_reset_slots hsl, ?_, ?_, Config.params_wf, irqLine_of_none_enabled rfl⟩
  · rw [reset_slots_length]
    omega
  · rw [reset_slots_length]
    exact Config.anySlots.isLt

theorem reset_lifeConsistent : LifeConsistent State.reset := by
  rw [← resetAll_reset]
  exact resetAll_consistent State.reset

/-- Settles O59: each invariant of a state whose registers are at their reset values and whose slots are fresh. -/
theorem powerOnHasTheInvariants : Obligations.PowerOnHasTheInvariants := by
  refine ⟨?settings, reset_lifeConsistent, ⟨Config.params_wf, reset_lifeConsistent, trivial, rfl, rfl, by decide⟩,
    fun sl hsl => ?locked, fun sl hsl => ?cursors, fun sl hsl b => ?histories, ⟨rfl, rfl, rfl, rfl⟩⟩
  case settings =>
    rw [← resetAll_reset]
    exact resetAll_settings Config.params_wf
  all_goals rw [(mem_reset_slots hsl).1]
  case locked => exact ⟨by decide, rfl⟩
  case cursors => exact fresh_inRange _
  case histories =>
    show (Vector.replicate 10 (Cplx.zero, Cplx.zero))[b] = (Vector.replicate 10 (Cplx.zero, Cplx.zero))[0]
    rw [Fin.getElem_fin, Vector.getElem_replicate, Vector.getElem_replicate]

/-! ## The choices (R96, R98) -/

/-- A read where something was replaced takes the next choice of the schedule. -/
theorem readShared_pick {α : Type} (now old : α) (olds : List α) (k : Nat) (ks : List Nat) (e : Env) :
    readShared now (old :: olds) { e with picks := k :: ks } =
      ((now :: old :: olds).getD (k % (olds.length + 2)) now,
        { e with picks := ks, pickDraws := e.pickDraws + 1 }) := rfl

/-- Each value of a nonempty list is the one at some choice. -/
theorem exists_pick {α : Type} {l : List α} {v : α} (d : α) (h : v ∈ l) : ∃ k, l.getD (k % l.length) d = v := by
  obtain ⟨k, hk, rfl⟩ := List.mem_iff_getElem.mp h
  exact ⟨k, by rw [Nat.mod_eq_of_lt hk, List.getD_eq_getElem _ _ hk]⟩

/-- Settles O50: nothing replaced, or a choice among the value and the replaced ones. -/
theorem tickReadsOldOrNew : Obligations.TickReadsOldOrNew := by
  intro α now olds e
  cases olds with
  | nil =>
    refine ⟨List.mem_cons_self, fun v hv ks => ⟨[], ?_, rfl⟩⟩
    exact (List.mem_singleton.mp hv).symm
  | cons old olds =>
    refine ⟨?_, fun v hv ks => ?_⟩
    · have hlt : (drawPick e).1 % (olds.length + 2) < (now :: old :: olds).length := Nat.mod_lt _ (Nat.succ_pos _)
      show (now :: old :: olds).getD ((drawPick e).1 % (olds.length + 2)) now ∈ now :: old :: olds
      rw [List.getD_eq_getElem _ _ hlt]
      exact List.getElem_mem hlt
    · obtain ⟨k, hk⟩ := exists_pick now hv
      exact ⟨[k], by rw [List.singleton_append, readShared_pick]; exact hk, by
        rw [List.singleton_append, readShared_pick]⟩

/-! ## Progress of a tick (R320) -/

section

variable {s : State} {rest : List Event}

/-- Once no station unit is left, a progress is an engine stage. -/
theorem advance_eq_backStage (h : ∀ t ts, s.tick ≠ .stations (t :: ts)) : advance s = backStage s := by
  rw [advance]
  split
  · next t ts ht => exact absurd ht (h t ts)
  · rfl

theorem advance_of_units {todo : List Nat} (h : s.tick = .stations todo) (hne : todo ≠ []) :
    ∃ i ∈ todo, advance s = { runSlot { s with env := (drawPick s.env).2 } i with tick := .stations (todo.erase i) } := by
  cases todo with
  | nil => exact absurd rfl hne
  | cons t ts =>
    refine ⟨_, pick_mem t ts (drawPick s.env).1, ?_⟩
    rw [advance, h]

/-- Each unit that remains is the next one for some choice (R98). -/
theorem exists_unit_pick {todo : List Nat} {i : Nat} (hi : i ∈ todo) :
    ∃ k, ∀ u : State, u.tick = .stations todo → ∀ ks, u.env.picks = k :: ks → advance u =
      { runSlot { u with env := { u.env with picks := ks, pickDraws := u.env.pickDraws + 1 } } i with
        tick := .stations (todo.erase i) } := by
  cases todo with
  | nil => exact absurd hi List.not_mem_nil
  | cons t ts =>
    obtain ⟨k, hk⟩ := exists_pick t hi
    refine ⟨k, fun u htick ks hks => ?_⟩
    have hdraw : drawPick u.env = (k, { u.env with picks := ks, pickDraws := u.env.pickDraws + 1 }) := by
      rw [drawPick, hks]
    have hlen : ts.length + 1 = (t :: ts).length := rfl
    rw [advance, htick]
    dsimp only
    rw [hdraw, hlen, hk]

theorem exists_unit_step {todo : List Nat} {i : Nat} (hi : i ∈ todo) :
    ∃ k, ∀ (u : State) (rest : List Event) (ks : List Nat), u.env.inbox = .advance :: rest →
      u.tick = .stations todo → u.env.picks = k :: ks → step u = .next
        { runSlot { u with env := { u.env with
            inbox := rest, picks := ks, pickDraws := u.env.pickDraws + 1 } } i with tick := .stations (todo.erase i) } := by
  obtain ⟨k, hk⟩ := exists_unit_pick hi
  refine ⟨k, fun u rest ks hinbox htick hks => ?_⟩
  exact (step_of_advance hinbox).trans (congrArg Host.Outcome.next (hk (takeEvent rest u) htick ks hks))

theorem step_of_engine (h : s.env.inbox = .advance :: rest) (hunits : ∀ t ts, s.tick ≠ .stations (t :: ts)) :
    step s = .next (backStage (takeEvent rest s)) := by
  rw [step_of_advance h]
  exact congrArg Host.Outcome.next (advance_eq_backStage (s := takeEvent rest s) hunits)

end

/-! The engine stage of each tick phase. -/

theorem backStage_of_stations {s : State} {todo : List Nat} (h : s.tick = .stations todo) : backStage s = mixStage s := by
  rw [backStage, h]

theorem backStage_of_mixed {s : State} (h : s.tick = .mixed) : backStage s = noiseStage s := by
  rw [backStage, h]

theorem backStage_of_noised {s : State} (h : s.tick = .noised) : backStage s = filterStage s := by
  rw [backStage, h]

theorem backStage_of_filtered {s : State} {y : List Cplx} (h : s.tick = .filtered y) :
    backStage s = decimateStage y s := by
  rw [backStage, h]

theorem backStage_of_decimated {s : State} {d : List Cplx} (h : s.tick = .decimated d) :
    backStage s = gainStage d s := by
  rw [backStage, h]

theorem backStage_of_gained {s : State} {o : List Cplx} (h : s.tick = .gained o) : backStage s = deliverStage o s := by
  rw [backStage, h]

/-- Settles O47: the units by the choice, then each engine stage. -/
theorem tickProgressesStageByStage : Obligations.TickProgressesStageByStage := by
  refine ⟨fun par g d => rfl, fun s rest hinbox => ?_⟩
  dsimp only
  have hstage : ∀ {p : TickPhase}, s.tick = p → (∀ t ts, p ≠ .stations (t :: ts)) →
      step s = .next (backStage (takeEvent rest s)) := fun hp hne => step_of_engine hinbox (hp ▸ hne)
  refine ⟨fun todo htick hne => ⟨?someUnit, fun i hi => ?eachUnit⟩, fun htick => ?mix, fun htick => ?noise,
    fun htick => ?filter, fun y htick => ?decimate, fun d htick => ?gain, fun o htick => ?deliver⟩
  case someUnit =>
    obtain ⟨i, hi, hadv⟩ := advance_of_units (s := takeEvent rest s) htick hne
    obtain ⟨ps, k, henv⟩ := drawPick_env (takeEvent rest s).env
    refine ⟨i, hi, ps, k, ?_⟩
    rw [step_of_advance hinbox, hadv, henv]
    rfl
  case eachUnit =>
    obtain ⟨k, hk⟩ := exists_unit_step hi
    exact ⟨k, fun ks => hk _ rest ks hinbox htick rfl⟩
  case mix =>
    rw [hstage htick nofun, backStage_of_stations (s := takeEvent rest s) htick, mixStage, setWarnIf_eq]
    rfl
  case noise =>
    rw [hstage htick nofun, backStage_of_mixed (s := takeEvent rest s) htick]
    rfl
  case filter =>
    rw [hstage htick nofun, backStage_of_noised (s := takeEvent rest s) htick]
    rfl
  case decimate =>
    rw [hstage htick nofun, backStage_of_filtered (s := takeEvent rest s) htick]
    rfl
  case gain =>
    rw [hstage htick nofun, backStage_of_decimated (s := takeEvent rest s) htick]
    rfl
  case deliver =>
    rw [hstage htick nofun, backStage_of_gained (s := takeEvent rest s) htick]
    rfl

/-! ## The timer (R391 to R393) -/

/-- Settles O48: the firing's lag test, its next deadline and the start of the tick. -/
theorem timerFiringStartsATick : Obligations.TimerFiringStartsATick := by
  intro s lag rest hinbox hlife htick
  rw [step_of_fire hinbox, fireTimer, if_pos ⟨hlife, htick⟩, setWarnIf_eq]
  rfl

/-- Settles O49: no tick is in progress, and the timer fires only while RUNNING. -/
theorem onlyTheHostActsUnlessRunning : Obligations.OnlyTheHostActsUnlessRunning := by
  intro s t ev rest hconsistent hlife hinbox hnotBus hstep
  have htick : (takeEvent rest s).tick = .idle := hconsistent.tick_idle hlife
  cases ev with
  | bus op => exact absurd rfl (hnotBus op)
  | fire lag =>
    rw [step_of_fire hinbox, fireTimer, if_neg fun h => hlife h.1] at hstep
    exact (Host.Outcome.next.inj hstep).symm
  | advance =>
    rw [step_of_engine hinbox (by rw [show s.tick = _ from htick]; nofun), backStage_of_idle htick] at hstep
    exact (Host.Outcome.next.inj hstep).symm

/-! ## A rate change within a tick (R97) -/

/-- Where one value was replaced, each of the two is the one read for some choice. -/
theorem exists_pick_of_two {α : Type} {now old v : α} (h : v ∈ [now, old]) :
    ∃ k, ∀ olds, olds = [old] → ∀ (e : Env) (ks : List Nat), e.picks = k :: ks →
      readShared now olds e = (v, { e with picks := ks, pickDraws := e.pickDraws + 1 }) := by
  obtain ⟨k, hk⟩ := exists_pick now h
  refine ⟨k, fun olds holds e ks hks => ?_⟩
  rw [holds, ← hk, readShared, drawPick, hks]
  rfl

/-- The progress that filters, where RATE_COEF is read as `coef`. -/
theorem step_filter {s : State} {rest : List Event} {coef : List F64} {e : Env}
    (hinbox : s.env.inbox = .advance :: rest) (htick : s.tick = .noised)
    (hread : readShared s.rateCoef s.old.rateCoef { s.env with inbox := rest } = (coef, e)) :
    step s = .next { s with tick := .filtered (rateFilter coef s.mixBuf), env := e } := by
  rw [step_of_engine hinbox (by rw [htick]; nofun), backStage_of_noised (s := takeEvent rest s) htick, filterStage]
  exact congrArg (fun c => Host.Outcome.next { s with tick := .filtered (rateFilter c.1 s.mixBuf), env := c.2 }) hread

/-- The progress that decimates, where DECIM is read as `n`. -/
theorem step_decimate {s : State} {rest : List Event} {y : List Cplx} {n : Nat} {e : Env}
    (hinbox : s.env.inbox = .advance :: rest) (htick : s.tick = .filtered y)
    (hread : readShared s.decim s.old.decim { s.env with inbox := rest } = (n, e)) :
    step s = .next { s with tick := .decimated (decimate n y), env := e } := by
  rw [step_of_engine hinbox (by rw [htick]; nofun), backStage_of_filtered (s := takeEvent rest s) htick, decimateStage]
  exact congrArg (fun c => Host.Outcome.next { s with tick := .decimated (decimate c.1 y), env := c.2 }) hread

/-- Settles O51: the filter reads by the first choice, the decimator by the second. -/
theorem rateChangeCanPairOldAndNew : Obligations.RateChangeCanPairOldAndNew := by
  intro s c0 n0 htick hcoefOld hdecimOld coef hcoef n hn
  obtain ⟨k, hk⟩ := exists_pick_of_two hcoef
  obtain ⟨l, hl⟩ := exists_pick_of_two hn
  exact ⟨[k, l], _, _, step_filter rfl htick (hk _ hcoefOld _ [l] rfl),
    step_decimate rfl rfl (hl _ hdecimOld _ [] rfl), rfl⟩

end Sys2Proof.Machine

/-! SUPPORT. WRAP within R263's bound, by the errors of its roundings, and the FM buffer (spec 42_mpx_fm.md R260 to R264). -/

namespace Sys2Proof

/-! ## The constants: π, 2π and their neighbours, in units -/

namespace F64

/-- The binary64 values next to π, below and above it. -/
def piBelow : F64 := ⟨0x400921FB54442D17#64⟩
def piAbove : F64 := ⟨0x400921FB54442D19#64⟩

theorem pi_isFinite : pi.isFinite = true := by decide
theorem twoPi_isFinite : twoPi.isFinite = true := by decide
theorem twoPi_units : twoPi.units = 2 * pi.units := by decide +kernel
theorem twoPi_low : 6 * unitsOne ≤ twoPi.units := by decide +kernel
theorem twoPi_high : twoPi.units ≤ 7 * unitsOne := by decide +kernel
theorem unitsOne_large : 1024 ≤ unitsOne := by decide +kernel
theorem piBelow_lt : piBelow.units < pi.units := by decide +kernel
theorem piBelow_add_piAbove : piBelow.units + piAbove.units = twoPi.units := by decide +kernel
theorem log2_bound : (2 ^ 100 * unitsOne).log2 < 2090 := by decide +kernel

theorem twoPi_small : twoPi.units ≤ 2 ^ 100 * unitsOne :=
  twoPi_high.trans (Nat.mul_le_mul_right _ (by decide))

theorem pi_int : pi.int = pi.units := int_nonneg (by decide)
theorem twoPi_int : twoPi.int = twoPi.units := int_nonneg (by decide)

/-- Far below the overflow threshold. -/
theorem log2_lt_of_le {n : Nat} (h : n ≤ 2 ^ 100 * unitsOne) : n.log2 < 2090 := by
  have hbound := log2_bound
  rw [Nat.log2_eq_log_two] at hbound ⊢
  exact lt_of_le_of_lt (Nat.log_mono_right h) hbound

/-- No value lies between π and the next one. -/
theorem piAbove_le {y : F64} (h : pi.units < y.units) : piAbove.units ≤ y.units := by
  rw [units_lt_iff] at h
  have hnext : piAbove.mag = pi.mag + 1 := by decide
  by_contra hlt
  rw [not_le, units_lt_iff] at hlt
  omega

end F64

/-! ## The reduced phase is within one turn (R260) -/

section

variable {u U T q r κ μ : Int}

/-- The rounded quotient, times 2π, is within half a turn and a little of the phase. -/
theorem turns_close (hU : 1024 ≤ U) (hlow : 6 * U ≤ T) (hhigh : T ≤ 7 * U) (hu : u ≤ 2 ^ 50 * U)
    (hq : 2 * |q * T - u * U| ≤ T ∨ 2 ^ 53 * |q * T - u * U| ≤ u * U) (hr : 2 * |r * U - q| ≤ U) :
    4 * |r * T - u| ≤ 2 * T + U := by
  have hquot : 4 * |q * T - u * U| ≤ U * U := by
    rcases hq with hq | hq
    · nlinarith
    · nlinarith
  have hround : 2 * |r * U * T - q * T| ≤ U * T := by
    rw [← sub_mul, abs_mul, abs_of_nonneg (show 0 ≤ T by omega)]
    nlinarith
  have hsum : |r * T - u| * U ≤ |r * U * T - q * T| + |q * T - u * U| := by
    calc |r * T - u| * U = |(r * U * T - q * T) + (q * T - u * U)| := by
          rw [← abs_of_nonneg (show 0 ≤ U by omega), ← abs_mul, abs_of_nonneg (show 0 ≤ U by omega)]
          congr 1; ring
      _ ≤ _ := abs_add_le _ _
  refine le_of_mul_le_mul_right (a := U) ?_ (by omega)
  nlinarith

theorem turns_small (hU : 1024 ≤ U) (hlow : 6 * U ≤ T) (hr : 0 ≤ r) (hturns : r * T ≤ 2 ^ 51 * U) : r ≤ 2 ^ 49 := by
  by_contra hlarge
  have hmany : (2 ^ 49 + 1) * (6 * U) ≤ r * T := mul_le_mul (by omega) hlow (by omega) hr
  omega

/-- The turns as a binary64, times 2π, rounded, are within a fraction of a turn of the exact product. -/
theorem product_close (hU : 1024 ≤ U) (hlow : 6 * U ≤ T) (hhigh : T ≤ 7 * U) (hr : 0 ≤ r)
    (hturns : r * T ≤ 2 ^ 51 * U) (hκ : 2 * |κ - r * U| ≤ 1 ∨ 2 ^ 53 * |κ - r * U| ≤ r * U)
    (hμ : 2 * |μ * U - κ * T| ≤ U ∨ 2 ^ 53 * |μ * U - κ * T| ≤ κ * T) :
    16 * |μ - r * T| ≤ T + 8 * U := by
  have hrsmall : r ≤ 2 ^ 49 := turns_small hU hlow hr hturns
  have hturnsErr : 16 * |κ - r * U| ≤ U := by
    rcases hκ with hκ | hκ
    · omega
    · nlinarith
  have hscaled : 16 * |κ * T - r * U * T| ≤ U * T := by
    rw [← sub_mul, abs_mul, abs_of_nonneg (show 0 ≤ T by omega)]
    nlinarith
  have hexact : r * U * T ≤ 2 ^ 51 * (U * U) := by nlinarith
  have hproduct : 2 * |μ * U - κ * T| ≤ U * U := by
    rcases hμ with hμ | hμ
    · nlinarith
    · have habove := (abs_le.mp (le_refl |κ * T - r * U * T|)).2
      nlinarith
  have hsum : |μ - r * T| * U ≤ |μ * U - κ * T| + |κ * T - r * U * T| := by
    calc |μ - r * T| * U = |(μ * U - κ * T) + (κ * T - r * U * T)| := by
          rw [← abs_of_nonneg (show 0 ≤ U by omega), ← abs_mul, abs_of_nonneg (show 0 ≤ U by omega)]
          congr 1; ring
      _ ≤ _ := abs_add_le _ _
  refine le_of_mul_le_mul_right (a := U) ?_ (by omega)
  nlinarith

end

namespace F64

variable {x : F64}

/-- The turns WRAP takes off, as a binary64 (R260). -/
def wholeTurns (x : F64) : F64 := (ofInt (x.div twoPi).toIntRne).mul twoPi

/-- How many turns those are. -/
def turns (x : F64) : Nat := rneDiv (x.div twoPi).units unitsOne

/-- The constants' bounds, as integers. -/
theorem twoPi_bounds : 1024 ≤ (unitsOne : Int) ∧ 6 * (unitsOne : Int) ≤ twoPi.units ∧
    (twoPi.units : Int) ≤ 7 * unitsOne :=
  ⟨by exact_mod_cast unitsOne_large, by exact_mod_cast twoPi_low, by exact_mod_cast twoPi_high⟩

/-- The quotient by 2π has the phase's sign, and its nearest integer, times 2π, is close to the phase. -/
theorem turns_spec (hx : x.isFinite = true) (hu : x.units ≤ 2 ^ 50 * unitsOne) :
    (x.div twoPi).sign = x.sign ∧
      4 * |(turns x : Int) * twoPi.units - x.units| ≤ 2 * twoPi.units + unitsOne := by
  obtain ⟨hU, hlow, hhigh⟩ := twoPi_bounds
  have hlog : (x.units * unitsOne / twoPi.units).log2 < 2090 := by
    refine log2_lt_of_le ((Nat.div_le_of_le_mul ?_ : _ ≤ x.units).trans (by omega))
    rw [Nat.mul_comm]
    exact Nat.mul_le_mul_right _ (by omega)
  obtain ⟨-, hsign, herr⟩ := div_err x twoPi hx twoPi_isFinite (by omega) hlog
  have hround := rneDiv_err (x.div twoPi).units unitsOne unitsOne_pos
  push_cast at herr hround
  refine ⟨hsign.trans (by rw [show twoPi.sign = false from by decide]; cases x.sign <;> rfl), ?_⟩
  exact turns_close hU hlow hhigh (by exact_mod_cast hu) herr hround

theorem turns_le (hx : x.isFinite = true) (hu : x.units ≤ 2 ^ 50 * unitsOne) :
    (turns x : Int) * twoPi.units ≤ 2 ^ 51 * unitsOne ∧ (turns x : Int) ≤ 2 ^ 49 := by
  obtain ⟨hU, hlow, hhigh⟩ := twoPi_bounds
  obtain ⟨-, hclose⟩ := turns_spec hx hu
  have habove := (abs_le.mp (le_refl |(turns x : Int) * twoPi.units - x.units|)).2
  have hprod : (turns x : Int) * twoPi.units ≤ 2 ^ 51 * unitsOne := by omega
  exact ⟨hprod, turns_small hU hlow (by omega) hprod⟩

theorem toIntRne_natAbs (q : F64) : q.toIntRne.natAbs = rneDiv q.units unitsOne := by
  rw [toIntRne]
  split
  · rw [Int.natAbs_neg, Int.natAbs_natCast]
  · rw [Int.natAbs_natCast]

/-- The turns as a binary64: their sign, and their error. -/
theorem ofInt_turns (hx : x.isFinite = true) (hu : x.units ≤ 2 ^ 50 * unitsOne) :
    let k := ofInt (x.div twoPi).toIntRne
    k.isFinite = true ∧ (k.sign = x.sign ∨ turns x = 0) ∧
      (2 * |(k.units : Int) - turns x * unitsOne| ≤ 1 ∨
        2 ^ 53 * |(k.units : Int) - turns x * unitsOne| ≤ turns x * unitsOne) := by
  obtain ⟨hqsign, -⟩ := turns_spec hx hu
  obtain ⟨-, hsmall⟩ := turns_le hx hu
  have hsmall' : turns x ≤ 2 ^ 100 := by omega
  have hlog : (turns x * unitsOne / 1).log2 < 2090 := by
    rw [Nat.div_one]
    exact log2_lt_of_le (Nat.mul_le_mul_right _ hsmall')
  obtain ⟨hfinite, hsign, herr⟩ :=
    round_err (decide ((x.div twoPi).toIntRne < 0)) (turns x * unitsOne) 1 (by decide) hlog
  rw [Nat.mul_one] at herr
  push_cast at herr
  dsimp only
  rw [ofInt, toIntRne_natAbs]
  refine ⟨hfinite, ?_, herr⟩
  change (F64.round _ (turns x * unitsOne) 1).sign = x.sign ∨ _
  rw [hsign, ← hqsign, toIntRne]
  change decide ((if (x.div twoPi).sign then -(turns x : Int) else (turns x : Int)) < 0) = _ ∨ _
  cases (x.div twoPi).sign
  · simp
  · simp; omega

/-- A value's signed units, where its sign is another's or it is zero. -/
theorem int_eq_of_sign {y : F64} (h : y.sign = x.sign ∨ y.units = 0) :
    y.int = if x.sign then -(y.units : Int) else y.units := by
  rcases h with h | h
  · rw [int, h]
  · rw [int, h]
    simp

theorem abs_int_sub {y : F64} (h : y.sign = x.sign ∨ y.units = 0) :
    |x.int - y.int| = |(x.units : Int) - y.units| := by
  rw [int_eq_of_sign h, int]
  cases x.sign
  · rfl
  · rw [if_pos rfl, if_pos rfl, abs_sub_comm]
    congr 1
    ring

/-- A sum whose exact value a value of the format bounds is bounded by it. -/
theorem add_within {a b y : F64} (ha : a.isFinite = true) (hb : b.isFinite = true) (hy : y.units ≤ 2 ^ 100 * unitsOne)
    (h : |a.int + b.int| ≤ y.units) : (a.add b).isFinite = true ∧ |(a.add b).int| ≤ y.units := by
  have hlog : (a.int + b.int).natAbs.log2 < 2090 := by
    refine log2_lt_of_le (le_trans ?_ hy)
    rw [Int.abs_eq_natAbs] at h
    exact_mod_cast h
  obtain ⟨hfinite, -, hbound⟩ := add_err a b ha hb hlog
  exact ⟨hfinite, hbound y (log2_lt_of_le hy) h⟩

/-- What WRAP takes off is within one turn of the phase. -/
theorem wholeTurns_close (hx : x.isFinite = true) (hu : x.units ≤ 2 ^ 50 * unitsOne) :
    (wholeTurns x).isFinite = true ∧ |x.int - (wholeTurns x).int| ≤ twoPi.units := by
  obtain ⟨hU, hlow, hhigh⟩ := twoPi_bounds
  obtain ⟨-, hclose⟩ := turns_spec hx hu
  obtain ⟨hprod, hsmall⟩ := turns_le hx hu
  obtain ⟨hkfinite, hksign, hkerr⟩ := ofInt_turns hx hu
  rw [wholeTurns]
  generalize ofInt (x.div twoPi).toIntRne = k at *
  have hkunits : (k.units : Int) ≤ 2 ^ 50 * unitsOne := by
    have habove := (abs_le.mp (le_refl |(k.units : Int) - turns x * unitsOne|)).2
    have hturnsU : (turns x : Int) * unitsOne ≤ 2 ^ 49 * unitsOne := Int.mul_le_mul_of_nonneg_right hsmall (by omega)
    omega
  have hlog : (k.units * twoPi.units / unitsOne).log2 < 2090 := by
    refine log2_lt_of_le (Nat.div_le_of_le_mul ?_)
    have hk' : k.units ≤ 2 ^ 50 * unitsOne := by exact_mod_cast hkunits
    calc k.units * twoPi.units ≤ (2 ^ 50 * unitsOne) * (7 * unitsOne) := Nat.mul_le_mul hk' twoPi_high
      _ = unitsOne * ((2 ^ 50 * 7) * unitsOne) := by ring
      _ ≤ unitsOne * (2 ^ 100 * unitsOne) := Nat.mul_le_mul_left _ (Nat.mul_le_mul_right _ (by decide))
  obtain ⟨hfinite, hsign, herr⟩ := mul_err k twoPi hkfinite twoPi_isFinite hlog
  push_cast at herr
  refine ⟨hfinite, ?_⟩
  have hproduct := product_close hU hlow hhigh (by omega) hprod hkerr herr
  rw [abs_int_sub]
  · have htriangle := abs_sub_le (x.units : Int) (turns x * twoPi.units) (k.mul twoPi).units
    have hleft := abs_sub_comm (x.units : Int) (turns x * twoPi.units)
    have hright := abs_sub_comm ((turns x : Int) * twoPi.units) (k.mul twoPi).units
    omega
  · rcases hksign with hksign | hzero
    · exact .inl (hsign.trans (by rw [hksign, show twoPi.sign = false from by decide]; cases x.sign <;> rfl))
    · right
      have hkzero : k.units = 0 := by
        rw [hzero, Nat.cast_zero, zero_mul, sub_zero, abs_of_nonneg (by omega)] at hkerr
        omega
      generalize (k.mul twoPi).units = μ at *
      rw [hkzero, Nat.cast_zero, zero_mul, sub_zero, abs_of_nonneg (Int.mul_nonneg (by omega) (by omega))] at herr
      by_contra hne
      have hone : 1 * (unitsOne : Int) ≤ μ * unitsOne := Int.mul_le_mul_of_nonneg_right (by omega) (by omega)
      omega

/-- The reduced phase is finite and within one turn. -/
theorem reduced_le (hx : x.isFinite = true) (hu : x.units ≤ 2 ^ 50 * unitsOne) :
    (x.sub (wholeTurns x)).isFinite = true ∧ |(x.sub (wholeTurns x)).int| ≤ twoPi.units := by
  obtain ⟨hfinite, hclose⟩ := wholeTurns_close hx hu
  rw [sub_eq_add_neg _ _ hfinite]
  have hexact : |x.int + (wholeTurns x).neg.int| ≤ twoPi.units := by
    rwa [neg_int, ← Int.sub_eq_add_neg]
  exact add_within hx (by rw [neg_isFinite]; exact hfinite) twoPi_small hexact


/-! ## One turn of each loop (R260) -/

variable {y : F64}

theorem pi_lt_iff (hy : y.isFinite = true) : pi.lt y = true ↔ (pi.units : Int) < y.int := by
  rw [lt_iff _ _ pi_isFinite hy, pi_int]

theorem le_neg_pi_iff (hy : y.isFinite = true) : y.le pi.neg = true ↔ y.int ≤ -(pi.units : Int) := by
  rw [le_iff _ _ hy (by rw [neg_isFinite]; exact pi_isFinite), neg_int, pi_int]

/-- A turn down from above π lands inside (−π, π). -/
theorem down_within (hy : y.isFinite = true) (hle : y.int ≤ twoPi.units) (hgt : (pi.units : Int) < y.int) :
    (y.sub twoPi).isFinite = true ∧ |(y.sub twoPi).int| ≤ piBelow.units := by
  have hnear := piBelow_add_piAbove
  have hpositive : y.int = y.units := by
    have habs := int_natAbs y
    omega
  have hnext := piAbove_le (y := y) (by omega)
  have hsmall : piBelow.units ≤ 2 ^ 100 * unitsOne := le_trans (by omega) twoPi_small
  rw [sub_eq_add_neg _ _ twoPi_isFinite]
  refine add_within hy (by rw [neg_isFinite]; exact twoPi_isFinite) hsmall ?_
  rw [neg_int, twoPi_int, abs_le]
  omega

/-- A turn up from −π or below lands inside [0, π]. -/
theorem up_within (hy : y.isFinite = true) (hge : -(twoPi.units : Int) ≤ y.int) (hle : y.int ≤ -(pi.units : Int)) :
    (y.add twoPi).isFinite = true ∧ 0 ≤ (y.add twoPi).int ∧ (y.add twoPi).int ≤ pi.units := by
  have htwo := twoPi_units
  have hexact : |y.int + twoPi.int| ≤ pi.units := by
    rw [twoPi_int, abs_le]
    omega
  have hsmall : pi.units ≤ 2 ^ 100 * unitsOne := le_trans (by omega) twoPi_small
  obtain ⟨hfinite, hbound⟩ := add_within hy twoPi_isFinite hsmall hexact
  have hlog : (y.int + twoPi.int).natAbs.log2 < 2090 := by
    rw [Int.abs_eq_natAbs] at hexact
    exact log2_lt_of_le (le_trans (by exact_mod_cast hexact) hsmall)
  obtain ⟨-, herr, -⟩ := add_err y twoPi hy twoPi_isFinite hlog
  rw [abs_of_nonneg (show 0 ≤ y.int + twoPi.int by rw [twoPi_int]; omega)] at herr
  have hbelow := abs_le.mp (le_refl |(y.add twoPi).int - (y.int + twoPi.int)|)
  rw [twoPi_int] at *
  exact ⟨hfinite, by omega, (abs_le.mp hbound).2⟩

end F64

namespace Machine

variable {y : F64}

theorem wrapDown_of_not_lt (n : Nat) (h : F64.pi.lt y = false) : wrapDown n y = some y := by
  cases n <;> simp [wrapDown, h]

theorem wrapUp_of_not_le (n : Nat) (h : y.le F64.pi.neg = false) : wrapUp n y = some y := by
  cases n <;> simp [wrapUp, h]

/-- The first loop makes at most one turn. -/
theorem wrapDown_eq (n : Nat) (hy : y.isFinite = true) (hle : y.int ≤ F64.twoPi.units) :
    wrapDown (n + 1) y = some (if F64.pi.lt y then y.sub F64.twoPi else y) := by
  rw [wrapDown]
  split
  · next hgt =>
    obtain ⟨hfinite, hwithin⟩ := F64.down_within hy hle ((F64.pi_lt_iff hy).mp hgt)
    refine wrapDown_of_not_lt n ?_
    rw [← Bool.not_eq_true, F64.pi_lt_iff hfinite]
    have hbelow := F64.piBelow_lt
    have habove := (abs_le.mp hwithin).2
    omega
  · rfl

/-- The second loop makes at most one turn. -/
theorem wrapUp_eq (n : Nat) (hy : y.isFinite = true) (hge : -(F64.twoPi.units : Int) ≤ y.int) :
    wrapUp (n + 1) y = some (if y.le F64.pi.neg then y.add F64.twoPi else y) := by
  rw [wrapUp]
  split
  · next hle =>
    obtain ⟨hfinite, hnonneg, -⟩ := F64.up_within hy hge ((F64.le_neg_pi_iff hy).mp hle)
    refine wrapUp_of_not_le n ?_
    rw [← Bool.not_eq_true, F64.le_neg_pi_iff hfinite]
    have hpos : 0 < F64.pi.units := lt_of_le_of_lt (Nat.zero_le _) F64.piBelow_lt
    omega
  · rfl

/-- A value within one turn, after the turn down: at most π, still within one turn. -/
theorem down_bounds (hy : y.isFinite = true) (hle : |y.int| ≤ F64.twoPi.units) :
    let d := if F64.pi.lt y then y.sub F64.twoPi else y
    d.isFinite = true ∧ -(F64.twoPi.units : Int) ≤ d.int ∧ d.int ≤ F64.pi.units := by
  have hbelow := F64.piBelow_lt
  have htwo := F64.twoPi_units
  have hbounds := abs_le.mp hle
  dsimp only
  split
  · next hgt =>
    obtain ⟨hfinite, hwithin⟩ := F64.down_within hy hbounds.2 ((F64.pi_lt_iff hy).mp hgt)
    have hbounds' := abs_le.mp hwithin
    exact ⟨hfinite, by omega, by omega⟩
  · next hgt =>
    rw [F64.pi_lt_iff hy, not_lt] at hgt
    exact ⟨hy, hbounds.1, hgt⟩

/-- A value of at most π, after the turn up: in (−π, π]. -/
theorem up_bounds (hy : y.isFinite = true) (hge : -(F64.twoPi.units : Int) ≤ y.int) (hle : y.int ≤ F64.pi.units) :
    let w := if y.le F64.pi.neg then y.add F64.twoPi else y
    w.le F64.pi = true ∧ F64.pi.neg.lt w = true := by
  have hpos : 0 < F64.pi.units := lt_of_le_of_lt (Nat.zero_le _) F64.piBelow_lt
  have hnegFinite : F64.pi.neg.isFinite = true := by rw [F64.neg_isFinite]; exact F64.pi_isFinite
  dsimp only
  split
  · next hlow =>
    obtain ⟨hfinite, hnonneg, hhigh⟩ := F64.up_within hy hge ((F64.le_neg_pi_iff hy).mp hlow)
    rw [F64.le_iff _ _ hfinite F64.pi_isFinite, F64.lt_iff _ _ hnegFinite hfinite, F64.neg_int, F64.pi_int]
    omega
  · next hlow =>
    rw [F64.le_neg_pi_iff hy] at hlow
    rw [F64.le_iff _ _ hy F64.pi_isFinite, F64.lt_iff _ _ hnegFinite hy, F64.neg_int, F64.pi_int]
    omega

/-- WRAP within R263's bound: what is reduced, then at most one turn of each loop. -/
theorem wrap_eq {x : F64} (hx : x.isFinite = true) (hu : x.units ≤ 2 ^ 50 * F64.unitsOne) :
    let rest := x.sub (F64.wholeTurns x)
    let down := if F64.pi.lt rest then rest.sub F64.twoPi else rest
    wrap x = if down.le F64.pi.neg then down.add F64.twoPi else down := by
  obtain ⟨hfinite, hwithin⟩ := F64.reduced_le hx hu
  obtain ⟨hdfinite, hdlow, -⟩ := down_bounds hfinite hwithin
  rw [wrap, if_pos hx]
  show ((wrapDown (63 + 1) (x.sub (F64.wholeTurns x))).bind (wrapUp (63 + 1))).getD _ = _
  rw [wrapDown_eq 63 hfinite (abs_le.mp hwithin).2, Option.bind_some, wrapUp_eq 63 hdfinite hdlow, Option.getD_some]

theorem wrap_bounds {x : F64} (hx : x.isFinite = true) (hu : x.units ≤ 2 ^ 50 * F64.unitsOne) :
    (wrap x).le F64.pi = true ∧ F64.pi.neg.lt (wrap x) = true := by
  obtain ⟨hfinite, hwithin⟩ := F64.reduced_le hx hu
  obtain ⟨hdfinite, hdlow, hdhigh⟩ := down_bounds hfinite hwithin
  rw [wrap_eq hx hu]
  exact up_bounds hdfinite hdlow hdhigh

/-! ## The FM buffer (R262, R264) -/

theorem fmRun_phase (p : Params) (phase : F64) (xs : List F64) :
    (fmRun p phase xs).2 = xs.foldl (fmPhaseStep p) phase := by
  induction xs generalizing phase with
  | nil => rfl
  | cons x xs ih => exact ih (fmPhaseStep p phase x)

theorem fmRun_getElem (p : Params) (phase : F64) (xs : List F64) {n : Nat} (hn : n < xs.length) :
    (fmRun p phase xs).1[n]? = some (sincosOf p ((xs.take (n + 1)).foldl (fmPhaseStep p) phase)) := by
  induction xs generalizing phase n with
  | nil => exact absurd hn (Nat.not_lt_zero n)
  | cons x xs ih =>
    cases n with
    | zero => rfl
    | succ n => exact ih (fmPhaseStep p phase x) (Nat.lt_of_succ_lt_succ hn)

/-- Settles O37: the buffer by induction on the samples, WRAP by the errors of its roundings. -/
theorem fmFollowsThePhase : Obligations.FmFollowsThePhase := by
  intro p phase xs
  refine ⟨?_, fun n hn => fmRun_getElem p phase xs hn, fun x hx hu => ⟨wrap_eq hx hu, wrap_bounds hx hu⟩⟩
  dsimp only
  rw [fmRun_phase, List.take_length]
  rfl

end Machine
end Sys2Proof
